-- ==== Sys2Proof/Word.lean ====
section
/-! DEFINITION. The word types of the SHA-3072 digest engine (00_scope.md rules R9 to R11): a byte of the lattice, of
system memory and of every byte string, a host register word, and the 64-bit word of SHA-512, Keccak and `ENT`. -/

namespace Sys2Proof

/-- One byte (R11). -/
abbrev Byte := BitVec 8

/-- A host register word, a command word, or a 32-bit word of a primitive (R22, R100). -/
abbrev Word := BitVec 32

/-- A 64-bit word: `ENT`, SHA-512 words, Keccak lanes (R36, R135, R138). -/
abbrev Word64 := BitVec 64

end Sys2Proof
end

