-- ==== Sys2Proof/Machine/Bytes.lean ====
section
/-! DEFINITION. Byte strings: the encodings, slices and exclusive-or of 00_scope.md rule R11, shared by every primitive. -/

namespace Sys2Proof.Machine

/-- `int_be(B)`: the value of B read as a big-endian unsigned integer (R11). -/
def intBe (b : List Byte) : Nat := b.foldl (fun acc x => acc * 256 + x.toNat) 0

/-- `int_le(B)`: the value of B read as a little-endian unsigned integer (R11). -/
def intLe (b : List Byte) : Nat := b.foldr (fun x acc => x.toNat + acc * 256) 0

/-- `le_k(v)`: the k-byte little-endian encoding of v (R11). -/
def leBytes : Nat → Nat → List Byte
  | 0, _ => []
  | k + 1, v => BitVec.ofNat 8 v :: leBytes k (v / 256)

/-- `be_k(v)`: the k-byte big-endian encoding of v (R11). -/
def beBytes (k v : Nat) : List Byte := (leBytes k v).reverse

/-- `xor(A, B)` on byte strings of equal length (R11). -/
def xorBytes (a b : List Byte) : List Byte := List.zipWith (· ^^^ ·) a b

/-- `B[i .. i + n)` (R11). -/
def slice (b : List Byte) (i n : Nat) : List Byte := (b.drop i).take n

/-- A byte string in a buffer of `n` bytes: the bytes after it are zero. -/
def padTo (n : Nat) (b : List Byte) : List Byte := (b ++ List.replicate n 0).take n

/-- The first `count` pieces of `size` bytes each of a byte string, in order. -/
def pieces (size : Nat) : Nat → List Byte → List (List Byte)
  | 0, _ => []
  | count + 1, b => b.take size :: pieces size count (b.drop size)

/-- The words of a table as the spec prints it: each row is one number that joins `perRow` words of `w` bits, the first
word in its highest bits. -/
def tableWords (w perRow : Nat) (rows : List Nat) : List (BitVec w) :=
  rows.flatMap fun row => (List.range perRow).map fun i => BitVec.ofNat w (row >>> (w * (perRow - 1 - i)))

end Sys2Proof.Machine
end

