-- ==== Sys2Proof/Machine/Sha2.lean ====
section
/-! DEFINITION. SHA-256 and SHA-512 (40_hash_primitives.md rules R130 to R137): one computation over the parameters in
which the two differ. -/

namespace Sys2Proof.Machine

/-- The parameters in which SHA-256 and SHA-512 differ (R137). -/
structure Sha2 (w : Nat) where
  /-- Bytes of a message block. -/
  blockBytes : Nat
  /-- Bytes of a word. -/
  wordBytes : Nat
  /-- Bytes of the length field at the end of the padding. -/
  lengthBytes : Nat
  /-- The initial hash value. -/
  h0 : List (BitVec w)
  /-- The round constants, one a round. -/
  k : List (BitVec w)
  bigS0 : BitVec w → BitVec w
  bigS1 : BitVec w → BitVec w
  smallS0 : BitVec w → BitVec w
  smallS1 : BitVec w → BitVec w

/-- The working variables a .. h of R133. -/
structure Sha2Vars (w : Nat) where
  a : BitVec w
  b : BitVec w
  c : BitVec w
  d : BitVec w
  e : BitVec w
  f : BitVec w
  g : BitVec w
  h : BitVec w

/-- `Ch` (R131, R135). -/
def shaCh {w : Nat} (x y z : BitVec w) : BitVec w := (x &&& y) ^^^ (~~~x &&& z)

/-- `Maj` (R131, R135). -/
def shaMaj {w : Nat} (x y z : BitVec w) : BitVec w := (x &&& y) ^^^ (x &&& z) ^^^ (y &&& z)

/-- The padded message: 0x80, zeros, and the length in bits, up to a multiple of the block size (R130, R134). -/
def Sha2.pad {w : Nat} (p : Sha2 w) (m : List Byte) : List Byte :=
  let room := p.blockBytes - 1 - p.lengthBytes
  let zeros := (((room : Int) - m.length) % p.blockBytes).toNat
  m ++ (0x80#8 :: List.replicate zeros 0) ++ beBytes p.lengthBytes (8 * m.length)

/-- The sixteen words of a block, big-endian (R130, R134). -/
def Sha2.words {w : Nat} (p : Sha2 w) (block : List Byte) : List (BitVec w) :=
  (pieces p.wordBytes 16 block).map fun x => BitVec.ofNat w (intBe x)

/-- `n` more words of the message schedule; the list holds the newest word first (R133). -/
def Sha2.extend {w : Nat} (p : Sha2 w) : Nat → List (BitVec w) → List (BitVec w)
  | 0, ws => ws
  | n + 1, ws => p.extend n ((p.smallS1 (ws.getD 1 0) + ws.getD 6 0 + p.smallS0 (ws.getD 14 0) + ws.getD 15 0) :: ws)

/-- The message schedule `W[0 ..]` of a block (R133). -/
def Sha2.schedule {w : Nat} (p : Sha2 w) (block : List Byte) : List (BitVec w) :=
  (p.extend (p.k.length - 16) (p.words block).reverse).reverse

/-- One round with round constant `k` and schedule word `wt` (R133). -/
def Sha2.round {w : Nat} (p : Sha2 w) (v : Sha2Vars w) (k wt : BitVec w) : Sha2Vars w :=
  let t1 := v.h + p.bigS1 v.e + shaCh v.e v.f v.g + k + wt
  let t2 := p.bigS0 v.a + shaMaj v.a v.b v.c
  ⟨t1 + t2, v.a, v.b, v.c, v.d + t1, v.e, v.f, v.g⟩

/-- The hash value after one more block (R133). -/
def Sha2.compress {w : Nat} (p : Sha2 w) (h : List (BitVec w)) (block : List Byte) : List (BitVec w) :=
  let start : Sha2Vars w := ⟨h.getD 0 0, h.getD 1 0, h.getD 2 0, h.getD 3 0, h.getD 4 0, h.getD 5 0, h.getD 6 0, h.getD 7 0⟩
  let v := (p.k.zip (p.schedule block)).foldl (fun v kw => p.round v kw.1 kw.2) start
  List.zipWith (· + ·) h [v.a, v.b, v.c, v.d, v.e, v.f, v.g, v.h]

/-- The digest of a message: the blocks in order, then the eight words, big-endian (R133, R137). -/
def Sha2.digest {w : Nat} (p : Sha2 w) (m : List Byte) : List Byte :=
  let padded := p.pad m
  let h := (pieces p.blockBytes (padded.length / p.blockBytes) padded).foldl p.compress p.h0
  h.flatMap fun x => beBytes p.wordBytes x.toNat

/-- `H256_0` (R132). -/
def h256Init : List Word := tableWords 32 8 [
  0x6a09e667_bb67ae85_3c6ef372_a54ff53a_510e527f_9b05688c_1f83d9ab_5be0cd19]

/-- `K256` (R132). -/
def k256 : List Word := tableWords 32 8 [
  0x428a2f98_71374491_b5c0fbcf_e9b5dba5_3956c25b_59f111f1_923f82a4_ab1c5ed5,
  0xd807aa98_12835b01_243185be_550c7dc3_72be5d74_80deb1fe_9bdc06a7_c19bf174,
  0xe49b69c1_efbe4786_0fc19dc6_240ca1cc_2de92c6f_4a7484aa_5cb0a9dc_76f988da,
  0x983e5152_a831c66d_b00327c8_bf597fc7_c6e00bf3_d5a79147_06ca6351_14292967,
  0x27b70a85_2e1b2138_4d2c6dfc_53380d13_650a7354_766a0abb_81c2c92e_92722c85,
  0xa2bfe8a1_a81a664b_c24b8b70_c76c51a3_d192e819_d6990624_f40e3585_106aa070,
  0x19a4c116_1e376c08_2748774c_34b0bcb5_391c0cb3_4ed8aa4a_5b9cca4f_682e6ff3,
  0x748f82ee_78a5636f_84c87814_8cc70208_90befffa_a4506ceb_bef9a3f7_c67178f2]

/-- `H512_0` (R136). -/
def h512Init : List Word64 := tableWords 64 4 [
  0x6a09e667f3bcc908_bb67ae8584caa73b_3c6ef372fe94f82b_a54ff53a5f1d36f1,
  0x510e527fade682d1_9b05688c2b3e6c1f_1f83d9abfb41bd6b_5be0cd19137e2179]

/-- `K512` (R136). -/
def k512 : List Word64 := tableWords 64 4 [
  0x428a2f98d728ae22_7137449123ef65cd_b5c0fbcfec4d3b2f_e9b5dba58189dbbc,
  0x3956c25bf348b538_59f111f1b605d019_923f82a4af194f9b_ab1c5ed5da6d8118,
  0xd807aa98a3030242_12835b0145706fbe_243185be4ee4b28c_550c7dc3d5ffb4e2,
  0x72be5d74f27b896f_80deb1fe3b1696b1_9bdc06a725c71235_c19bf174cf692694,
  0xe49b69c19ef14ad2_efbe4786384f25e3_0fc19dc68b8cd5b5_240ca1cc77ac9c65,
  0x2de92c6f592b0275_4a7484aa6ea6e483_5cb0a9dcbd41fbd4_76f988da831153b5,
  0x983e5152ee66dfab_a831c66d2db43210_b00327c898fb213f_bf597fc7beef0ee4,
  0xc6e00bf33da88fc2_d5a79147930aa725_06ca6351e003826f_142929670a0e6e70,
  0x27b70a8546d22ffc_2e1b21385c26c926_4d2c6dfc5ac42aed_53380d139d95b3df,
  0x650a73548baf63de_766a0abb3c77b2a8_81c2c92e47edaee6_92722c851482353b,
  0xa2bfe8a14cf10364_a81a664bbc423001_c24b8b70d0f89791_c76c51a30654be30,
  0xd192e819d6ef5218_d69906245565a910_f40e35855771202a_106aa07032bbd1b8,
  0x19a4c116b8d2d0c8_1e376c085141ab53_2748774cdf8eeb99_34b0bcb5e19b48a8,
  0x391c0cb3c5c95a63_4ed8aa4ae3418acb_5b9cca4f7763e373_682e6ff3d6b2b8a3,
  0x748f82ee5defb2fc_78a5636f43172f60_84c87814a1f0ab72_8cc702081a6439ec,
  0x90befffa23631e28_a4506cebde82bde9_bef9a3f7b2c67915_c67178f2e372532b,
  0xca273eceea26619c_d186b8c721c0c207_eada7dd6cde0eb1e_f57d4f7fee6ed178,
  0x06f067aa72176fba_0a637dc5a2c898a6_113f9804bef90dae_1b710b35131c471b,
  0x28db77f523047d84_32caab7b40c72493_3c9ebe0a15c9bebc_431d67c49c100d4c,
  0x4cc5d4becb3e42b6_597f299cfc657e2a_5fcb6fab3ad6faec_6c44198c4a475817]

/-- SHA-256 (R130 to R133). -/
def sha256Params : Sha2 32 where
  blockBytes := 64
  wordBytes := 4
  lengthBytes := 8
  h0 := h256Init
  k := k256
  bigS0 x := x.rotateRight 2 ^^^ x.rotateRight 13 ^^^ x.rotateRight 22
  bigS1 x := x.rotateRight 6 ^^^ x.rotateRight 11 ^^^ x.rotateRight 25
  smallS0 x := x.rotateRight 7 ^^^ x.rotateRight 18 ^^^ x >>> 3
  smallS1 x := x.rotateRight 17 ^^^ x.rotateRight 19 ^^^ x >>> 10

/-- SHA-512 (R134 to R137). -/
def sha512Params : Sha2 64 where
  blockBytes := 128
  wordBytes := 8
  lengthBytes := 16
  h0 := h512Init
  k := k512
  bigS0 x := x.rotateRight 28 ^^^ x.rotateRight 34 ^^^ x.rotateRight 39
  bigS1 x := x.rotateRight 14 ^^^ x.rotateRight 18 ^^^ x.rotateRight 41
  smallS0 x := x.rotateRight 1 ^^^ x.rotateRight 8 ^^^ x >>> 7
  smallS1 x := x.rotateRight 19 ^^^ x.rotateRight 61 ^^^ x >>> 6

/-- `SHA256(M)`, 32 bytes (R133, R143). -/
@[irreducible] def sha256 (m : List Byte) : List Byte := sha256Params.digest m

/-- `SHA512(M)`, 64 bytes (R137, R143). -/
@[irreducible] def sha512 (m : List Byte) : List Byte := sha512Params.digest m

end Sys2Proof.Machine
end

