-- ==== Sys2Proof/Machine/Kdf.lean ====
section
/-! DEFINITION. HMAC-SHA256, PBKDF2, Salsa20/8 and scrypt (41_kdf_primitives.md rules R160 to R168). -/

namespace Sys2Proof.Machine

/-- `HMAC256(K, M)` (R160). -/
def hmac256 (key m : List Byte) : List Byte :=
  let k := if key.length > 64 then sha256 key else key
  let k0 := k ++ List.replicate (64 - k.length) 0
  sha256 (xorBytes k0 (List.replicate 64 0x5C) ++ sha256 (xorBytes k0 (List.replicate 64 0x36) ++ m))

/-- `n` more iterations of one PBKDF2 block: `U` and the exclusive-or `F` of all `U` so far (R161). -/
def pbkdf2Iterate (p : List Byte) : Nat → List Byte → List Byte → List Byte
  | 0, _, f => f
  | n + 1, u, f =>
    let u' := hmac256 p u
    pbkdf2Iterate p n u' (xorBytes f u')

/-- Block `i` of PBKDF2, i counting from 1 (R161). -/
def pbkdf2Block (p salt : List Byte) (c i : Nat) : List Byte :=
  let u := hmac256 p (salt ++ beBytes 4 i)
  pbkdf2Iterate p (c - 1) u u

/-- `PBKDF2(P, S, c, dkLen)` (R161). -/
def pbkdf2 (p salt : List Byte) (c dkLen : Nat) : List Byte :=
  ((List.range ((dkLen + 31) / 32)).flatMap fun i => pbkdf2Block p salt c (i + 1)).take dkLen

/-- The sixteen steps of a column round, then of a row round, as (a, b, c, n) (R162). -/
def salsaSteps : List (Nat × Nat × Nat × Nat) := [
  (4, 0, 12, 7), (8, 4, 0, 9), (12, 8, 4, 13), (0, 12, 8, 18),
  (9, 5, 1, 7), (13, 9, 5, 9), (1, 13, 9, 13), (5, 1, 13, 18),
  (14, 10, 6, 7), (2, 14, 10, 9), (6, 2, 14, 13), (10, 6, 2, 18),
  (3, 15, 11, 7), (7, 3, 15, 9), (11, 7, 3, 13), (15, 11, 7, 18),
  (1, 0, 3, 7), (2, 1, 0, 9), (3, 2, 1, 13), (0, 3, 2, 18),
  (6, 5, 4, 7), (7, 6, 5, 9), (4, 7, 6, 13), (5, 4, 7, 18),
  (11, 10, 9, 7), (8, 11, 10, 9), (9, 8, 11, 13), (10, 9, 8, 18),
  (12, 15, 14, 7), (13, 12, 15, 9), (14, 13, 12, 13), (15, 14, 13, 18)]

/-- One step: `x[a] <- x[a] ^ rotl(u32(x[b] + x[c]), n)` (R162). -/
def salsaStep (x : List Word) (t : Nat × Nat × Nat × Nat) : List Word :=
  x.set t.1 (x.getD t.1 0 ^^^ (x.getD t.2.1 0 + x.getD t.2.2.1 0).rotateLeft t.2.2.2)

/-- `Salsa20_8(B)` on a 64-byte block: four double rounds, then the input words are added (R162). -/
def salsa20_8 (b : List Byte) : List Byte :=
  let input : List Word := (pieces 4 16 b).map fun x => BitVec.ofNat 32 (intLe x)
  let x := (salsaSteps ++ salsaSteps ++ salsaSteps ++ salsaSteps).foldl salsaStep input
  (List.zipWith (· + ·) x input).flatMap fun w => leBytes 4 w.toNat

/-- The blocks `Y_0, Y_1, ...` of BlockMix from the sub-blocks and the running `X` (R163). -/
def blockMixRun : List (List Byte) → List Byte → List (List Byte)
  | [], _ => []
  | b :: rest, x =>
    let y := salsa20_8 (xorBytes x b)
    y :: blockMixRun rest y

/-- `BlockMix(B, r)`: the even blocks, then the odd blocks (R163). -/
def blockMix (b : List Byte) (r : Nat) : List Byte :=
  let bs := pieces 64 (2 * r) b
  let ys := blockMixRun bs (bs.getD (2 * r - 1) [])
  ((List.range r).flatMap fun i => ys.getD (2 * i) []) ++ (List.range r).flatMap fun i => ys.getD (2 * i + 1) []

/-- `Integerify(X, r)` (R165). -/
def integerify (x : List Byte) (r : Nat) : Nat := intLe (slice x (64 * (2 * r - 1)) 8)

/-- The first loop of ROMix: the scratch array V and the X that follows it (R164). -/
def roMixFill (r : Nat) : Nat → List Byte → List (List Byte) × List Byte
  | 0, x => ([], x)
  | n + 1, x =>
    let rest := roMixFill r n (blockMix x r)
    (x :: rest.1, rest.2)

/-- The second loop of ROMix (R164). -/
def roMixRun (v : List (List Byte)) (nv r : Nat) : Nat → List Byte → List Byte
  | 0, x => x
  | n + 1, x => roMixRun v nv r n (blockMix (xorBytes x (v.getD (integerify x r % nv) [])) r)

/-- `ROMix(B, N, r)` (R164). -/
def roMix (b : List Byte) (n r : Nat) : List Byte :=
  let filled := roMixFill r n b
  roMixRun filled.1 n r n filled.2

/-- `scrypt(P, S, N, r, p, dkLen)` (R166). -/
def scrypt (pw salt : List Byte) (n r p dkLen : Nat) : List Byte :=
  let b := pbkdf2 pw salt 1 (p * 128 * r)
  pbkdf2 pw ((pieces (128 * r) p b).flatMap fun x => roMix x n r) 1 dkLen

/-- `KDF_MEM(P)`: scrypt with N = 2^14, r = 8, p = 1 and 64 output bytes, for a given salt (R167). -/
def kdfMem (salt p : List Byte) : List Byte := scrypt p salt (2 ^ 14) 8 1 64

/-- `KDF_PW(P)`: PBKDF2 with 100,000 iterations and 32 output bytes, for a given salt (R168). -/
def kdfPw (salt p : List Byte) : List Byte := pbkdf2 p salt 100000 32

end Sys2Proof.Machine
end

