-- ==== Sys2Proof/Machine/Keccak.lean ====
section
/-! DEFINITION. Keccak-f[1600], SHA3-512 and SHAKE256 (40_hash_primitives.md rules R138 to R142). The state is the list
of its 25 lanes, lane `A[x][y]` at place `x + 5 y`, the order in which the sponge reads and writes them (R140). -/

namespace Sys2Proof.Machine

/-- The round constants `RC[0 .. 23]` (R138). -/
def keccakRC : List Word64 := tableWords 64 4 [
  0x0000000000000001_0000000000008082_800000000000808a_8000000080008000,
  0x000000000000808b_0000000080000001_8000000080008081_8000000000008009,
  0x000000000000008a_0000000000000088_0000000080008009_000000008000000a,
  0x000000008000808b_800000000000008b_8000000000008089_8000000000008003,
  0x8000000000008002_8000000000000080_000000000000800a_800000008000000a,
  0x8000000080008081_8000000000008080_0000000080000001_8000000080008008]

/-- The rotation offsets `r[x][y]` at place `x + 5 y`, rows of fixed y (R139). -/
def keccakOffsets : List Nat := [
  0, 1, 62, 28, 27,
  36, 44, 6, 55, 20,
  3, 10, 43, 25, 39,
  41, 45, 15, 21, 8,
  18, 2, 61, 56, 14]

/-- Lane `A[x][y]`, indices mod 5 (R139). -/
def lane (a : List Word64) (x y : Nat) : Word64 := a.getD (x % 5 + 5 * (y % 5)) 0

/-- The state whose lane `A[x][y]` is `f x y`. -/
def lanes (f : Nat → Nat → Word64) : List Word64 := (List.range 25).map fun i => f (i % 5) (i / 5)

/-- Theta (R139): each lane takes in the parities of two neighbouring columns. -/
def keccakTheta (a : List Word64) : List Word64 :=
  let c : List Word64 := (List.range 5).map fun x => lane a x 0 ^^^ lane a x 1 ^^^ lane a x 2 ^^^ lane a x 3 ^^^ lane a x 4
  let d : List Word64 := (List.range 5).map fun x => c.getD ((x + 4) % 5) 0 ^^^ (c.getD ((x + 1) % 5) 0).rotateLeft 1
  lanes fun x y => lane a x y ^^^ d.getD x 0

/-- Rho and pi (R139): `B[y][2x+3y] = rotl(A[x][y], r[x][y])`. The lane that moves to `B[u][v]` is `A[u+3v][u]`, since
`y = u` and `2x + 3y = v` modulo 5 give `x = u + 3v`. -/
def keccakRhoPi (a : List Word64) : List Word64 :=
  lanes fun u v => (lane a (u + 3 * v) u).rotateLeft (keccakOffsets.getD ((u + 3 * v) % 5 + 5 * u) 0)

/-- Chi (R139). -/
def keccakChi (b : List Word64) : List Word64 :=
  lanes fun x y => lane b x y ^^^ (~~~(lane b (x + 1) y) &&& lane b (x + 2) y)

/-- Iota (R139): the round constant goes into `A[0][0]`. -/
def keccakIota (a : List Word64) (rc : Word64) : List Word64 := a.set 0 (lane a 0 0 ^^^ rc)

/-- Keccak-f[1600]: 24 rounds (R139). -/
def keccakF (a : List Word64) : List Word64 :=
  keccakRC.foldl (fun a rc => keccakIota (keccakChi (keccakRhoPi (keccakTheta a))) rc) a

/-- The padded message of the sponge with rate `rate` and domain byte `ds` (R140). -/
def spongePad (rate : Nat) (ds : Byte) (m : List Byte) : List Byte :=
  let q := rate - m.length % rate
  let p := m ++ ds :: List.replicate (q - 1) 0
  p.set (p.length - 1) (p.getD (p.length - 1) 0 ||| 0x80)

/-- A block is absorbed: its words, little-endian, go into the first lanes (R140). -/
def spongeAbsorb (rate : Nat) (a : List Word64) (block : List Byte) : List Word64 :=
  let ws : List Word64 := (pieces 8 (rate / 8) block).map fun x => BitVec.ofNat 64 (intLe x)
  keccakF ((List.range 25).map fun i => a.getD i 0 ^^^ ws.getD i 0)

/-- The first `rate` bytes of the state (R140). -/
def spongeOutput (rate : Nat) (a : List Word64) : List Byte :=
  (a.take (rate / 8)).flatMap fun l => leBytes 8 l.toNat

/-- `n` output blocks (R140). -/
def spongeSqueeze (rate : Nat) : Nat → List Word64 → List Byte
  | 0, _ => []
  | n + 1, a => spongeOutput rate a ++ spongeSqueeze rate n (keccakF a)

/-- `Sponge(R, ds, M, d)` (R140). -/
def sponge (rate : Nat) (ds : Byte) (m : List Byte) (d : Nat) : List Byte :=
  let p := spongePad rate ds m
  let a := (pieces rate (p.length / rate) p).foldl (spongeAbsorb rate) (List.replicate 25 0)
  (spongeSqueeze rate ((d + rate - 1) / rate) a).take d

/-- `SHA3_512(M)` (R141). -/
def sha3_512 (m : List Byte) : List Byte := sponge 72 0x06 m 64

/-- `SHAKE256(M, d)` (R142). -/
def shake256 (m : List Byte) (d : Nat) : List Byte := sponge 136 0x1F m d

end Sys2Proof.Machine
end

