-- ==== Sys2Proof/Syntax.lean ====
section
/-! DEFINITION. The instructions: one constructor per mnemonic of spec/opcode_table.json. The thirteen command words and
the illegal word (30_encoding.md rules R100 to R103), then every host access of the register block (rules R106, R107).
A mnemonic that the table gives in several rows (`RD.SEEDk`, `RD.DIG`, `RSVD`, ...) is one constructor whose operand
ranges over all of them. -/

namespace Sys2Proof

/-- An instruction: a command word written to `CMD`, or a host access. `d` is the 32-bit data value `D` that a write
carries beside its descriptor (R106). -/
inductive Instr where
  /-- `NOP`, word 0x00000000 (R287). -/
  | nop
  /-- `CHAIN`, word 0x00000001 (R180). -/
  | chain
  /-- `RNGSEED`, word 0x00000002 (R210). -/
  | rngseed
  /-- `GEN`, word 0x00000003 (R211). -/
  | gen
  /-- `LOAD`, word 0x00000004 (R235). -/
  | load
  /-- `CHAOS`, word 0x00000005 (R252). -/
  | chaos
  /-- `ENTROPY`, word 0x00000006 (R256). -/
  | entropy
  /-- `DIFFUSE`, word 0x00000007 (R260). -/
  | diffuse
  /-- `WALK`, word 0x00000008 (R263). -/
  | walk
  /-- `FOLD`, word 0x00000009 (R283). -/
  | fold
  /-- `HEX`, word 0x0000000A (R285). -/
  | hex
  /-- `LATZERO`, word 0x0000000B (R236). -/
  | latzero
  /-- `DIGEST`, word 0x0000000F (R288). -/
  | digest
  /-- `ILLEGAL_CMD`: every other 32-bit word, by its fields `RSVD` (31:8) and `OP` (7:0) (R102, R341). -/
  | illegalCmd (rsvd : BitVec 24) (op : BitVec 8)
  /-- `RD.ID` (R310). -/
  | rdId
  /-- `WR.ID` (R310). -/
  | wrId (d : Word)
  /-- `RD.CTRL` (R312). -/
  | rdCtrl
  /-- `WR.CTRL` (R312). -/
  | wrCtrl (d : Word)
  /-- `RD.STATUS` (R314). -/
  | rdStatus
  /-- `WR.STATUS` (R315). -/
  | wrStatus (d : Word)
  /-- `RD.CMD` (R316). -/
  | rdCmd
  /-- `WR.CMD`: command issue (R301). -/
  | wrCmd (d : Word)
  /-- `RD.IN_ADDR_LO` (R317). -/
  | rdInAddrLo
  /-- `WR.IN_ADDR_LO` (R317). -/
  | wrInAddrLo (d : Word)
  /-- `RD.IN_ADDR_HI` (R317). -/
  | rdInAddrHi
  /-- `WR.IN_ADDR_HI` (R317). -/
  | wrInAddrHi (d : Word)
  /-- `RD.IN_LEN_LO` (R318). -/
  | rdInLenLo
  /-- `WR.IN_LEN_LO` (R318). -/
  | wrInLenLo (d : Word)
  /-- `RD.IN_LEN_HI` (R318). -/
  | rdInLenHi
  /-- `WR.IN_LEN_HI` (R318). -/
  | wrInLenHi (d : Word)
  /-- `RD.PROGRESS` (R319). -/
  | rdProgress
  /-- `WR.PROGRESS` (R319). -/
  | wrProgress (d : Word)
  /-- `RD.LAT_IDX` (R320). -/
  | rdLatIdx
  /-- `WR.LAT_IDX` (R320). -/
  | wrLatIdx (d : Word)
  /-- `RD.LAT_DATA` (R321). -/
  | rdLatData
  /-- `WR.LAT_DATA` (R321). -/
  | wrLatData (d : Word)
  /-- `RD.DIGLEN` (R322). -/
  | rdDiglen
  /-- `WR.DIGLEN` (R322). -/
  | wrDiglen (d : Word)
  /-- `RD.SEEDk`, k = 0 .. 7 (R326). -/
  | rdSeed (k : BitVec 3)
  /-- `WR.SEEDk`, k = 0 .. 7 (R326). -/
  | wrSeed (k : BitVec 3) (d : Word)
  /-- `RD.ENTROPY_LO` (R327). -/
  | rdEntropyLo
  /-- `WR.ENTROPY_LO` (R327). -/
  | wrEntropyLo (d : Word)
  /-- `RD.ENTROPY_HI` (R327). -/
  | rdEntropyHi
  /-- `WR.ENTROPY_HI` (R327). -/
  | wrEntropyHi (d : Word)
  /-- `RD.DIG`, word w = 0 .. 95 of the DIG window (R328). -/
  | rdDig (w : BitVec 7)
  /-- `WR.DIG`, word w = 0 .. 95 of the DIG window (R328). -/
  | wrDig (w : BitVec 7) (d : Word)
  /-- `RD.HEX`, word w = 0 .. 191 of the HEX window (R329). -/
  | rdHex (w : BitVec 8)
  /-- `WR.HEX`, word w = 0 .. 191 of the HEX window (R329). -/
  | wrHex (w : BitVec 8) (d : Word)
  /-- `RSVD`: a read (`w = false`) or a write (`w = true`) of an aligned reserved offset (R323). -/
  | rsvd (w : Bool) (off : BitVec 12)
  /-- `ACCESS_ERROR`: an access that is not an aligned 32-bit access (R324); `sz` and `w` as in the descriptor. -/
  | accessError (sz : BitVec 2) (w : Bool) (off : BitVec 12)
  deriving DecidableEq, Repr

end Sys2Proof
end

