-- ==== Sys2Proof/WellFormed.lean ====
section
/-! DEFINITION. Which terms of `Instr` the encodings admit: the operand ranges of 30_encoding.md and 47_host_interface.md. -/

namespace Sys2Proof

/-- The opcodes of rule R101: 0x00 .. 0x0B and 0x0F. -/
def legalOpcode (op : BitVec 8) : Bool := op.toNat ≤ 0x0B || op.toNat == 0x0F

/-- The reserved offsets of rule R39. -/
def reservedOffset (off : BitVec 12) : Bool :=
  (0x058 ≤ off.toNat && off.toNat ≤ 0x0FF) || (0x280 ≤ off.toNat && off.toNat ≤ 0x3FF) || 0x700 ≤ off.toNat

/-- An offset is a multiple of 4 (R79). -/
def alignedOffset (off : BitVec 12) : Bool := off.toNat % 4 == 0

/-- The terms that some word or descriptor encodes: an illegal command word is not one of the thirteen legal words
(R102), a window word lies in its window (R328, R329), a reserved access is an aligned reserved offset (R323), and an
access error is not an aligned 32-bit access (R107). -/
def Instr.wellFormed : Instr → Bool
  | .illegalCmd hi op => hi != 0 || !legalOpcode op
  | .rdDig w => w.toNat < 96
  | .wrDig w _ => w.toNat < 96
  | .rdHex w => w.toNat < 192
  | .wrHex w _ => w.toNat < 192
  | .rsvd _ off => alignedOffset off && reservedOffset off
  | .accessError sz _ off => sz != 2 || !alignedOffset off
  | .nop | .chain | .rngseed | .gen | .load | .chaos | .entropy | .diffuse | .walk | .fold | .hex | .latzero | .digest
  | .rdId | .wrId _ | .rdCtrl | .wrCtrl _ | .rdStatus | .wrStatus _ | .rdCmd | .wrCmd _
  | .rdInAddrLo | .wrInAddrLo _ | .rdInAddrHi | .wrInAddrHi _ | .rdInLenLo | .wrInLenLo _ | .rdInLenHi | .wrInLenHi _
  | .rdProgress | .wrProgress _ | .rdLatIdx | .wrLatIdx _ | .rdLatData | .wrLatData _ | .rdDiglen | .wrDiglen _
  | .rdSeed _ | .wrSeed _ _ | .rdEntropyLo | .wrEntropyLo _ | .rdEntropyHi | .wrEntropyHi _ => true

end Sys2Proof
end

