-- ==== Sys2Proof/Decode.lean ====
section
/-! DEFINITION. The decoder of command words and host access descriptors (30_encoding.md rules R100 to R107), total on
every bit string and rejecting by name, and after it the encoder. A command is 32 bits (R105); a host access is its
15-bit descriptor in bits 14:0 of a 16-bit field, alone (16 bits, data 0) or with the data value `D` of rule R106 above
it (48 bits). -/

namespace Sys2Proof

/-- The decoder of command words (R101, R102): the thirteen legal words by name, every other word illegal. -/
def decodeCommand (w : Word) : Instr :=
  match w.toNat with
  | 0x00 => .nop
  | 0x01 => .chain
  | 0x02 => .rngseed
  | 0x03 => .gen
  | 0x04 => .load
  | 0x05 => .chaos
  | 0x06 => .entropy
  | 0x07 => .diffuse
  | 0x08 => .walk
  | 0x09 => .fold
  | 0x0A => .hex
  | 0x0B => .latzero
  | 0x0F => .digest
  | _ => .illegalCmd (w.extractLsb' 8 24) (w.extractLsb' 0 8)

/-- One of the two directions of a host access: bit `W` of the descriptor chooses (R106). -/
def byDirection (w : Bool) (read write : Instr) : Instr := if w then write else read

/-- The register access at an aligned offset: the register map of rule R22. -/
def decodeOffset (w : Bool) (off : BitVec 12) (d : Word) : Instr :=
  let n := off.toNat
  if n < 0x030 then
    match n / 4 with
    | 0 => byDirection w .rdId (.wrId d)
    | 1 => byDirection w .rdCtrl (.wrCtrl d)
    | 2 => byDirection w .rdStatus (.wrStatus d)
    | 3 => byDirection w .rdCmd (.wrCmd d)
    | 4 => byDirection w .rdInAddrLo (.wrInAddrLo d)
    | 5 => byDirection w .rdInAddrHi (.wrInAddrHi d)
    | 6 => byDirection w .rdInLenLo (.wrInLenLo d)
    | 7 => byDirection w .rdInLenHi (.wrInLenHi d)
    | 8 => byDirection w .rdProgress (.wrProgress d)
    | 9 => byDirection w .rdLatIdx (.wrLatIdx d)
    | 10 => byDirection w .rdLatData (.wrLatData d)
    | _ => byDirection w .rdDiglen (.wrDiglen d)
  else if n < 0x050 then byDirection w (.rdSeed (.ofNat 3 ((n - 0x030) / 4))) (.wrSeed (.ofNat 3 ((n - 0x030) / 4)) d)
  else if n < 0x054 then byDirection w .rdEntropyLo (.wrEntropyLo d)
  else if n < 0x058 then byDirection w .rdEntropyHi (.wrEntropyHi d)
  else if n < 0x100 then .rsvd w off
  else if n < 0x280 then byDirection w (.rdDig (.ofNat 7 ((n - 0x100) / 4))) (.wrDig (.ofNat 7 ((n - 0x100) / 4)) d)
  else if n < 0x400 then .rsvd w off
  else if n < 0x700 then byDirection w (.rdHex (.ofNat 8 ((n - 0x400) / 4))) (.wrHex (.ofNat 8 ((n - 0x400) / 4)) d)
  else .rsvd w off

/-- The decoder of host accesses (R107), total over all 2^15 descriptors. A read carries no data value: `d` is not
looked at (R106). -/
def decodeAccess (had : BitVec 15) (d : Word) : Instr :=
  let sz : BitVec 2 := had.extractLsb' 13 2
  let w : Bool := had.getLsbD 12
  let off : BitVec 12 := had.extractLsb' 0 12
  if sz = 2#2 ∧ off.toNat % 4 = 0 then decodeOffset w off d else .accessError sz w off

/-- Why a bit string is neither a command word nor a host access. -/
inductive DecodeError where
  /-- The length is not that of a command word (32), of a descriptor (16), or of a descriptor with its data (48). -/
  | badLength (nbits : Nat)
  /-- A bit above the stated length is set. -/
  | excessBits
  /-- Bit 15 of a descriptor's 16-bit field is set, and a descriptor has 15 bits (R106). -/
  | descriptorBit15
  deriving DecidableEq, Repr

/-- A host access given as a number: the descriptor in bits 14:0, bit 15 zero, the data value from bit 16 on. -/
def decodeAccessBits (bits : Nat) : Except DecodeError Instr :=
  if bits / 2 ^ 15 % 2 = 1 then .error .descriptorBit15
  else .ok (decodeAccess (.ofNat 15 bits) (.ofNat 32 (bits / 2 ^ 16)))

/-- The decoder of bit strings of `nbits` bits, bit 0 the least significant bit of the first word. -/
def decodeBits (nbits bits : Nat) : Except DecodeError Instr :=
  if nbits = 32 then
    if bits < 2 ^ 32 then .ok (decodeCommand (.ofNat 32 bits)) else .error .excessBits
  else if nbits = 16 then
    if bits < 2 ^ 16 then decodeAccessBits bits else .error .excessBits
  else if nbits = 48 then
    if bits < 2 ^ 48 then decodeAccessBits bits else .error .excessBits
  else .error (.badLength nbits)

/-- The instruction that the decoder reads from a row of spec/opcode_table.json whose bits are `w`. -/
def decodeTableWord (nbits w : Nat) : Option Instr :=
  match decodeBits nbits w with
  | .ok i => some i
  | .error _ => none

/-! The encoder. -/

/-- A bit string and its length. -/
structure Encoded where
  nbits : Nat
  bits : Nat
  deriving DecidableEq, Repr

/-- The descriptor `HAD` of its three fields: SZ in bits 14:13, W in bit 12, OFF in bits 11:0 (R106). -/
def descriptor (sz : BitVec 2) (w : Bool) (off : BitVec 12) : BitVec 15 := sz ++ BitVec.ofBool w ++ off

/-- A command word as a bit string (R100). -/
def encodeCommand (w : Word) : Encoded := ⟨32, w.toNat⟩

/-- A host access as a bit string: the descriptor, then the data value from bit 16 on (R106). -/
def encodeAccess (had : BitVec 15) (d : Word) : Encoded := ⟨48, had.toNat + d.toNat * 2 ^ 16⟩

/-- A 32-bit read of the register at `off` (R106: SZ = 2, W = 0). -/
def encodeRead (off : BitVec 12) : Encoded := encodeAccess (descriptor 2 false off) 0

/-- A 32-bit write of the register at `off` (R106: SZ = 2, W = 1). -/
def encodeWrite (off : BitVec 12) (d : Word) : Encoded := encodeAccess (descriptor 2 true off) d

/-- The offset of `SEEDk` (R326). -/
def seedOffset (k : BitVec 3) : BitVec 12 := .ofNat 12 (0x030 + 4 * k.toNat)

/-- The offset of word `w` of the DIG window (R328). -/
def digOffset (w : BitVec 7) : BitVec 12 := .ofNat 12 (0x100 + 4 * w.toNat)

/-- The offset of word `w` of the HEX window (R329). -/
def hexOffset (w : BitVec 8) : BitVec 12 := .ofNat 12 (0x400 + 4 * w.toNat)

/-- The words of an instruction (R101, R106, and the register map of R22). -/
def encode : Instr → Encoded
  | .nop => encodeCommand 0x00000000
  | .chain => encodeCommand 0x00000001
  | .rngseed => encodeCommand 0x00000002
  | .gen => encodeCommand 0x00000003
  | .load => encodeCommand 0x00000004
  | .chaos => encodeCommand 0x00000005
  | .entropy => encodeCommand 0x00000006
  | .diffuse => encodeCommand 0x00000007
  | .walk => encodeCommand 0x00000008
  | .fold => encodeCommand 0x00000009
  | .hex => encodeCommand 0x0000000A
  | .latzero => encodeCommand 0x0000000B
  | .digest => encodeCommand 0x0000000F
  | .illegalCmd hi op => encodeCommand (hi ++ op)
  | .rdId => encodeRead 0x000
  | .wrId d => encodeWrite 0x000 d
  | .rdCtrl => encodeRead 0x004
  | .wrCtrl d => encodeWrite 0x004 d
  | .rdStatus => encodeRead 0x008
  | .wrStatus d => encodeWrite 0x008 d
  | .rdCmd => encodeRead 0x00C
  | .wrCmd d => encodeWrite 0x00C d
  | .rdInAddrLo => encodeRead 0x010
  | .wrInAddrLo d => encodeWrite 0x010 d
  | .rdInAddrHi => encodeRead 0x014
  | .wrInAddrHi d => encodeWrite 0x014 d
  | .rdInLenLo => encodeRead 0x018
  | .wrInLenLo d => encodeWrite 0x018 d
  | .rdInLenHi => encodeRead 0x01C
  | .wrInLenHi d => encodeWrite 0x01C d
  | .rdProgress => encodeRead 0x020
  | .wrProgress d => encodeWrite 0x020 d
  | .rdLatIdx => encodeRead 0x024
  | .wrLatIdx d => encodeWrite 0x024 d
  | .rdLatData => encodeRead 0x028
  | .wrLatData d => encodeWrite 0x028 d
  | .rdDiglen => encodeRead 0x02C
  | .wrDiglen d => encodeWrite 0x02C d
  | .rdSeed k => encodeRead (seedOffset k)
  | .wrSeed k d => encodeWrite (seedOffset k) d
  | .rdEntropyLo => encodeRead 0x050
  | .wrEntropyLo d => encodeWrite 0x050 d
  | .rdEntropyHi => encodeRead 0x054
  | .wrEntropyHi d => encodeWrite 0x054 d
  | .rdDig w => encodeRead (digOffset w)
  | .wrDig w d => encodeWrite (digOffset w) d
  | .rdHex w => encodeRead (hexOffset w)
  | .wrHex w d => encodeWrite (hexOffset w) d
  | .rsvd w off => encodeAccess (descriptor 2 w off) 0
  | .accessError sz w off => encodeAccess (descriptor sz w off) 0

end Sys2Proof
end

