-- ==== Sys2Proof/Config.lean ====
section
/-! DEFINITION. What one build of the engine or its platform fixes (00_scope.md rule R7) and the values that the spec
leaves open (93_implementation_defined.md part 1). Every constant marked opaque has no body: no proof can learn its
value, so a claim that holds of this model holds for every choice of it. -/

namespace Sys2Proof.Config

/-- `ADDR_W - 1` (R7). DESIGN CHOICE: ADDR_W is a parameter in 1 .. 64, so one less than it is any number below 64. -/
opaque addrBits : Fin 64

/-- `ADDR_W`, the width of the system-memory addresses the engine issues, 1 .. 64 (R7, R29). -/
def addrW : Nat := addrBits.val + 1

/-- The number of the 4096-byte page that holds the register block (R7, R22): `BASE` is 4096-byte aligned. -/
opaque basePage : Nat

/-- `BASE`, the system address of the register block (R7). -/
def base : Nat := basePage * 4096

/-- The system address of the register at `off`: the offset is added to `BASE`, so the bits above bit 11 select the
block (R22, R71). -/
def registerAddress (off : BitVec 12) : Nat := base + off.toNat

/-- `SALT_SCRYPT`, an OPEN parameter fixed when the engine is built (R7, R167, D11). -/
opaque saltScrypt : List Byte

/-- `SALT_PBKDF2`, an OPEN parameter fixed when the engine is built (R7, R168, D11). -/
opaque saltPbkdf2 : List Byte

/-- The byte that the n-th read of an undefined lattice cell returns (R33, U7): any value on each read. -/
opaque freeByte : Nat → Byte

/-- `PROGRESS.CNT` as the n-th read of `PROGRESS` while busy finds it (R31, U6): any value on each read. -/
opaque freeCount : Nat → BitVec 16

/-- Which of the values that an input byte held during a command the n-th read of an input byte returns (R85, U12). -/
opaque inputChoice : Nat → Nat

/-- The byte that `FOLD` would hash for an undefined cell i. No reachable state needs it, since `FOLD` asks for
`LATV = 1` and then no cell is undefined (R40). -/
opaque undefinedCell : Nat → Byte

end Sys2Proof.Config
end

