-- ==== Sys2Proof/Machine/State.lean ====
section
/-! DEFINITION. The machine's state as plain data (10_state.md, 70_reset_and_hazards.md rule R380), the outcomes' reasons,
and the state after reset. Every field's docstring names its rule; a field marked MODEL is the model's own. -/

namespace Sys2Proof.Machine

/-- A byte memory: the listed addresses, strictly rising, each with its byte. An address that is not listed holds no
value: in the lattice RAM that is the undefined cell of R40, in system memory the platform answers its read with a bus
error (assumption log entry 1). -/
abbrev Memory := List Host.Cell

/-- The thirteen operations a command word can name (R101). -/
inductive Op where
  | nop | chain | rngseed | gen | load | chaos | entropy | diffuse | walk | fold | hex | latzero | digest
  deriving DecidableEq, Repr

/-- The outcome codes of `STATUS.ERR` (R340); codes 5 to 15 are never written, so they are not here. -/
inductive ErrCode where
  | ok | illegal | seq | range | bus
  deriving DecidableEq, Repr

/-- The generator state `MT` (R42, R200): 624 words of 32 bits and the index `mti`, 0 .. 624. -/
structure Generator where
  words : List Word
  index : Nat
  deriving DecidableEq, Repr

/-- The internal state of 10_state.md section 3 with the valid flags that describe it (R27). Commands are functions on
this part of the state (R14). -/
structure Internal where
  /-- `SEED`, 256 bits (R41). -/
  seed : BitVec 256
  /-- `MT` (R42). -/
  mt : Generator
  /-- `LAT[0 .. 2^24-1]` (R40); a cell that is not listed is undefined. -/
  lat : Memory
  /-- `ENT`, the binary64 encoding of the last entropy (R43). -/
  ent : Word64
  /-- `DIG`, 384 bytes (R44). -/
  dig : List Byte
  /-- `DIGLEN`, 16 bits (R34, R44). -/
  digLen : BitVec 16
  /-- `HEXB`, 768 bytes (R45). -/
  hexb : List Byte
  /-- `STATUS.SEEDV` (R25, R27). -/
  seedV : Bool
  /-- `STATUS.PRNGV` (R25, R27). -/
  prngV : Bool
  /-- `STATUS.LATV` (R25, R27). -/
  latV : Bool
  /-- `STATUS.DIGV` (R25, R27). -/
  digV : Bool
  /-- `STATUS.HEXV` (R25, R27). -/
  hexV : Bool
  deriving DecidableEq, Repr

/-- The register values a command samples when it is accepted (R104, R301). -/
structure Operands where
  /-- `IN_ADDR`, truncated to `ADDR_W` bits. -/
  inAddr : BitVec 64
  /-- `IN_LEN`. -/
  inLen : BitVec 64
  /-- `CTRL.SPMODE`: false is ABSORB, true is CHAIN (R281). -/
  spMode : Bool
  /-- `CTRL.OUTLEN`: false is CAT384, true is TRUNC64 (R282). -/
  outLen : Bool
  /-- `SEED`. -/
  seed : BitVec 256
  deriving DecidableEq, Repr

/-- MODEL. The stage of a running `DIGEST`: the sub-command in progress and the state that the stages before it made.
That state is working state (R47): no register shows it before completion (R88, R303). -/
structure Stage where
  /-- The sub-command in progress: `CUR.sub`, `PROGRESS.SUB` (R21, R31). -/
  sub : Op
  /-- The internal state as the completed sub-commands left it. -/
  work : Internal
  deriving DecidableEq, Repr

/-- The command in progress: `CUR` when it is not `idle` (R21), with the values sampled at acceptance. -/
structure Running where
  /-- `CUR.op`. -/
  op : Op
  /-- The sampled operands (R301). -/
  args : Operands
  /-- The stage of a `DIGEST`; none before its first sub-command starts, and for every other command (`CUR.sub = 0`). -/
  stage : Option Stage
  /-- MODEL. The earlier values of the bytes of system memory that other agents changed since acceptance; none is a
  byte the platform answered with a bus error (R85, U12). -/
  touched : List (Nat × Option Byte)
  deriving DecidableEq, Repr

/-- MODEL. What the engine answered to the last host access (R13, R79). -/
inductive Response where
  /-- No access since reset. -/
  | none
  /-- A read returned this data. -/
  | data (d : Word)
  /-- A write was taken (with or without an effect). -/
  | ack
  /-- The bus error response of an access error (R79, R324): a read returns no data. -/
  | busError
  deriving DecidableEq, Repr

/-- MODEL. One event at the engine's boundary; the state's list of them says which agent moves next (R300). -/
inductive Event where
  /-- A host access: its descriptor, and the data value of a write (R106). -/
  | host (had : BitVec 15) (d : Word)
  /-- The engine's step `complete`, enabled while a command runs (R300, R303). -/
  | engine
  /-- The platform asserts the reset input (R380, R381), or takes the engine's power away (R358). -/
  | resetOn
  /-- The platform releases the reset input (R382). -/
  | resetOff
  /-- Another agent writes a byte of system memory, or (none) the platform starts to answer reads of it with a bus
  error (R73, R84, R85). -/
  | memory (a : BitVec 64) (v : Option Byte)
  deriving DecidableEq, Repr

/-- The state of the machine: the host registers of 10_state.md section 2, the internal state of section 3, the system
memory of R70, and what the model adds to say what the outside does. -/
structure State where
  /-- `CTRL.IE` (R24). -/
  ie : Bool
  /-- `CTRL.SPMODE` (R24). -/
  spMode : Bool
  /-- `CTRL.OUTLEN` (R24). -/
  outLen : Bool
  /-- `CUR`: none is `idle` (R21). `STATUS.BUSY` and `PROGRESS` show it. -/
  cur : Option Running
  /-- `STATUS.DONE` (R25). -/
  done : Bool
  /-- `STATUS.OVR` (R25). -/
  ovr : Bool
  /-- `STATUS.ERR` (R26). -/
  err : ErrCode
  /-- `IN_ADDR_LO` (R29). -/
  inAddrLo : Word
  /-- `IN_ADDR_HI` (R29). -/
  inAddrHi : Word
  /-- `IN_LEN_LO` (R30). -/
  inLenLo : Word
  /-- `IN_LEN_HI` (R30). -/
  inLenHi : Word
  /-- `LAT_IDX.IDX`, 24 bits (R32). -/
  latIdx : BitVec 24
  /-- The internal state and its valid flags (R27, R40 to R45). -/
  int : Internal
  /-- System memory as the platform shows it to the engine (R70, R73); a byte that is not listed answers with a bus
  error. -/
  mem : Memory
  /-- MODEL. The reset input is asserted (R382). -/
  inReset : Bool
  /-- MODEL. The answer to the last host access. -/
  resp : Response
  /-- MODEL. How many free values were used so far: the next one is the opaque constant of Config at this number. -/
  fresh : Nat
  /-- MODEL. The events to come, first one first: the host's accesses, the engine's turns, the platform's doings. -/
  inputs : List Event
  deriving DecidableEq, Repr

/-- Why the machine stops. -/
inductive Fault where
  /-- Raised by the step on a host access while the reset input is asserted: the engine does not answer it and the
  platform decides what the host sees (R382, U21 'stuck'). Safe: the model stops where a platform may go on. -/
  | accessDuringReset
  deriving DecidableEq, Repr

/-- Why an instruction has no meaning. -/
inductive Refusal where
  /-- Raised by exec's arm of an instruction that is not modelled yet. Safe: nothing can be proved of its effect. -/
  | notModelled (mnemonic : String)
  deriving DecidableEq, Repr

/-- MODEL. What the next step is: an instruction to run on a state, a change of the state without one, or a stop. -/
inductive Turn where
  /-- An instruction runs. -/
  | run (i : Instr) (s : State)
  /-- No instruction runs; the state is what the event left. -/
  | pass (s : State)
  /-- The machine stops. -/
  | stop (f : Fault)
  deriving DecidableEq, Repr

/-- The internal state after reset (R380). `MT` is unspecified there; it is zero here, and no command reads it while
`PRNGV = 0` (R342; assumption log entry 8). -/
def Internal.reset : Internal where
  seed := 0
  mt := ⟨List.replicate 624 0, 0⟩
  lat := []
  ent := 0
  dig := List.replicate 384 0
  digLen := 0
  hexb := List.replicate 768 0
  seedV := false
  prngV := false
  latV := false
  digV := false
  hexV := false

/-- The state after reset (R380): every field at the value the spec states. The fields marked MODEL, the system memory
and `MT` are named in the assumption log (entries 1, 2, 5, 6, 8, 14). -/
def State.reset : State where
  ie := false
  spMode := false
  outLen := false
  cur := none
  done := false
  ovr := false
  err := .ok
  inAddrLo := 0
  inAddrHi := 0
  inLenLo := 0
  inLenHi := 0
  latIdx := 0
  int := Internal.reset
  mem := []
  inReset := false
  resp := .none
  fresh := 0
  inputs := []

end Sys2Proof.Machine
end

