-- ==== Sys2Proof/Machine/Ops.lean ====
section
/-! DEFINITION. The named operations over memory and registers: reading and writing one byte of a memory, answering a host
access, and the command lifecycle (47_host_interface.md rules R301 to R305), in which rejection and completion are the
engine's error report (60_exceptions.md rule R347: error reporting replaces trap entry) and clearing `DONE` is its
acknowledgement (R348). -/

namespace Sys2Proof.Machine

/-! Memory. -/

/-- The byte at address `a`, or none where the memory holds none. -/
def Memory.read : Memory → Nat → Option Byte
  | [], _ => none
  | c :: rest, a => if c.1 = a then some c.2 else Memory.read rest a

/-- Put byte `b` at address `a`, keeping the addresses strictly rising. -/
def Memory.write : Memory → Nat → Byte → Memory
  | [], a, b => [(a, b)]
  | c :: rest, a, b =>
    if a < c.1 then (a, b) :: c :: rest
    else if a = c.1 then (a, b) :: rest
    else c :: Memory.write rest a b

/-- Take the byte at address `a` away. -/
def Memory.erase (m : Memory) (a : Nat) : Memory := m.filter (fun c => c.1 != a)

/-- Put a byte or take it away. -/
def Memory.put (m : Memory) (a : Nat) : Option Byte → Memory
  | some b => m.write a b
  | none => m.erase a

/-- Change every listed byte by a function of its address and value. -/
def Memory.mapCells (f : Nat → Byte → Byte) (m : Memory) : Memory := m.map fun c => (c.1, f c.1 c.2)

/-- The memory that lists the `n` addresses from `i` on with the bytes `f` gives them. -/
def Memory.tabulate (f : Nat → Byte) : Nat → Nat → Memory
  | 0, _ => []
  | n + 1, i => (i, f i) :: Memory.tabulate f n (i + 1)

/-- The canonical form: the listed addresses rise strictly. (What an unlisted address reads as is no value, so no entry
can equal it.) -/
def Memory.wf : Memory → Bool
  | [] => true
  | [_] => true
  | c :: c' :: rest => decide (c.1 < c'.1) && Memory.wf (c' :: rest)

/-- `2^24`, the number of lattice cells (R6, R40). -/
@[irreducible] def latSize : Nat := 16777216

/-! Opcodes. -/

/-- The opcode of rule R101. -/
def Op.code : Op → Byte
  | .nop => 0x00
  | .chain => 0x01
  | .rngseed => 0x02
  | .gen => 0x03
  | .load => 0x04
  | .chaos => 0x05
  | .entropy => 0x06
  | .diffuse => 0x07
  | .walk => 0x08
  | .fold => 0x09
  | .hex => 0x0A
  | .latzero => 0x0B
  | .digest => 0x0F

/-- The command instruction of an operation. -/
def Op.instr : Op → Instr
  | .nop => .nop
  | .chain => .chain
  | .rngseed => .rngseed
  | .gen => .gen
  | .load => .load
  | .chaos => .chaos
  | .entropy => .entropy
  | .diffuse => .diffuse
  | .walk => .walk
  | .fold => .fold
  | .hex => .hex
  | .latzero => .latzero
  | .digest => .digest

/-- The operation of a command instruction; none for an illegal command word and for a host access. -/
def commandOp : Instr → Option Op
  | .nop => some .nop
  | .chain => some .chain
  | .rngseed => some .rngseed
  | .gen => some .gen
  | .load => some .load
  | .chaos => some .chaos
  | .entropy => some .entropy
  | .diffuse => some .diffuse
  | .walk => some .walk
  | .fold => some .fold
  | .hex => some .hex
  | .latzero => some .latzero
  | .digest => some .digest
  | .illegalCmd _ _ => none
  | .rdId | .wrId _ | .rdCtrl | .wrCtrl _ | .rdStatus | .wrStatus _ | .rdCmd | .wrCmd _ => none
  | .rdInAddrLo | .wrInAddrLo _ | .rdInAddrHi | .wrInAddrHi _ | .rdInLenLo | .wrInLenLo _ => none
  | .rdInLenHi | .wrInLenHi _ | .rdProgress | .wrProgress _ | .rdLatIdx | .wrLatIdx _ => none
  | .rdLatData | .wrLatData _ | .rdDiglen | .wrDiglen _ | .rdSeed _ | .wrSeed _ _ => none
  | .rdEntropyLo | .wrEntropyLo _ | .rdEntropyHi | .wrEntropyHi _ => none
  | .rdDig _ | .wrDig _ _ | .rdHex _ | .wrHex _ _ | .rsvd _ _ | .accessError _ _ _ => none

/-! Answering a host access. -/

/-- `STATUS.BUSY`: 1 while an accepted command runs (R25). -/
def State.busy (s : State) : Bool := s.cur.isSome

/-- A read returns `d`. -/
def State.answer (s : State) (d : Word) : State := { s with resp := .data d }

/-- A write is taken. -/
def State.ack (s : State) : State := { s with resp := .ack }

/-- The bus error response of an access error (R79, R324). -/
def State.answerBusError (s : State) : State := { s with resp := .busError }

/-- A write ignored because a command runs: it sets `OVR` and nothing else (R304). -/
def State.overrun (s : State) : State := { s with ovr := true, resp := .ack }

/-- A write of a register that a running command protects (R304): ignored with `OVR` while busy, else it has its
effect. -/
def State.writeIdle (s : State) (effect : State → State) : State :=
  if s.busy then s.overrun else (effect s).ack

/-- A read that returns 0 while a command runs (R305). -/
def State.readIdle (s : State) (d : Word) : State := s.answer (if s.busy then 0 else d)

/-- The number of the next free value is used up. -/
def State.tick (s : State) (n : Nat) : State := { s with fresh := s.fresh + n }

/-! The command lifecycle. -/

/-- Rejection (R302): `DONE` and `ERR` are all that it writes. -/
def State.reject (s : State) (e : ErrCode) : State := { s with done := true, err := e }

/-- Acceptance (R301): `CUR` becomes `(op, 0)` with the sampled operands, `BUSY` rises and `DONE` falls. `ERR` keeps the
previous command's code. -/
def State.accept (s : State) (op : Op) (args : Operands) : State :=
  { s with cur := some ⟨op, args, none, []⟩, done := false }

/-- Completion (R303): the command's effects on the internal state, then `CUR` idle, `DONE` and `ERR`, in one step. -/
def State.complete (s : State) (int : Internal) (e : ErrCode) : State :=
  { s with int := int, cur := none, done := true, err := e }

/-- The host acknowledges reports by writing 1 to `DONE` or `OVR` (R315, R348). -/
def State.acknowledge (s : State) (d : Word) : State :=
  { s with done := s.done && !d.getLsbD 1, ovr := s.ovr && !d.getLsbD 2 }

/-- A running `DIGEST` goes on to another stage; no register but `PROGRESS` shows it (R88, R303). -/
def State.setStage (s : State) (r : Running) (stage : Stage) : State :=
  { s with cur := some { r with stage := some stage } }

/-! What happens outside the engine. -/

/-- A running command remembers the value that a byte of system memory had before another agent changed it (R85). -/
def Running.touch (r : Running) (a : Nat) (old : Option Byte) : Running := { r with touched := (a, old) :: r.touched }

/-- Another agent writes a byte of system memory, or the platform starts to answer its reads with a bus error (R85). -/
def State.platformWrite (s : State) (a : BitVec 64) (v : Option Byte) : State :=
  { s with
    mem := s.mem.put a.toNat v
    cur := s.cur.map fun r => r.touch a.toNat (s.mem.read a.toNat) }

/-- The reset input is asserted (R380, R381): every piece of the engine's state takes its reset value and a running
command is abandoned. System memory, the events to come and the number of the next free value are not the engine's. -/
def State.assertReset (s : State) : State :=
  { State.reset with mem := s.mem, inputs := s.inputs, fresh := s.fresh, inReset := true }

/-- The reset input is released (R382). -/
def State.releaseReset (s : State) : State := { s with inReset := false }

/-! What the next step is. -/

/-- The engine's turn: a running command goes on; an idle engine does nothing (R300). -/
def State.engineTurn (s : State) : Turn :=
  match s.cur with
  | none => .pass s
  | some r => .run r.op.instr s

/-- One event. A host access is decoded and run; while the reset input is asserted the engine answers no access and takes
no turn (R382). -/
def State.eventTurn (s : State) : Event → Turn
  | .host had d => if s.inReset then .stop .accessDuringReset else .run (decodeAccess had d) s
  | .engine => if s.inReset then .pass s else s.engineTurn
  | .resetOn => .pass s.assertReset
  | .resetOff => .pass s.releaseReset
  | .memory a v => .pass (s.platformWrite a v)

/-- What the next step is: the first pending event happens. When none is pending, a running command goes on to its
completion (weak fairness of `complete`, R300, R396), and an idle engine waits (R380). -/
def State.turn (s : State) : Turn :=
  match s.inputs with
  | [] => if s.inReset then .pass s else s.engineTurn
  | e :: rest => { s with inputs := rest }.eventTurn e

/-- The host access that carries the bits of an instruction: a 32-bit command word is written to `CMD` (HAD 0x500C,
R301); else the bits are the access's own descriptor, with the data value from bit 16 on (R106). -/
def accessOfBits (nbits w : Nat) : Event :=
  if nbits = 32 then .host 0x500C (.ofNat 32 w) else .host (.ofNat 15 w) (.ofNat 32 (w / 2 ^ 16))

end Sys2Proof.Machine
end

