-- ==== Sys2Proof/Machine/Operands.lean ====
section
/-! DEFINITION. Every operand a command or a host access has: the registers sampled at acceptance (30_encoding.md rule
R104), the input bytes (20_memory.md rules R73, R85), the words of wide registers and of the windows (10_state.md rules
R35 to R38), and the write masks of registers (rule R29). -/

namespace Sys2Proof.Machine

/-! The registers. -/

/-- `IN_ADDR = IN_ADDR_HI * 2^32 + IN_ADDR_LO`, truncated to `ADDR_W` bits (R29, R104). -/
def State.inAddr (s : State) : BitVec 64 :=
  .ofNat 64 ((s.inAddrHi.toNat * 2 ^ 32 + s.inAddrLo.toNat) % 2 ^ Config.addrW)

/-- `IN_LEN = IN_LEN_HI * 2^32 + IN_LEN_LO` (R30, R104). -/
def State.inLen (s : State) : BitVec 64 := .ofNat 64 (s.inLenHi.toNat * 2 ^ 32 + s.inLenLo.toNat)

/-- The values a command samples at acceptance (R301). -/
def State.sample (s : State) : Operands where
  inAddr := s.inAddr
  inLen := s.inLen
  spMode := s.spMode
  outLen := s.outLen
  seed := s.int.seed

/-- `lowmask(n) = 2^min(n, 32) - 1` (R317). -/
def lowmask (n : Nat) : Word := .ofNat 32 (2 ^ min n 32 - 1)

/-- `SEEDk = SEED[32k+31 : 32k]` (R35). -/
def seedWord (seed : BitVec 256) (k : BitVec 3) : Word := seed.extractLsb' (32 * k.toNat) 32

/-- `SEED` with `SEED[32k+31 : 32k]` replaced (R35, R326). -/
def setSeedWord (seed : BitVec 256) (k : BitVec 3) (d : Word) : BitVec 256 :=
  (seed &&& ~~~(BitVec.allOnes 32 |>.setWidth 256 |>.shiftLeft (32 * k.toNat)))
    ||| (d.setWidth 256).shiftLeft (32 * k.toNat)

/-- Word `w` of a window on a byte buffer: byte j of the buffer is in byte lane j mod 4 (R37, R38, R77). -/
def windowWord (buffer : List Byte) (w : Nat) : Word :=
  (buffer.getD (4 * w) 0).setWidth 32
    ||| ((buffer.getD (4 * w + 1) 0).setWidth 32 <<< 8)
    ||| ((buffer.getD (4 * w + 2) 0).setWidth 32 <<< 16)
    ||| ((buffer.getD (4 * w + 3) 0).setWidth 32 <<< 24)

/-! The input. -/

/-- The values that a read of byte `a` may return: what memory holds now, and what it held earlier in the command where
another agent changed it (R85). -/
def inputValues (mem : Memory) (touched : List (Nat × Option Byte)) (a : Nat) : List (Option Byte) :=
  mem.read a :: (touched.filter fun c => c.1 == a).map (·.2)

/-- `MemRead(a, 1)` of an input byte (R73): the byte, or none for `BUSERR`. A byte that no agent changed since
acceptance has one value; of a changed byte any of its values is read, the k-th free choice deciding (R85). -/
def readInputByte (mem : Memory) (touched : List (Nat × Option Byte)) (a k : Nat) : Option Byte :=
  match inputValues mem touched a with
  | [v] => v
  | vs => vs.getD (Config.inputChoice k % vs.length) (mem.read a)

/-- `IN[0 .. n)` from address `a` on, each byte read once; none when a read returns `BUSERR` (R73). -/
def readInput (mem : Memory) (touched : List (Nat × Option Byte)) : Nat → Nat → Nat → Option (List Byte)
  | 0, _, _ => some []
  | n + 1, a, k =>
    match readInputByte mem touched a k with
    | none => none
    | some b => (readInput mem touched n (a + 1) (k + 1)).map (b :: ·)

/-- The first `n` bytes of the input of a running command. -/
def State.input (s : State) (r : Running) (n : Nat) : Option (List Byte) :=
  readInput s.mem r.touched n r.args.inAddr.toNat s.fresh

/-- How many input bytes an operation reads (R75): the whole input, for `LOAD` at most 2^24 bytes, else none. -/
def inputCount (op : Op) (args : Operands) : Nat :=
  match op with
  | .chain => args.inLen.toNat
  | .entropy => args.inLen.toNat
  | .load => min args.inLen.toNat latSize
  | .nop | .rngseed | .gen | .chaos | .diffuse | .walk | .fold | .hex | .latzero | .digest => 0

/-- The input region does not fit the address space (R74); the sum is exact. -/
def regionWraps (args : Operands) : Bool :=
  decide (0 < args.inLen.toNat) && decide (2 ^ Config.addrW < args.inAddr.toNat + args.inLen.toNat)

/-- The input is too long to hash (R183). -/
def tooLong (args : Operands) : Bool := decide (2 ^ 61 ≤ args.inLen.toNat)

/-- The range check of an operation fails (R343). -/
def rangeFails (op : Op) (args : Operands) : Bool :=
  match op with
  | .chain => regionWraps args || tooLong args
  | .digest => regionWraps args || tooLong args
  | .load => regionWraps args
  | .entropy => regionWraps args
  | .nop | .rngseed | .gen | .chaos | .diffuse | .walk | .fold | .hex | .latzero => false

end Sys2Proof.Machine
end

