-- ==== Sys2Proof/Machine/Chain.lean ====
section
/-! DEFINITION. The primitive chain and the effect of `CHAIN` (42_chain.md rules R180 to R184). -/

namespace Sys2Proof.Machine

/-- Step 1: `n` pairs of SHA-256 and SHA-512, each feeding the next (R180). -/
def hashPairs : Nat → List Byte → List Byte
  | 0, x => x
  | n + 1, x => hashPairs n (sha512 (sha256 x))

/-- Steps 1 to 7 of the chain for given salts: the 32-byte digest `d` (R180). -/
def chainDigest (saltScrypt saltPbkdf2 input : List Byte) : List Byte :=
  let x := hashPairs 16 input
  let x := sha3_512 x
  let x := shake256 x 64
  let x := kdfMem saltScrypt x
  let x := kdfPw saltPbkdf2 x
  let x := sha512 x
  sha256 x

/-- The seed of an input under the build's salts: `int_be(d)` (R181, R184). -/
@[irreducible] def chainSeed (input : List Byte) : BitVec 256 :=
  .ofNat 256 (intBe (chainDigest Config.saltScrypt Config.saltPbkdf2 input))

/-- The effect of `CHAIN` (R180): the seed, and the lattice lost to the scratch array (R182). On a bus error nothing
changes (R344). -/
def chainEffect (input : Option (List Byte)) (w : Internal) : Internal × ErrCode :=
  match input with
  | none => (w, .bus)
  | some x => ({ w with seed := chainSeed x, seedV := true, lat := [], latV := false }, .ok)

end Sys2Proof.Machine
end

