-- ==== Sys2Proof/Machine/Flags.lean ====
section
/-! DEFINITION. The status flags and everything computed from them: the words of `CTRL`, `STATUS` and `PROGRESS`
(47_host_interface.md rules R312, R314, R319), the interrupt output (60_exceptions.md rule R350), and the valid flags a
command needs (rule R342). -/

namespace Sys2Proof.Machine

/-- A flag as bit `n` of a word. -/
def flagBit (b : Bool) (n : Nat) : Word := if b then BitVec.twoPow 32 n else 0

/-- The code of an outcome (R340). -/
def ErrCode.code : ErrCode → Word
  | .ok => 0
  | .illegal => 1
  | .seq => 2
  | .range => 3
  | .bus => 4

/-- `ID` (R23): PART 0x3072, SRCED 0x07, REV 0x01. -/
def idWord : Word := 0x30720701

/-- `CTRL` as it reads (R312). -/
def State.ctrlWord (s : State) : Word := flagBit s.outLen 2 ||| flagBit s.spMode 1 ||| flagBit s.ie 0

/-- `STATUS` as it reads (R314). -/
def State.statusWord (s : State) : Word :=
  (s.err.code <<< 12) ||| flagBit s.int.hexV 8 ||| flagBit s.int.digV 7 ||| flagBit s.int.latV 6
    ||| flagBit s.int.prngV 5 ||| flagBit s.int.seedV 4 ||| flagBit s.ovr 2 ||| flagBit s.done 1 ||| flagBit s.busy 0

/-- `CUR.sub` as an opcode: the sub-command of a `DIGEST` in progress, else 0 (R21, R31). -/
def Running.subCode (r : Running) : Byte :=
  match r.stage with
  | none => 0
  | some st => st.sub.code

/-- `PROGRESS` as it reads while a command runs, with `count` in its field `CNT` (R319). -/
def Running.progressWord (r : Running) (count : BitVec 16) : Word :=
  (count.setWidth 32 <<< 16) ||| (r.subCode.setWidth 32 <<< 8) ||| r.op.code.setWidth 32

/-- The interrupt output: `IRQ = CTRL.IE & STATUS.DONE` at every instant (R46, R350). -/
def State.irq (s : State) : Bool := s.ie && s.done

/-- The valid flags that an operation needs are all 1 (R342). -/
def flagsHold (op : Op) (int : Internal) : Bool :=
  match op with
  | .rngseed => int.seedV
  | .gen => int.prngV
  | .load => int.latV
  | .chaos => int.latV
  | .entropy => int.latV
  | .diffuse => int.latV
  | .walk => int.latV && int.prngV
  | .fold => int.latV
  | .hex => int.digV
  | .nop | .chain | .latzero | .digest => true

/-- The issue of a legal command (R301): the flag check, the range check, then acceptance; while another command runs
the write of `CMD` is ignored with `OVR` (R304). -/
def State.issue (s : State) (op : Op) : State :=
  if s.busy then s.overrun
  else if flagsHold op s.int then
    if rangeFails op s.sample then (s.reject .range).ack else (s.accept op s.sample).ack
  else (s.reject .seq).ack

/-- The issue of an illegal command word (R301, R341). -/
def State.issueIllegal (s : State) : State := if s.busy then s.overrun else (s.reject .illegal).ack

/-- A write of `CMD` with data `w` (R301): the word is decoded and issued. -/
def State.issueWord (s : State) (w : Word) : State :=
  match commandOp (decodeCommand w) with
  | some op => s.issue op
  | none => s.issueIllegal

end Sys2Proof.Machine
end

