-- ==== Sys2Proof/Machine/Fold.lean ====
section
/-! DEFINITION. Folding and hex encoding: the effects of `FOLD` and `HEX` (46_fold_hex.md rules R280 to R285). -/

namespace Sys2Proof.Machine

/-- The bytes of `n` cells from index `i` on, in ascending order (R280). -/
def flatBytes : Nat → Nat → Memory → List Byte
  | 0, _, _ => []
  | n + 1, i, [] => Config.undefinedCell i :: flatBytes n (i + 1) []
  | n + 1, i, c :: rest =>
    if c.1 = i then c.2 :: flatBytes n (i + 1) rest
    else Config.undefinedCell i :: flatBytes n (i + 1) (c :: rest)

/-- `FLAT = LAT[0] || LAT[1] || ... || LAT[2^24-1]` (R280). -/
def flatLattice (lat : Memory) : List Byte := flatBytes latSize 0 lat

/-- `n` round digests: in ABSORB mode of all that was absorbed so far with the running digest `last`, in CHAIN mode of
the running digest alone (R281). -/
def roundDigests (spMode : Bool) : Nat → List Byte → List Byte → List (List Byte)
  | 0, _, _ => []
  | n + 1, absorbed, last =>
    let d := if spMode then sha512 last else sha512 (absorbed ++ last)
    d :: roundDigests spMode n (absorbed ++ last) d

/-- The round digests `d1 .. d6` of a flattened lattice, with `d0 = SHA512(FLAT)` (R281). -/
def spongeDigests (spMode : Bool) (flatLat : List Byte) : List (List Byte) :=
  roundDigests spMode 6 flatLat (sha512 flatLat)

/-- `DIG` from the round digests: all six (CAT384), or the last one, and zeros after them (TRUNC64) (R282). -/
def digestBuffer (outLen : Bool) (ds : List (List Byte)) : List Byte :=
  padTo 384 (if outLen then ds.getD 5 [] else ds.flatten)

/-- `DIGLEN` (R282). -/
def digestLength (outLen : Bool) : BitVec 16 := if outLen then 64 else 384

/-- The effect of `FOLD` (R283): `DIG`, `DIGLEN`, `DIGV` and `HEXV`; the lattice is only read. -/
def foldEffect (spMode outLen : Bool) (w : Internal) : Internal × ErrCode :=
  ({ w with
      dig := digestBuffer outLen (spongeDigests spMode (flatLattice w.lat))
      digLen := digestLength outLen
      digV := true
      hexV := false }, .ok)

/-- `hexch(n)`: the ASCII code of a lowercase hex digit (R285). -/
def hexChar (n : Nat) : Byte := if n < 10 then .ofNat 8 (0x30 + n) else .ofNat 8 (0x61 + (n - 10))

/-- The two characters of a byte, high nibble first (R285). -/
def hexPair (b : Byte) : List Byte := [hexChar (b.toNat / 16), hexChar (b.toNat % 16)]

/-- `HEXB`: the characters of the first `n` digest bytes, then zeros up to 768 (R285). -/
def hexBuffer (dig : List Byte) (n : Nat) : List Byte :=
  padTo 768 ((List.range n).flatMap fun j => hexPair (dig.getD j 0))

/-- The effect of `HEX` (R285). -/
def hexEffect (w : Internal) : Internal × ErrCode :=
  ({ w with hexb := hexBuffer w.dig w.digLen.toNat, hexV := true }, .ok)

end Sys2Proof.Machine
end

