-- ==== Sys2Proof/Machine/Binary64.lean ====
section
/-! DEFINITION. IEEE 754 binary64 as far as the entropy needs it (00_scope.md rule R12, 45_transforms.md rules R255,
R256): finite values, round to nearest with ties to even, and the base-2 logarithm. No computation of the engine gives a
negative zero, an infinity or a NaN (R346), so a value is its mantissa and exponent, and the exponent has no upper bound
(assumption log entry 20). -/

namespace Sys2Proof.Machine

/-- The value `man * 2^exp`. -/
structure F64 where
  man : Int
  exp : Int
  deriving DecidableEq, Repr

/-- The integer nearest to `a / b`, ties to even. -/
def nearestEven (a b : Nat) : Nat :=
  let q := a / b
  let r := a % b
  if 2 * r < b then q
  else if b < 2 * r then q + 1
  else if q % 2 = 0 then q else q + 1

/-- `a / 2^e` as a fraction of natural numbers, for an exponent of either sign. -/
def scaledFraction (a b : Nat) (e : Int) : Nat × Nat :=
  if e < 0 then (a * 2 ^ e.natAbs, b) else (a, b * 2 ^ e.natAbs)

/-- `RN(a / b)` for positive a and b: the exponent of the last of the 53 mantissa bits, not below -1074, then the
nearest mantissa (R12). -/
def roundPositive (a b : Nat) : F64 :=
  let guess : Int := (a.log2 : Int) - b.log2
  let top := scaledFraction a b guess
  let e := max ((if top.2 ≤ top.1 then guess else guess - 1) - 52) (-1074)
  let frac := scaledFraction a b e
  let m := nearestEven frac.1 frac.2
  if m = 2 ^ 53 then ⟨2 ^ 52, e + 1⟩ else ⟨m, e⟩

/-- `RN(a / b)` for a positive denominator; zero is +0.0. -/
def roundFraction (a : Int) (b : Nat) : F64 :=
  if a = 0 then ⟨0, 0⟩
  else if a < 0 then let x := roundPositive a.natAbs b; ⟨-x.man, x.exp⟩
  else roundPositive a.natAbs b

/-- `RN(man * 2^exp)`. -/
def roundDyadic (man exp : Int) : F64 :=
  if exp < 0 then roundFraction man (2 ^ exp.natAbs) else roundFraction (man * 2 ^ exp.natAbs) 1

/-- `RN(x * y)`. -/
def F64.mul (x y : F64) : F64 := roundDyadic (x.man * y.man) (x.exp + y.exp)

/-- `RN(x + y)`. -/
def F64.add (x y : F64) : F64 :=
  let e := min x.exp y.exp
  roundDyadic (x.man * 2 ^ (x.exp - e).natAbs + y.man * 2 ^ (y.exp - e).natAbs) e

/-- `RN(0.0 - x)`. -/
def F64.zeroMinus (x : F64) : F64 := roundDyadic (-x.man) x.exp

/-- `floor(x)` of a value that is not negative. -/
def F64.floorNat (x : F64) : Nat :=
  if x.exp < 0 then x.man.toNat / 2 ^ x.exp.natAbs else x.man.toNat * 2 ^ x.exp.natAbs

/-- `enc64(x)`: sign bit 63, exponent bits 62..52, fraction bits 51..0 (R12), of a value whose mantissa has 53 bits, or
fewer at the least exponent. -/
def F64.encode (x : F64) : Word64 :=
  let m := x.man.natAbs
  let sign := if x.man < 0 then 2 ^ 63 else 0
  if m < 2 ^ 52 then .ofNat 64 (sign + m)
  else .ofNat 64 (sign + (x.exp + 1075).toNat * 2 ^ 52 + (m - 2 ^ 52))

/-! The logarithm. -/

/-- The working precision of the logarithm, in bits after the point. -/
def logBits : Nat := 512

/-- `n` binary digits of `log2 x` for x in [1, 2), where `lo / 2^512 <= x <= hi / 2^512`: squaring x doubles its
logarithm, and a square of 2 or more gives the digit 1. None when the bounds do not settle a digit. -/
def logDigits : Nat → Nat → Nat → Nat → Option Nat
  | 0, _, _, acc => some acc
  | n + 1, lo, hi, acc =>
    let lo2 := lo * lo / 2 ^ logBits
    let hi2 := (hi * hi + 2 ^ logBits - 1) / 2 ^ logBits
    if 2 ^ (logBits + 1) ≤ lo2 then logDigits n (lo2 / 2) ((hi2 + 1) / 2) (2 * acc + 1)
    else if hi2 < 2 ^ (logBits + 1) then logDigits n lo2 hi2 (2 * acc)
    else none

/-- The floor of `2^128 * log2 (m / 2^52)` for a mantissa m of 53 bits, from the number of bits of the power `m^(2^128)`:
exact for every m, and out of reach of any computer. -/
@[irreducible] def logFloorByPower (m : Nat) : Nat := Nat.log2 (m ^ 2 ^ 128) - 52 * 2 ^ 128

/-- The floor of `2^128 * log2 (m / 2^52)` for a mantissa m of 53 bits: by squaring, and where 512 bits do not settle a
digit by the power itself. The two agree wherever the first answers. -/
def logFloor (m : Nat) : Nat :=
  (logDigits 128 (m * 2 ^ (logBits - 52)) (m * 2 ^ (logBits - 52)) 0).getD (logFloorByPower m)

/-- `log2c(p)`: the correctly rounded base-2 logarithm of a positive p with a 53-bit mantissa (R255). With m in [1, 2)
and `p = m * 2^e`, the floor of `log2 p * 2^128` is exact; for every m but 1 the logarithm is irrational, so the
remainder is not zero and half a unit stands for it in the rounding (assumption log entry 10). -/
def F64.log2c (p : F64) : F64 :=
  let m := p.man.toNat
  let e := p.exp + 52
  if m = 2 ^ 52 then roundDyadic e 0 else roundDyadic (2 * (e * 2 ^ 128 + logFloor m) + 1) (-129)

end Sys2Proof.Machine
end

