-- ==== Sys2Proof/Machine/Generator.lean ====
section
/-! DEFINITION. The generator MT19937 with its seeding and bounded draws, and the effects of `RNGSEED` and `GEN`
(43_generator.md rules R200 to R211). Words are 32-bit, so every `+`, `-` and `*` is reduced modulo 2^32 (R200). -/

namespace Sys2Proof.Machine

/-- `bitlen(n)` (R10). -/
def bitlen (n : Nat) : Nat := if n = 0 then 0 else n.log2 + 1

/-- `n` more words of `init_genrand`, from index `i` on, after the word `prev` (R201). -/
def genrandWords : Nat → Nat → Word → List Word
  | 0, _, _ => []
  | n + 1, i, prev =>
    let x := 1812433253 * (prev ^^^ prev >>> 30) + BitVec.ofNat 32 i
    x :: genrandWords n (i + 1) x

/-- The words of `init_genrand(s)` (R201); `mti` is 624 after it. -/
def initGenrand (s : Word) : List Word := s :: genrandWords 623 1 s

/-- The key of a seed: its 32-bit words, least significant first, leading zero words dropped (R202). -/
def keyOf (seed : BitVec 256) : List Word :=
  let len := if seed = 0 then 1 else (bitlen seed.toNat - 1) / 32 + 1
  (List.range len).map fun j => seed.extractLsb' (32 * j) 32

/-- The wrap of index `i` after a step of `init_by_array` (R203). -/
def wrapIndex (mt : List Word) (i : Nat) : List Word × Nat :=
  if 624 ≤ i then (mt.set 0 (mt.getD 623 0), 1) else (mt, i)

/-- The first loop of `init_by_array`, `n` rounds (R203). -/
def mixKey (key : List Word) : Nat → List Word → Nat → Nat → List Word × Nat
  | 0, mt, i, _ => (mt, i)
  | n + 1, mt, i, j =>
    let prev := mt.getD (i - 1) 0
    let x := (mt.getD i 0 ^^^ ((prev ^^^ prev >>> 30) * 1664525)) + key.getD j 0 + BitVec.ofNat 32 j
    let next := wrapIndex (mt.set i x) (i + 1)
    mixKey key n next.1 next.2 (if key.length ≤ j + 1 then 0 else j + 1)

/-- The second loop of `init_by_array`, `n` rounds (R203). -/
def mixIndex : Nat → List Word → Nat → List Word
  | 0, mt, _ => mt
  | n + 1, mt, i =>
    let prev := mt.getD (i - 1) 0
    let x := (mt.getD i 0 ^^^ ((prev ^^^ prev >>> 30) * 1566083941)) - BitVec.ofNat 32 i
    let next := wrapIndex (mt.set i x) (i + 1)
    mixIndex n next.1 next.2

/-- `init_by_array(key, L)` (R203): `mti` stays 624. -/
@[irreducible] def initByArray (key : List Word) : Generator :=
  let mixed := mixKey key (max 624 key.length) (initGenrand 19650218) 1 0
  ⟨(mixIndex 623 mixed.1 mixed.2).set 0 0x80000000, 624⟩

/-- Step `k` of the twist, in place (R204). -/
def twistStep (mt : List Word) (k : Nat) : List Word :=
  let y := (mt.getD k 0 &&& 0x80000000) ||| (mt.getD ((k + 1) % 624) 0 &&& 0x7FFFFFFF)
  mt.set k (mt.getD ((k + 397) % 624) 0 ^^^ y >>> 1 ^^^ (if y &&& 1 = 1 then 0x9908B0DF else 0))

/-- The twist (R204). -/
@[irreducible] def Generator.twist (g : Generator) : Generator := ⟨(List.range 624).foldl twistStep g.words, 0⟩

/-- The tempering of a word (R205). -/
def temper (y : Word) : Word :=
  let y := y ^^^ y >>> 11
  let y := y ^^^ ((y <<< 7) &&& 0x9D2C5680)
  let y := y ^^^ ((y <<< 15) &&& 0xEFC60000)
  y ^^^ y >>> 18

/-- `u32()`: one 32-bit output and the generator after it (R205). -/
def Generator.u32 (g : Generator) : Word × Generator :=
  let g := if 624 ≤ g.index then g.twist else g
  (temper (g.words.getD g.index 0), ⟨g.words, g.index + 1⟩)

/-- A bound on the tries of one draw: one period of MT19937, in which every pattern of top bits occurs (R396). -/
@[irreducible] def drawTries : Nat := 2 ^ 19937

/-- `draw(n)` within a number of tries: outputs are rejected until the top `bitlen(n)` bits are below n (R206). -/
def Generator.drawWithin (n : Nat) : Nat → Generator → Nat × Generator
  | 0, g => (0, g)
  | tries + 1, g =>
    let out := g.u32
    let r := (out.1 >>> (32 - bitlen n)).toNat
    if r < n then (r, out.2) else Generator.drawWithin n tries out.2

/-- `draw(n)` (R206). The answer after the last try is never reached (R396, assumption log entry 11). -/
def Generator.draw (g : Generator) (n : Nat) : Nat × Generator := g.drawWithin n drawTries

/-- `count` draws of `draw(n)`, first one first. -/
def Generator.draws (n : Nat) : Nat → Generator → List Nat × Generator
  | 0, g => ([], g)
  | count + 1, g =>
    let first := g.draw n
    let rest := Generator.draws n count first.2
    (first.1 :: rest.1, rest.2)

/-- The effect of `RNGSEED` with a given seed (R210). -/
def rngseedEffect (seed : BitVec 256) (w : Internal) : Internal × ErrCode :=
  ({ w with mt := initByArray (keyOf seed), prngV := true }, .ok)

/-- `n` cells from index `i` on, one `draw(256)` each in ascending order (R211). -/
def drawCells : Nat → Nat → Generator → Memory × Generator
  | 0, _, g => ([], g)
  | n + 1, i, g =>
    let d := g.draw 256
    let rest := drawCells n (i + 1) d.2
    ((i, BitVec.ofNat 8 d.1) :: rest.1, rest.2)

/-- The effect of `GEN` (R211): every cell, `LATV`, and the generator after 2^24 draws. -/
def genEffect (w : Internal) : Internal × ErrCode :=
  let cells := drawCells latSize 0 w.mt
  ({ w with lat := cells.1, mt := cells.2, latV := true }, .ok)

end Sys2Proof.Machine
end

