-- ==== Sys2Proof/Machine/Lattice.lean ====
section
/-! DEFINITION. Lattice coordinates and the effects of `LOAD` and `LATZERO` (44_lattice.md rules R230 to R236). -/

namespace Sys2Proof.Machine

/-- `flat(a0, ..., a7)`: the flat index of coordinates, axis 0 outermost (R230). -/
def flat (a : List Nat) : Nat := a.foldl (fun acc x => acc * 8 + x) 0

/-- `coord(x)_d`: coordinate d of the cell with flat index x (R230). -/
def coord (x d : Nat) : Nat := x / 8 ^ (7 - d) % 8

/-- `csum(x)`: the sum of the eight coordinates (R231). -/
def csum (x : Nat) : Nat := ((List.range 8).map (coord x)).sum

/-- `ldidx(i)`: the flat index that the loader gives input position i; axis d is `(i / 8^d) mod 8` (R232). -/
def ldidx (i : Nat) : Nat := flat ((List.range 8).map fun d => i / 8 ^ d % 8)

/-- `LAT[x] <- LAT[x] ^ v`; an undefined cell stays undefined (DEDUCED: by R40 no command that changes
cells so meets one; assumption log entry 23). -/
def xorCell (lat : Memory) (x : Nat) (v : Byte) : Memory :=
  match lat.read x with
  | none => lat
  | some b => lat.write x (b ^^^ v)

/-- The loop of `LOAD` from input position `i` on (R235). -/
def loadBytes : List Byte → Nat → Memory → Memory
  | [], _, lat => lat
  | b :: rest, i, lat => loadBytes rest (i + 1) (xorCell lat (ldidx i) b)

/-- The cells of `n` input positions from `i` on become undefined (R235 on a bus error). -/
def unloadCells : Nat → Nat → Memory → Memory
  | 0, _, lat => lat
  | n + 1, i, lat => unloadCells n (i + 1) (lat.erase (ldidx i))

/-- The effect of `LOAD` (R235) of `n` input bytes, or of a bus error among their reads (R344). -/
def loadEffect (n : Nat) (input : Option (List Byte)) (w : Internal) : Internal × ErrCode :=
  match input with
  | none => ({ w with lat := unloadCells n 0 w.lat, latV := false }, .bus)
  | some bytes => ({ w with lat := loadBytes bytes 0 w.lat }, .ok)

/-- The effect of `LATZERO` (R236). -/
def latzeroEffect (w : Internal) : Internal × ErrCode :=
  ({ w with lat := Memory.tabulate (fun _ => 0) latSize 0, latV := true }, .ok)

end Sys2Proof.Machine
end

