-- ==== Sys2Proof/Machine/Transforms.lean ====
section
/-! DEFINITION. The four transform stages: the effects of `CHAOS`, `ENTROPY`, `DIFFUSE` and `WALK` (45_transforms.md
rules R250 to R263). A cell that is undefined stays undefined. -/

namespace Sys2Proof.Machine

/-! Chaos. -/

/-- The chaos map `f(v) = floor(sin(v) * 256) mod 256` as its table (R250, R251). -/
def chaosTable : List Byte := [
  0, 215, 232, 36, 62, 10, 184, 168, 253, 105, 116, 0, 118, 107, 253, 166,
  182, 9, 63, 38, 233, 214, 253, 39, 24, 222, 195, 244, 69, 86, 3, 152,
  141, 255, 135, 146, 2, 91, 75, 246, 190, 215, 21, 43, 4, 217, 230, 31,
  59, 11, 188, 171, 252, 101, 112, 0, 122, 111, 254, 163, 177, 8, 66, 42] ++ [
  235, 211, 249, 36, 26, 226, 198, 243, 64, 82, 3, 156, 144, 255, 131, 142,
  1, 94, 80, 247, 187, 210, 19, 45, 9, 220, 228, 27, 56, 13, 193, 174,
  251, 97, 109, 0, 126, 115, 254, 159, 173, 7, 69, 47, 237, 209, 244, 34,
  28, 231, 200, 242, 60, 79, 4, 160, 148, 255, 127, 138, 1, 98, 84, 248] ++ [
  184, 206, 17, 48, 13, 222, 226, 22, 53, 14, 197, 178, 250, 92, 105, 0,
  130, 119, 255, 155, 169, 6, 72, 51, 238, 206, 240, 32, 30, 235, 203, 240,
  56, 76, 5, 165, 152, 255, 123, 134, 0, 101, 88, 250, 181, 202, 16, 50,
  18, 224, 224, 18, 50, 16, 202, 181, 250, 88, 101, 0, 134, 123, 255, 152] ++ [
  165, 5, 76, 56, 240, 203, 235, 30, 32, 240, 206, 238, 51, 72, 6, 169,
  155, 255, 119, 130, 0, 105, 92, 250, 178, 197, 14, 53, 22, 226, 222, 13,
  48, 17, 206, 184, 248, 84, 98, 1, 138, 127, 255, 148, 160, 4, 79, 60,
  242, 200, 231, 28, 34, 244, 209, 237, 47, 69, 7, 173, 159, 254, 115, 126]

/-- `f(v)` (R251). -/
def chaosMap (v : Byte) : Byte := chaosTable.getD v.toNat 0

/-- `f` applied `n` times. -/
def chaosRepeat : Nat → Byte → Byte
  | 0, v => v
  | n + 1, v => chaosRepeat n (chaosMap v)

/-- How often `CHAOS` applies f to every cell (R6, R252). -/
@[irreducible] def chaosRepetitions : Nat := 256

/-- The effect of `CHAOS` (R252): every cell goes through f 256 times. Each cell is on its own, so the 256 passes over
the lattice are made cell by cell. -/
def chaosEffect (w : Internal) : Internal × ErrCode :=
  ({ w with lat := w.lat.mapCells fun _ v => chaosRepeat chaosRepetitions v }, .ok)

/-! Entropy. -/

/-- One term of the entropy sum: the sum after byte value `b`, for an input of `n` bytes (R255). -/
def entropyTerm (input : List Byte) (sum : F64) (b : Nat) : F64 :=
  let c := input.count (BitVec.ofNat 8 b)
  if c = 0 then sum
  else
    let p := roundPositive c input.length
    sum.add (p.mul p.log2c)

/-- `entropy(IN)` (R255): the terms in ascending byte order, and the sign of a zero result is +. -/
@[irreducible] def entropyOf (input : List Byte) : F64 :=
  if input.length = 0 then ⟨0, 0⟩
  else ((List.range 256).foldl (entropyTerm input) ⟨0, 0⟩).zeroMinus

/-- `inj[s] = floor(RN(E * s)) mod 256` (R256). -/
def injection (e : F64) (s : Nat) : Byte := .ofNat 8 (e.mul ⟨s, 0⟩).floorNat

/-- The table `inj[0 .. 56]` (R256). -/
def injections (e : F64) : List Byte := (List.range 57).map (injection e)

/-- The effect of `ENTROPY` (R256): `LAT[x] <- LAT[x] ^ inj[csum(x)]` and `ENT`. On a bus error nothing changes
(R344). -/
def entropyEffect (input : Option (List Byte)) (w : Internal) : Internal × ErrCode :=
  match input with
  | none => (w, .bus)
  | some bytes =>
    let e := entropyOf bytes
    let inj := injections e
    ({ w with lat := w.lat.mapCells (fun x v => v ^^^ inj.getD (csum x) 0), ent := e.encode }, .ok)

/-! Diffusion. -/

/-- `(v * 8 + 17) mod 256` (R260). -/
def diffuseMap (v : Byte) : Byte := v * 8 + 17

/-- The effect of `DIFFUSE` (R260). -/
def diffuseEffect (w : Internal) : Internal × ErrCode :=
  ({ w with lat := w.lat.mapCells fun _ v => diffuseMap v }, .ok)

/-! Walk. -/

/-- One iteration of the walk: eight coordinates in axis order, then the byte (R263). -/
def walkStep (w : Memory × Generator) : Memory × Generator :=
  let a := Generator.draws 8 8 w.2
  let v := a.2.draw 256
  (xorCell w.1 (flat a.1) (.ofNat 8 v.1), v.2)

/-- `n` iterations of the walk (R263). -/
def walk : Nat → Memory × Generator → Memory × Generator
  | 0, w => w
  | n + 1, w => walk n (walkStep w)

/-- The number of iterations of the walk (R6, R263). -/
@[irreducible] def walkIterations : Nat := 512

/-- The effect of `WALK` (R263). -/
def walkEffect (w : Internal) : Internal × ErrCode :=
  let after := walk walkIterations (w.lat, w.mt)
  ({ w with lat := after.1, mt := after.2 }, .ok)

end Sys2Proof.Machine
end

