-- ==== Sys2Proof/Machine/Commands.lean ====
section
/-! DEFINITION. The meanings of the command words. A command has two steps (47_host_interface.md rules R301, R303): while
the engine is idle the word is issued (accepted or rejected), and while that command runs the engine completes it.
`DIGEST` completes through one step per sub-command, which rule R303 allows. While another command runs, a command word
is a write of `CMD` that is ignored with `OVR` (R304). -/

namespace Sys2Proof.Machine

/-- What a step of the machine answers. -/
abbrev Result := Host.Outcome State Fault Refusal

/-- The two steps of a command: its issue when no command runs, the engine's turn when it runs itself. -/
def State.command (s : State) (op : Op) (turn : Running → State) : Result :=
  match s.cur with
  | none => .next (s.issue op)
  | some r => if r.op = op then .next (turn r) else .next s.overrun

/-- Completion with the effect and outcome code of a command (R303). -/
def State.completeWith (s : State) (result : Internal × ErrCode) : State := s.complete result.1 result.2

/-- Completion of a command that read `n` input bytes; each read used one free choice (R85). -/
def State.completeReading (s : State) (n : Nat) (result : Internal × ErrCode) : State := (s.completeWith result).tick n

/-- `NOP` (R287): nothing but the command lifecycle. -/
def execNop (s : State) : Result := s.command .nop fun _ => s.completeWith (s.int, .ok)

/-- `CHAIN` (R180). -/
def execChain (s : State) : Result :=
  s.command .chain fun r =>
    let n := inputCount .chain r.args
    s.completeReading n (chainEffect (s.input r n) s.int)

/-- `RNGSEED` (R210), with the seed sampled at acceptance. -/
def execRngseed (s : State) : Result := s.command .rngseed fun r => s.completeWith (rngseedEffect r.args.seed s.int)

/-- `GEN` (R211). -/
def execGen (s : State) : Result := s.command .gen fun _ => s.completeWith (genEffect s.int)

/-- `LOAD` (R235). -/
def execLoad (s : State) : Result :=
  s.command .load fun r =>
    let n := inputCount .load r.args
    s.completeReading n (loadEffect n (s.input r n) s.int)

/-- `CHAOS` (R252). -/
def execChaos (s : State) : Result := s.command .chaos fun _ => s.completeWith (chaosEffect s.int)

/-- `ENTROPY` (R256). -/
def execEntropy (s : State) : Result :=
  s.command .entropy fun r =>
    let n := inputCount .entropy r.args
    s.completeReading n (entropyEffect (s.input r n) s.int)

/-- `DIFFUSE` (R260). -/
def execDiffuse (s : State) : Result := s.command .diffuse fun _ => s.completeWith (diffuseEffect s.int)

/-- `WALK` (R263). -/
def execWalk (s : State) : Result := s.command .walk fun _ => s.completeWith (walkEffect s.int)

/-- `FOLD` (R283), in the modes sampled at acceptance. -/
def execFold (s : State) : Result :=
  s.command .fold fun r => s.completeWith (foldEffect r.args.spMode r.args.outLen s.int)

/-- `HEX` (R285). -/
def execHex (s : State) : Result := s.command .hex fun _ => s.completeWith (hexEffect s.int)

/-- `LATZERO` (R236). -/
def execLatzero (s : State) : Result := s.command .latzero fun _ => s.completeWith (latzeroEffect s.int)

/-- The sub-command of a `DIGEST` that follows another; none after the last (R288). -/
def nextSub : Op → Option Op
  | .chain => some .rngseed
  | .rngseed => some .gen
  | .gen => some .load
  | .load => some .chaos
  | .chaos => some .entropy
  | .entropy => some .diffuse
  | .diffuse => some .walk
  | .walk => some .fold
  | .fold => some .hex
  | .hex => none
  | .nop => none
  | .latzero => none
  | .digest => none

/-- The effect of one sub-command of a running `DIGEST` on the state its stages share (R288): that command's rule, with
the operands of the `DIGEST`; `RNGSEED` takes the seed that `CHAIN` made. -/
def State.subEffect (s : State) (r : Running) (sub : Op) (w : Internal) : Internal × ErrCode :=
  let n := inputCount sub r.args
  match sub with
  | .chain => chainEffect (s.input r n) w
  | .rngseed => rngseedEffect w.seed w
  | .gen => genEffect w
  | .load => loadEffect n (s.input r n) w
  | .chaos => chaosEffect w
  | .entropy => entropyEffect (s.input r n) w
  | .diffuse => diffuseEffect w
  | .walk => walkEffect w
  | .fold => foldEffect r.args.spMode r.args.outLen w
  | .hex => hexEffect w
  | .nop => (w, .ok)
  | .latzero => latzeroEffect w
  | .digest => (w, .ok)

/-- The engine's turn on a running `DIGEST` (R288, R303): it starts with `CHAIN`; a sub-command that ends with `OK`
hands its state to the next one; the last one, or the first that ends with an error, completes the `DIGEST`. -/
def State.digestTurn (s : State) (r : Running) : State :=
  match r.stage with
  | none => s.setStage r ⟨.chain, s.int⟩
  | some st =>
    let result := s.subEffect r st.sub st.work
    let s' := s.tick (inputCount st.sub r.args)
    if result.2 = .ok then
      match nextSub st.sub with
      | some sub => s'.setStage r ⟨sub, result.1⟩
      | none => s'.completeWith result
    else s'.completeWith result

/-- `DIGEST` (R288). -/
def execDigest (s : State) : Result := s.command .digest s.digestTurn

/-- `ILLEGAL_CMD` (R341): rejected with `ILLEGAL`, whatever the word; nothing else changes. -/
def execIllegalCmd (_rsvd : BitVec 24) (_op : BitVec 8) (s : State) : Result := .next s.issueIllegal

end Sys2Proof.Machine
end

