-- ==== Sys2Proof/Machine/HostAccess.lean ====
section
/-! DEFINITION. The meanings of the host accesses: every read and every write of every register (47_host_interface.md
rules R301, R304, R305 and R310 to R329). A read answers with its data, an ignored write is taken without an effect, and
an access error gets a bus error response. -/

namespace Sys2Proof.Machine

/-- `RD.ID` (R310). -/
def execRdId (s : State) : Result := .next (s.answer idWord)

/-- `WR.ID` (R310): ignored. -/
def execWrId (_d : Word) (s : State) : Result := .next s.ack

/-- `RD.CTRL` (R312). -/
def execRdCtrl (s : State) : Result := .next (s.answer s.ctrlWord)

/-- `WR.CTRL` (R312). -/
def execWrCtrl (d : Word) (s : State) : Result :=
  .next (s.writeIdle fun s => { s with ie := d.getLsbD 0, spMode := d.getLsbD 1, outLen := d.getLsbD 2 })

/-- `RD.STATUS` (R314). -/
def execRdStatus (s : State) : Result := .next (s.answer s.statusWord)

/-- `WR.STATUS` (R315): at any time, also while busy. -/
def execWrStatus (d : Word) (s : State) : Result := .next (s.acknowledge d).ack

/-- `RD.CMD` (R316). -/
def execRdCmd (s : State) : Result := .next (s.answer 0)

/-- `WR.CMD`: command issue (R301). -/
def execWrCmd (d : Word) (s : State) : Result := .next (s.issueWord d)

/-- `RD.IN_ADDR_LO` (R317). -/
def execRdInAddrLo (s : State) : Result := .next (s.answer s.inAddrLo)

/-- `WR.IN_ADDR_LO` (R317): address bits at or above `ADDR_W` are cleared. -/
def execWrInAddrLo (d : Word) (s : State) : Result :=
  .next (s.writeIdle fun s => { s with inAddrLo := d &&& lowmask Config.addrW })

/-- `RD.IN_ADDR_HI` (R317). -/
def execRdInAddrHi (s : State) : Result := .next (s.answer s.inAddrHi)

/-- `WR.IN_ADDR_HI` (R317): address bits at or above `ADDR_W` are cleared. -/
def execWrInAddrHi (d : Word) (s : State) : Result :=
  .next (s.writeIdle fun s => { s with inAddrHi := d &&& lowmask (Config.addrW - 32) })

/-- `RD.IN_LEN_LO` (R318). -/
def execRdInLenLo (s : State) : Result := .next (s.answer s.inLenLo)

/-- `WR.IN_LEN_LO` (R318). -/
def execWrInLenLo (d : Word) (s : State) : Result := .next (s.writeIdle fun s => { s with inLenLo := d })

/-- `RD.IN_LEN_HI` (R318). -/
def execRdInLenHi (s : State) : Result := .next (s.answer s.inLenHi)

/-- `WR.IN_LEN_HI` (R318). -/
def execWrInLenHi (d : Word) (s : State) : Result := .next (s.writeIdle fun s => { s with inLenHi := d })

/-- `RD.PROGRESS` (R319): 0 while idle; while busy the field `CNT` is any value on each read. -/
def execRdProgress (s : State) : Result :=
  match s.cur with
  | none => .next (s.answer 0)
  | some r => .next ((s.answer (r.progressWord (Config.freeCount s.fresh))).tick 1)

/-- `WR.PROGRESS` (R319): ignored. -/
def execWrProgress (_d : Word) (s : State) : Result := .next s.ack

/-- `RD.LAT_IDX` (R320). -/
def execRdLatIdx (s : State) : Result := .next (s.answer (s.latIdx.setWidth 32))

/-- `WR.LAT_IDX` (R320). -/
def execWrLatIdx (d : Word) (s : State) : Result :=
  .next (s.writeIdle fun s => { s with latIdx := d.setWidth 24 })

/-- A read of the cell that `LAT_IDX` names, while idle (R33, R321): the cell's byte, of an undefined cell any value on
each read, and the index goes on. -/
def State.readCell (s : State) : State :=
  match s.int.lat.read s.latIdx.toNat with
  | some b => { s with latIdx := s.latIdx + 1 }.answer (b.setWidth 32)
  | none => ({ s with latIdx := s.latIdx + 1 }.answer ((Config.freeByte s.fresh).setWidth 32)).tick 1

/-- `RD.LAT_DATA` (R321): while busy it returns 0 and the index stays. -/
def execRdLatData (s : State) : Result := .next (if s.busy then s.answer 0 else s.readCell)

/-- A write of the cell that `LAT_IDX` names (R33, R321): `LATV` stays, and the index goes on. -/
def State.writeCell (s : State) (b : Byte) : State :=
  { s with int := { s.int with lat := s.int.lat.write s.latIdx.toNat b }, latIdx := s.latIdx + 1 }

/-- `WR.LAT_DATA` (R321). -/
def execWrLatData (d : Word) (s : State) : Result := .next (s.writeIdle fun s => s.writeCell (d.setWidth 8))

/-- `RD.DIGLEN` (R322). -/
def execRdDiglen (s : State) : Result := .next (s.answer (s.int.digLen.setWidth 32))

/-- `WR.DIGLEN` (R322): ignored. -/
def execWrDiglen (_d : Word) (s : State) : Result := .next s.ack

/-- `RD.SEEDk` (R326). -/
def execRdSeed (k : BitVec 3) (s : State) : Result := .next (s.readIdle (seedWord s.int.seed k))

/-- `WR.SEEDk` (R326): the word of the seed, and `SEEDV`; the generator stays as it is. -/
def execWrSeed (k : BitVec 3) (d : Word) (s : State) : Result :=
  .next (s.writeIdle fun s => { s with int := { s.int with seed := setSeedWord s.int.seed k d, seedV := true } })

/-- `RD.ENTROPY_LO` (R327). -/
def execRdEntropyLo (s : State) : Result := .next (s.readIdle (s.int.ent.extractLsb' 0 32))

/-- `WR.ENTROPY_LO` (R327): ignored. -/
def execWrEntropyLo (_d : Word) (s : State) : Result := .next s.ack

/-- `RD.ENTROPY_HI` (R327). -/
def execRdEntropyHi (s : State) : Result := .next (s.readIdle (s.int.ent.extractLsb' 32 32))

/-- `WR.ENTROPY_HI` (R327): ignored. -/
def execWrEntropyHi (_d : Word) (s : State) : Result := .next s.ack

/-- `RD.DIG` (R328). -/
def execRdDig (w : BitVec 7) (s : State) : Result := .next (s.readIdle (windowWord s.int.dig w.toNat))

/-- `WR.DIG` (R328): ignored. -/
def execWrDig (_w : BitVec 7) (_d : Word) (s : State) : Result := .next s.ack

/-- `RD.HEX` (R329). -/
def execRdHex (w : BitVec 8) (s : State) : Result := .next (s.readIdle (windowWord s.int.hexb w.toNat))

/-- `WR.HEX` (R329): ignored. -/
def execWrHex (_w : BitVec 8) (_d : Word) (s : State) : Result := .next s.ack

/-- `RSVD` (R323): a read of a reserved offset returns 0, a write is ignored, and neither sets `OVR`. -/
def execRsvd (w : Bool) (_off : BitVec 12) (s : State) : Result := .next (if w then s.ack else s.answer 0)

/-- `ACCESS_ERROR` (R324): a bus error response and no change of engine state. -/
def execAccessError (_sz : BitVec 2) (_w : Bool) (_off : BitVec 12) (s : State) : Result := .next s.answerBusError

end Sys2Proof.Machine
end

