-- ==== Sys2Proof/Machine/Dispatch.lean ====
section
/-! DEFINITION. The dispatch: one arm per instruction. -/

namespace Sys2Proof.Machine

def exec (i : Instr) (s : State) : Host.Outcome State Fault Refusal :=
  match i with
  | .nop => Sys2Proof.Machine.execNop s
  | .chain => Sys2Proof.Machine.execChain s
  | .rngseed => Sys2Proof.Machine.execRngseed s
  | .gen => Sys2Proof.Machine.execGen s
  | .load => Sys2Proof.Machine.execLoad s
  | .chaos => Sys2Proof.Machine.execChaos s
  | .entropy => Sys2Proof.Machine.execEntropy s
  | .diffuse => Sys2Proof.Machine.execDiffuse s
  | .walk => Sys2Proof.Machine.execWalk s
  | .fold => Sys2Proof.Machine.execFold s
  | .hex => Sys2Proof.Machine.execHex s
  | .latzero => Sys2Proof.Machine.execLatzero s
  | .digest => Sys2Proof.Machine.execDigest s
  | .illegalCmd hi op => Sys2Proof.Machine.execIllegalCmd hi op s
  | .rdId => Sys2Proof.Machine.execRdId s
  | .wrId d => Sys2Proof.Machine.execWrId d s
  | .rdCtrl => Sys2Proof.Machine.execRdCtrl s
  | .wrCtrl d => Sys2Proof.Machine.execWrCtrl d s
  | .rdStatus => Sys2Proof.Machine.execRdStatus s
  | .wrStatus d => Sys2Proof.Machine.execWrStatus d s
  | .rdCmd => Sys2Proof.Machine.execRdCmd s
  | .wrCmd d => Sys2Proof.Machine.execWrCmd d s
  | .rdInAddrLo => Sys2Proof.Machine.execRdInAddrLo s
  | .wrInAddrLo d => Sys2Proof.Machine.execWrInAddrLo d s
  | .rdInAddrHi => Sys2Proof.Machine.execRdInAddrHi s
  | .wrInAddrHi d => Sys2Proof.Machine.execWrInAddrHi d s
  | .rdInLenLo => Sys2Proof.Machine.execRdInLenLo s
  | .wrInLenLo d => Sys2Proof.Machine.execWrInLenLo d s
  | .rdInLenHi => Sys2Proof.Machine.execRdInLenHi s
  | .wrInLenHi d => Sys2Proof.Machine.execWrInLenHi d s
  | .rdProgress => Sys2Proof.Machine.execRdProgress s
  | .wrProgress d => Sys2Proof.Machine.execWrProgress d s
  | .rdLatIdx => Sys2Proof.Machine.execRdLatIdx s
  | .wrLatIdx d => Sys2Proof.Machine.execWrLatIdx d s
  | .rdLatData => Sys2Proof.Machine.execRdLatData s
  | .wrLatData d => Sys2Proof.Machine.execWrLatData d s
  | .rdDiglen => Sys2Proof.Machine.execRdDiglen s
  | .wrDiglen d => Sys2Proof.Machine.execWrDiglen d s
  | .rdSeed k => Sys2Proof.Machine.execRdSeed k s
  | .wrSeed k d => Sys2Proof.Machine.execWrSeed k d s
  | .rdEntropyLo => Sys2Proof.Machine.execRdEntropyLo s
  | .wrEntropyLo d => Sys2Proof.Machine.execWrEntropyLo d s
  | .rdEntropyHi => Sys2Proof.Machine.execRdEntropyHi s
  | .wrEntropyHi d => Sys2Proof.Machine.execWrEntropyHi d s
  | .rdDig w => Sys2Proof.Machine.execRdDig w s
  | .wrDig w d => Sys2Proof.Machine.execWrDig w d s
  | .rdHex w => Sys2Proof.Machine.execRdHex w s
  | .wrHex w d => Sys2Proof.Machine.execWrHex w d s
  | .rsvd w off => Sys2Proof.Machine.execRsvd w off s
  | .accessError sz w off => Sys2Proof.Machine.execAccessError sz w off s

end Sys2Proof.Machine
end

