-- ==== Sys2Proof/Machine/Step.lean ====
section
/-! DEFINITION. One step of the machine (47_host_interface.md rule R300). -/

namespace Sys2Proof.Machine

/-- One step: the instruction whose turn it is runs, or what happens outside the engine happens. -/
def step (s : State) : Host.Outcome State Fault Refusal :=
  match s.turn with
  | .run i s' => exec i s'
  | .pass s' => .next s'
  | .stop f => .fault f

/-- `s` with that instruction as the host's next access: the engine does not fetch, it takes what the host sends it
(R21, R91). -/
def State.withFetchWord (s : State) (nbits w : Nat) : State := { s with inputs := accessOfBits nbits w :: s.inputs }

end Sys2Proof.Machine
end

