-- ==== Sys2Proof/Safety.lean ====
section
/-! DEFINITION. What every reachable state satisfies: the meanings that 10_state.md gives to the valid flags and buffers,
the checks that an accepted command has passed (47_host_interface.md rule R301), and the state under reset
(70_reset_and_hazards.md rule R382), and the words that the statements use:
the conditions of the issue rules, the events of the command lifecycle, and rounding. -/

namespace Sys2Proof.Machine

/-- The internal state is what its valid flags say. -/
structure Internal.Inv (w : Internal) : Prop where
  /-- The lattice is in canonical form. -/
  latForm : w.lat.wf = true
  /-- The lattice has cells 0 .. 2^24-1 and no more (R40). -/
  latKeys : ∀ c ∈ w.lat, c.1 < latSize
  /-- `LATV = 1` holds only when no cell is undefined (R40). -/
  latDefined : w.latV = true → ∀ x < latSize, w.lat.read x ≠ none
  /-- The generator has 624 words (R42). -/
  mtWords : w.mt.words.length = 624
  /-- The index `mti` is 0 .. 624 (R42). -/
  mtIndex : w.mt.index ≤ 624
  /-- `DIG` has 384 bytes (R44). -/
  digSize : w.dig.length = 384
  /-- `DIGLEN` is 0, 64 or 384 (R34). -/
  digLength : w.digLen = 0 ∨ w.digLen = 64 ∨ w.digLen = 384
  /-- `DIGLEN` is 0 before any `FOLD` and only then (R27, R34). -/
  digValid : w.digV = true ↔ w.digLen ≠ 0
  /-- The bytes of `DIG` at or after `DIGLEN` are zero (R44, R328). -/
  digTail : ∀ j, w.digLen.toNat ≤ j → w.dig.getD j 0 = 0
  /-- `HEXB` has 768 bytes (R45). -/
  hexSize : w.hexb.length = 768
  /-- `HEXV = 1` only when there is a digest (R285). -/
  hexDigest : w.hexV = true → w.digV = true
  /-- `HEXV = 1`: `HEXB` holds the hex string of the current `DIG` (R25). -/
  hexCurrent : w.hexV = true → w.hexb = hexBuffer w.dig w.digLen.toNat

/-- The flag that makes a sub-command of a running `DIGEST` meaningful holds when its turn comes (R288). -/
def stageReady (sub : Op) (w : Internal) : Bool :=
  match sub with
  | .chain => true
  | .rngseed => w.seedV
  | .gen => w.prngV
  | .load | .chaos | .entropy | .diffuse | .walk => w.latV && w.prngV
  | .fold => w.latV
  | .hex => w.digV
  | .nop | .latzero | .digest => false

/-- A running command was accepted: its checks passed on the values that it sampled, and those are still what the host
registers hold, since a host write cannot change them (R301, R304). -/
structure Running.Inv (r : Running) (s : State) : Prop where
  /-- The sampled operands are the registers' values (R104, R304). -/
  sampled : r.args = s.sample
  /-- The valid flags it needs are 1 (R342). -/
  flags : flagsHold r.op s.int = true
  /-- Its input region passed the range check (R343). -/
  range : rangeFails r.op r.args = false
  /-- Acceptance cleared `DONE` (R301). -/
  notDone : s.done = false
  /-- Only a `DIGEST` has stages, and each is ready for its sub-command (R288). -/
  stages : ∀ st, r.stage = some st → r.op = .digest ∧ st.work.Inv ∧ stageReady st.sub st.work = true

/-- What every reachable state satisfies. -/
structure State.Inv (s : State) : Prop where
  /-- The internal state. -/
  int : s.int.Inv
  /-- System memory is in canonical form. -/
  memForm : s.mem.wf = true
  /-- Register bits for address bits at or above `ADDR_W` are 0 (R29). -/
  addrLo : s.inAddrLo.toNat < 2 ^ min Config.addrW 32
  /-- The same of the upper word (R29). -/
  addrHi : s.inAddrHi.toNat < 2 ^ min (Config.addrW - 32) 32
  /-- The running command. -/
  running : ∀ r, s.cur = some r → r.Inv s
  /-- While the reset input is asserted the engine is in its reset state (R380, R382). -/
  reset : s.inReset = true →
    s = { State.reset with mem := s.mem, inputs := s.inputs, fresh := s.fresh, inReset := true }

/-! The conditions of the issue rules, read off their tables. -/

/-- A valid flag that an operation needs is 0: the table of R342. -/
def flagMissing (op : Op) (w : Internal) : Prop :=
  (op = .rngseed ∧ w.seedV = false) ∨
  (op ∈ [Op.gen, .walk] ∧ w.prngV = false) ∨
  (op ∈ [Op.load, .chaos, .entropy, .diffuse, .walk, .fold] ∧ w.latV = false) ∨
  (op = .hex ∧ w.digV = false)

/-- The input region of an operation at address `a` with length `n` is refused: the table of R343. -/
def outOfRange (op : Op) (a n : Nat) : Prop :=
  (op ∈ [Op.chain, .digest, .load, .entropy] ∧ 0 < n ∧ 2 ^ Config.addrW < a + n) ∨
  (op ∈ [Op.chain, .digest] ∧ 2 ^ 61 ≤ n)

/-- `IN_ADDR` as the registers give it, truncated to `ADDR_W` bits (R104). -/
def State.addrValue (s : State) : Nat := (s.inAddrHi.toNat * 2 ^ 32 + s.inAddrLo.toNat) % 2 ^ Config.addrW

/-- `IN_LEN` as the registers give it (R104). -/
def State.lenValue (s : State) : Nat := s.inLenHi.toNat * 2 ^ 32 + s.inLenLo.toNat

/-- The input of a running command is `x`, and no agent has changed memory since acceptance (R73, R85). -/
def State.stableInput (s : State) (r : Running) (x : List Byte) : Prop :=
  r.touched = [] ∧ ∀ i < x.length, s.mem.read (r.args.inAddr.toNat + i) = x[i]?

/-! What an instruction does to the command lifecycle, as R301 to R304 and R306 name it. -/

/-- An issue of a command word: a write of `CMD`, or a command word as an instruction of its own (R301; assumption log
entry 4). -/
def issuesCommand (i : Instr) : Prop :=
  (∃ w, i = .wrCmd w) ∨ (∃ rsvd op, i = .illegalCmd rsvd op) ∨ ∃ op, commandOp i = some op

/-- From `s` to `t` the instruction had a command accepted (R301). -/
def accepts (i : Instr) (s t : State) : Prop := issuesCommand i ∧ s.cur = none ∧ t.cur ≠ none ∧ t.done = false

/-- From `s` to `t` the instruction had a command rejected (R302). -/
def rejects (i : Instr) (s t : State) : Prop :=
  issuesCommand i ∧ s.cur = none ∧ t.cur = none ∧ t.done = true ∧ t.err ≠ .ok

/-- From `s` to `t` the running command, whose turn it is, completed (R303). -/
def completes (i : Instr) (s t : State) : Prop :=
  ∃ r, s.cur = some r ∧ i = r.op.instr ∧ t.cur = none ∧ t.done = true

/-- A write that a running command protects its registers from: the list of R304. -/
def protectedWrite (i : Instr) : Prop :=
  issuesCommand i ∨ (∃ d, i ∈ [Instr.wrCtrl d, .wrInAddrLo d, .wrInAddrHi d, .wrInLenLo d, .wrInLenHi d, .wrLatIdx d,
    .wrLatData d]) ∨ ∃ k d, i = .wrSeed k d

/-! Rounding. -/

/-- `v` is `RN(x)` for a real x (R12): a value of the format, no value of the format lies nearer to x, and where another
one lies equally near the mantissa of `v` is even. The exponent has no upper bound (assumption log entry 20). -/
structure F64.Rounds (v : F64) (x : ℝ) : Prop where
  /-- The least exponent. -/
  exponent : -1074 ≤ v.exp
  /-- The mantissa has 53 bits, fewer only at the least exponent. -/
  mantissa : |v.man| < 2 ^ 53 ∧ (v.man = 0 ∨ 2 ^ 52 ≤ |v.man| ∨ v.exp = -1074)
  /-- Nearest. -/
  nearest : ∀ m e : ℤ, |m| < 2 ^ 53 → -1074 ≤ e →
    |x - (v.man : ℝ) * (2 : ℝ) ^ v.exp| ≤ |x - (m : ℝ) * (2 : ℝ) ^ e|
  /-- Ties to even. -/
  even : ∀ m e : ℤ, |m| < 2 ^ 53 → -1074 ≤ e →
    |x - (v.man : ℝ) * (2 : ℝ) ^ v.exp| = |x - (m : ℝ) * (2 : ℝ) ^ e| →
    (m : ℝ) * (2 : ℝ) ^ e ≠ (v.man : ℝ) * (2 : ℝ) ^ v.exp → v.man % 2 = 0

end Sys2Proof.Machine
end

