-- ==== Sys2Proof/Certificates/Slice0/Obligations.lean ====
section
/-! DEFINITION. The statements for the provers. Each docstring names the rules of the spec that the statement formalises. -/

open Sys2Proof Sys2Proof.Machine

/-! Encoding. -/

/-- Decoding the bits of a well-formed instruction gives it back, with every operand at every value (R100 to R107). -/
def Obligations.EncodeDecodeRoundTrip : Prop :=
  ∀ i : Instr, i.wellFormed = true → decodeBits (encode i).nbits (encode i).bits = .ok i

/-- Whatever the decoder accepts is a well-formed instruction (R102, R107). -/
def Obligations.DecodedInstructionsAreWellFormed : Prop :=
  ∀ (nbits bits : Nat) (i : Instr), decodeBits nbits bits = .ok i → i.wellFormed = true

/-- R103: every reserved opcode and every word with nonzero `RSVD` is illegal, and no word is an alias of another: the
instruction of a word encodes to that word alone. -/
def Obligations.CommandWordsHaveOneMeaning : Prop :=
  ∀ w : Word, encode (decodeCommand w) = ⟨32, w.toNat⟩ ∧
    ((∃ rsvd op, decodeCommand w = .illegalCmd rsvd op) ↔
      (w.toNat / 256 ≠ 0 ∨ w.toNat % 256 ∈ [0x0C, 0x0D, 0x0E] ∨ 0x10 ≤ w.toNat % 256))

/-- R106, R107: the descriptor of a decoded access is the one it came from; it is an access error exactly when it is not
an aligned 32-bit access, and a reserved access exactly when its offset is in one of the three reserved ranges; every
other write keeps its data value. That an access is 48 bits with the descriptor in the low 16 and the data value from bit
16 on is the model's layout (assumption log entry 17: in R106 the data value is no part of the descriptor). -/
def Obligations.AccessDescriptorsHaveOneMeaning : Prop :=
  ∀ (had : BitVec 15) (d : Word),
    let sz := had.toNat / 2 ^ 13
    let w := had.toNat / 2 ^ 12 % 2
    let off := had.toNat % 2 ^ 12
    let aligned := sz = 2 ∧ off % 4 = 0
    let reserved := (0x058 ≤ off ∧ off ≤ 0x0FF) ∨ (0x280 ≤ off ∧ off ≤ 0x3FF) ∨ 0x700 ≤ off
    (encode (decodeAccess had d)).nbits = 48 ∧ (encode (decodeAccess had d)).bits % 2 ^ 16 = had.toNat ∧
    ((∃ z v o, decodeAccess had d = .accessError z v o) ↔ ¬ aligned) ∧
    ((∃ v o, decodeAccess had d = .rsvd v o) ↔ aligned ∧ reserved) ∧
    (aligned → ¬ reserved → w = 1 → (encode (decodeAccess had d)).bits / 2 ^ 16 = d.toNat)

/-- Words written out from the tables of R101, R106 and R22 decode to the instructions they stand for. The command words
are 32 bits as in R101; that a descriptor stands in 16 bits, and with its data value in 48, is the model's layout
(assumption log entry 17). -/
def Obligations.EncodedWordsDecode : Prop :=
  decodeTableWord 32 0x00000004 = some .load ∧
  decodeTableWord 32 0x0000000F = some .digest ∧
  decodeTableWord 32 0x0000010C = some (.illegalCmd 1 0x0C) ∧
  decodeTableWord 16 0x4008 = some .rdStatus ∧
  decodeTableWord 48 0x0000000F500C = some (.wrCmd 0x0000000F) ∧
  decodeTableWord 48 0xDEADBEEF5034 = some (.wrSeed 1 0xDEADBEEF) ∧
  decodeTableWord 16 0x427C = some (.rdDig 95) ∧
  decodeTableWord 16 0x46FC = some (.rdHex 191) ∧
  decodeTableWord 16 0x4700 = some (.rsvd false 0x700) ∧
  decodeTableWord 16 0x2008 = some (.accessError 1 false 0x008)

/-! The step. -/

/-- The host's next access is decoded and run: a step on it is exec of the instruction that its bits decode to. A 32-bit
command word is the data of a `CMD` write, and it is issued when no command runs (R87, R91, R301): the
model's choice (assumption log entries 4 and 17). -/
def Obligations.StepRunsDecodedInstruction : Prop :=
  ∀ (s : State) (nbits w : Nat) (i : Instr), s.inReset = false → decodeTableWord nbits w = some i →
    (nbits = 32 → s.cur = none) → step (s.withFetchWord nbits w) = exec i s

/-- The engine's step `complete` is enabled exactly while a command runs (R300, R303): on its turn the running command's
instruction runs, and an idle engine leaves the state as it is. With no event pending it is the engine's turn: the
model's choice of a schedule (assumption log entries 2 and 19). -/
def Obligations.EngineTurnRunsCommand : Prop :=
  ∀ s : State, s.inReset = false →
    (s.inputs = [] →
      (∀ r, s.cur = some r → step s = exec r.op.instr s) ∧ (s.cur = none → step s = .next s)) ∧
    (∀ rest, s.inputs = .engine :: rest →
      (∀ r, s.cur = some r → step s = exec r.op.instr { s with inputs := rest }) ∧
      (s.cur = none → step s = .next { s with inputs := rest }))

/-- The machine stops only on a host access while the reset input is asserted (R382; the stop is assumption log entry
14's); no instruction stops it. -/
def Obligations.StopsOnlyDuringReset : Prop :=
  (∀ (i : Instr) (s : State), ∃ t, exec i s = .next t) ∧
  (∀ s : State, (∃ t, step s = .next t) ∨
    (step s = .fault .accessDuringReset ∧ s.inReset = true ∧ ∃ had d rest, s.inputs = .host had d :: rest))

/-! Reset. -/

/-- The table of R380 (`MT` is unspecified there), and no lattice cell is defined. -/
def Obligations.ResetValues : Prop :=
  let s := State.reset
  s.cur = none ∧ s.ctrlWord = 0 ∧ s.statusWord = 0 ∧
  s.inAddrLo = 0 ∧ s.inAddrHi = 0 ∧ s.inLenLo = 0 ∧ s.inLenHi = 0 ∧ s.latIdx = 0 ∧
  (∀ x, s.int.lat.read x = none) ∧ s.int.seed = 0 ∧ s.int.ent = 0 ∧
  s.int.dig = List.replicate 384 0 ∧ s.int.digLen = 0 ∧ s.int.hexb = List.replicate 768 0 ∧
  s.irq = false ∧ idWord = 0x30720701

/-- R381: when the reset input is asserted, a running command is abandoned, and everything that the engine holds is as
after reset, whatever the command had done. System memory is not the engine's, and the reset input stays asserted until
the platform releases it (R382). How the model shows the reset input, and that `mem`, `inputs` and `fresh` outlive a
reset, is the model's choice (assumption log entry 14). -/
def Obligations.ResetAbandonsCommand : Prop :=
  ∀ (s : State) (rest : List Event), s.inputs = .resetOn :: rest →
    step s = .next { State.reset with mem := s.mem, inputs := rest, fresh := s.fresh, inReset := true } ∧
    ∀ t rest', t.inputs = .resetOff :: rest' → step t = .next { t with inputs := rest', inReset := false }

/-- The state after reset meets the invariant. -/
def Obligations.ResetStateMeetsInvariant : Prop := State.reset.Inv

/-- Every step keeps the invariant: the lattice and system memory keep their canonical form, every valid flag says the
truth (R25, R27, R34, R40, R42, R44, R45), the address registers have no bit at or above `ADDR_W` (R29), and a running
command has passed its checks on the operands it sampled (R301, R304). -/
def Obligations.StepKeepsInvariant : Prop := ∀ s t : State, s.Inv → step s = .next t → t.Inv

/-! Register accesses. -/

/-- R310: `ID` reads 0x30720701, and its writes are ignored. -/
def Obligations.IdAccess : Prop :=
  ∀ (s : State) (d : Word), decodeAccess 0x4000 d = .rdId ∧ decodeAccess 0x5000 d = .wrId d ∧
    exec .rdId s = .next { s with resp := .data 0x30720701 } ∧
    exec (.wrId d) s = .next { s with resp := .ack }

/-- R312: the three fields of `CTRL`; a write while busy is ignored and sets `OVR`. -/
def Obligations.CtrlAccess : Prop :=
  ∀ (s : State) (d : Word), decodeAccess 0x4004 d = .rdCtrl ∧ decodeAccess 0x5004 d = .wrCtrl d ∧
    exec .rdCtrl s = .next { s with
      resp := .data (.ofNat 32 (4 * s.outLen.toNat + 2 * s.spMode.toNat + s.ie.toNat)) } ∧
    (s.cur = none → exec (.wrCtrl d) s = .next { s with
      ie := d.getLsbD 0, spMode := d.getLsbD 1, outLen := d.getLsbD 2, resp := .ack }) ∧
    (s.cur ≠ none → exec (.wrCtrl d) s = .next { s with ovr := true, resp := .ack })

/-- R314, R315: `STATUS` as it reads, with the codes of R340, and without side effect; a write clears `DONE` by bit 1 and
`OVR` by bit 2 and does nothing else, busy or not. -/
def Obligations.StatusAccess : Prop :=
  [ErrCode.ok, .illegal, .seq, .range, .bus].map ErrCode.code = [0, 1, 2, 3, 4] ∧
  ∀ (s : State) (d : Word), decodeAccess 0x4008 d = .rdStatus ∧ decodeAccess 0x5008 d = .wrStatus d ∧
    exec .rdStatus s = .next { s with
      resp := .data (.ofNat 32 (4096 * s.err.code.toNat + 256 * s.int.hexV.toNat + 128 * s.int.digV.toNat +
        64 * s.int.latV.toNat + 32 * s.int.prngV.toNat + 16 * s.int.seedV.toNat +
        4 * s.ovr.toNat + 2 * s.done.toNat + s.cur.isSome.toNat)) } ∧
    exec (.wrStatus d) s = .next { s with
      done := if d.getLsbD 1 then false else s.done
      ovr := if d.getLsbD 2 then false else s.ovr
      resp := .ack }

/-- R316: `CMD` reads 0. -/
def Obligations.CmdRead : Prop :=
  ∀ (s : State) (d : Word), decodeAccess 0x400C d = .rdCmd ∧ exec .rdCmd s = .next { s with resp := .data 0 }

/-- R317: `IN_ADDR` keeps only bits that stand for address bits below `ADDR_W`. -/
def Obligations.InAddrAccess : Prop :=
  ∀ (s : State) (d : Word),
    decodeAccess 0x4010 d = .rdInAddrLo ∧ decodeAccess 0x5010 d = .wrInAddrLo d ∧
    decodeAccess 0x4014 d = .rdInAddrHi ∧ decodeAccess 0x5014 d = .wrInAddrHi d ∧
    exec .rdInAddrLo s = .next { s with resp := .data s.inAddrLo } ∧
    exec .rdInAddrHi s = .next { s with resp := .data s.inAddrHi } ∧
    (s.cur = none →
      exec (.wrInAddrLo d) s = .next { s with
        inAddrLo := .ofNat 32 (d.toNat % 2 ^ min Config.addrW 32), resp := .ack } ∧
      exec (.wrInAddrHi d) s = .next { s with
        inAddrHi := .ofNat 32 (d.toNat % 2 ^ min (Config.addrW - 32) 32), resp := .ack }) ∧
    (s.cur ≠ none →
      exec (.wrInAddrLo d) s = .next { s with ovr := true, resp := .ack } ∧
      exec (.wrInAddrHi d) s = .next { s with ovr := true, resp := .ack })

/-- R318: `IN_LEN`. -/
def Obligations.InLenAccess : Prop :=
  ∀ (s : State) (d : Word),
    decodeAccess 0x4018 d = .rdInLenLo ∧ decodeAccess 0x5018 d = .wrInLenLo d ∧
    decodeAccess 0x401C d = .rdInLenHi ∧ decodeAccess 0x501C d = .wrInLenHi d ∧
    exec .rdInLenLo s = .next { s with resp := .data s.inLenLo } ∧
    exec .rdInLenHi s = .next { s with resp := .data s.inLenHi } ∧
    (s.cur = none →
      exec (.wrInLenLo d) s = .next { s with inLenLo := d, resp := .ack } ∧
      exec (.wrInLenHi d) s = .next { s with inLenHi := d, resp := .ack }) ∧
    (s.cur ≠ none →
      exec (.wrInLenLo d) s = .next { s with ovr := true, resp := .ack } ∧
      exec (.wrInLenHi d) s = .next { s with ovr := true, resp := .ack })

/-- R319: `PROGRESS` reads 0 while idle; while busy it shows the opcodes of the command and of a `DIGEST`'s sub-command
under some count. Its writes are ignored. -/
def Obligations.ProgressAccess : Prop :=
  ∀ (s : State) (d : Word), decodeAccess 0x4020 d = .rdProgress ∧ decodeAccess 0x5020 d = .wrProgress d ∧
    (s.cur = none → exec .rdProgress s = .next { s with resp := .data 0 }) ∧
    (∀ r, s.cur = some r → ∃ count < 2 ^ 16,
      exec .rdProgress s = .next { s with
        resp := .data (.ofNat 32 (2 ^ 16 * count +
          2 ^ 8 * (match r.stage with | some st => st.sub.code.toNat | none => 0) + r.op.code.toNat))
        fresh := s.fresh + 1 }) ∧
    exec (.wrProgress d) s = .next { s with resp := .ack }

/-- R320: `LAT_IDX` has 24 bits. -/
def Obligations.LatIdxAccess : Prop :=
  ∀ (s : State) (d : Word), decodeAccess 0x4024 d = .rdLatIdx ∧ decodeAccess 0x5024 d = .wrLatIdx d ∧
    exec .rdLatIdx s = .next { s with resp := .data (.ofNat 32 s.latIdx.toNat) } ∧
    (s.cur = none → exec (.wrLatIdx d) s = .next { s with latIdx := .ofNat 24 (d.toNat % 2 ^ 24), resp := .ack }) ∧
    (s.cur ≠ none → exec (.wrLatIdx d) s = .next { s with ovr := true, resp := .ack })

/-- R321: `LAT_DATA` reads and writes the cell that `LAT_IDX` names and moves the index on, the last cell's successor
being cell 0; an undefined cell reads as some byte. While busy a read gives 0, a write sets `OVR`, and the index stays. -/
def Obligations.LatDataAccess : Prop :=
  ∀ (s : State) (d : Word), decodeAccess 0x4028 d = .rdLatData ∧ decodeAccess 0x5028 d = .wrLatData d ∧
    (s.cur ≠ none →
      exec .rdLatData s = .next { s with resp := .data 0 } ∧
      exec (.wrLatData d) s = .next { s with ovr := true, resp := .ack }) ∧
    (s.cur = none →
      (∀ b, s.int.lat.read s.latIdx.toNat = some b →
        exec .rdLatData s = .next { s with
          latIdx := .ofNat 24 ((s.latIdx.toNat + 1) % 2 ^ 24), resp := .data (.ofNat 32 b.toNat) }) ∧
      (s.int.lat.read s.latIdx.toNat = none → ∃ b : Byte,
        exec .rdLatData s = .next { s with
          latIdx := .ofNat 24 ((s.latIdx.toNat + 1) % 2 ^ 24), resp := .data (.ofNat 32 b.toNat), fresh := s.fresh + 1 }) ∧
      (∃ lat : Memory, (∀ x, lat.read x = if x = s.latIdx.toNat then some (.ofNat 8 d.toNat) else s.int.lat.read x) ∧
        exec (.wrLatData d) s = .next { s with
          int := { s.int with lat := lat }, latIdx := .ofNat 24 ((s.latIdx.toNat + 1) % 2 ^ 24), resp := .ack }))

/-- R322: `DIGLEN` reads 0, 64 or 384, and its writes are ignored. -/
def Obligations.DiglenAccess : Prop :=
  ∀ (s : State) (d : Word), decodeAccess 0x402C d = .rdDiglen ∧ decodeAccess 0x502C d = .wrDiglen d ∧
    exec .rdDiglen s = .next { s with resp := .data (.ofNat 32 s.int.digLen.toNat) } ∧
    (s.Inv → s.int.digLen.toNat ∈ [0, 64, 384]) ∧
    exec (.wrDiglen d) s = .next { s with resp := .ack }

/-- R326: `SEEDk` is bits 32k+31 : 32k of `SEED`; a write replaces those bits only, sets `SEEDV`, and leaves the
generator. -/
def Obligations.SeedAccess : Prop :=
  ∀ (s : State) (k : BitVec 3) (d : Word),
    decodeAccess (.ofNat 15 (0x4030 + 4 * k.toNat)) d = .rdSeed k ∧
    decodeAccess (.ofNat 15 (0x5030 + 4 * k.toNat)) d = .wrSeed k d ∧
    (s.cur = none →
      exec (.rdSeed k) s = .next { s with resp := .data (.ofNat 32 (s.int.seed.toNat / 2 ^ (32 * k.toNat))) } ∧
      ∃ seed : BitVec 256,
        (∀ j < 256, seed.getLsbD j =
          if 32 * k.toNat ≤ j ∧ j < 32 * k.toNat + 32 then d.getLsbD (j - 32 * k.toNat) else s.int.seed.getLsbD j) ∧
        exec (.wrSeed k d) s = .next { s with int := { s.int with seed := seed, seedV := true }, resp := .ack }) ∧
    (s.cur ≠ none →
      exec (.rdSeed k) s = .next { s with resp := .data 0 } ∧
      exec (.wrSeed k d) s = .next { s with ovr := true, resp := .ack })

/-- R327: the two words of `ENT`. -/
def Obligations.EntropyAccess : Prop :=
  ∀ (s : State) (d : Word),
    decodeAccess 0x4050 d = .rdEntropyLo ∧ decodeAccess 0x5050 d = .wrEntropyLo d ∧
    decodeAccess 0x4054 d = .rdEntropyHi ∧ decodeAccess 0x5054 d = .wrEntropyHi d ∧
    (s.cur = none →
      exec .rdEntropyLo s = .next { s with resp := .data (.ofNat 32 (s.int.ent.toNat % 2 ^ 32)) } ∧
      exec .rdEntropyHi s = .next { s with resp := .data (.ofNat 32 (s.int.ent.toNat / 2 ^ 32)) }) ∧
    (s.cur ≠ none →
      exec .rdEntropyLo s = .next { s with resp := .data 0 } ∧ exec .rdEntropyHi s = .next { s with resp := .data 0 }) ∧
    exec (.wrEntropyLo d) s = .next { s with resp := .ack } ∧ exec (.wrEntropyHi d) s = .next { s with resp := .ack }

/-- R328: word w of the DIG window, for w = 0 .. 95, with byte j of the buffer in byte lane j mod 4; bytes at or after
`DIGLEN` read 0. -/
def Obligations.DigWindowAccess : Prop :=
  ∀ (s : State) (w : BitVec 7) (d : Word), w.toNat < 96 →
    let byte := fun j => (s.int.dig.getD j 0).toNat
    decodeAccess (.ofNat 15 (0x4100 + 4 * w.toNat)) d = .rdDig w ∧
    decodeAccess (.ofNat 15 (0x5100 + 4 * w.toNat)) d = .wrDig w d ∧
    (s.cur = none →
      exec (.rdDig w) s = .next { s with
        resp := .data (.ofNat 32 (byte (4 * w.toNat) + 2 ^ 8 * byte (4 * w.toNat + 1) +
          2 ^ 16 * byte (4 * w.toNat + 2) + 2 ^ 24 * byte (4 * w.toNat + 3))) }) ∧
    (s.Inv → ∀ j, s.int.digLen.toNat ≤ j → byte j = 0) ∧
    (s.cur ≠ none → exec (.rdDig w) s = .next { s with resp := .data 0 }) ∧
    exec (.wrDig w d) s = .next { s with resp := .ack }

/-- R38: word w of the HEX window, for w = 0 .. 191. -/
def Obligations.HexWindowAccess : Prop :=
  ∀ (s : State) (w : BitVec 8) (d : Word), w.toNat < 192 →
    let byte := fun j => (s.int.hexb.getD j 0).toNat
    decodeAccess (.ofNat 15 (0x4400 + 4 * w.toNat)) d = .rdHex w ∧
    decodeAccess (.ofNat 15 (0x5400 + 4 * w.toNat)) d = .wrHex w d ∧
    (s.cur = none →
      exec (.rdHex w) s = .next { s with
        resp := .data (.ofNat 32 (byte (4 * w.toNat) + 2 ^ 8 * byte (4 * w.toNat + 1) +
          2 ^ 16 * byte (4 * w.toNat + 2) + 2 ^ 24 * byte (4 * w.toNat + 3))) }) ∧
    (s.cur ≠ none → exec (.rdHex w) s = .next { s with resp := .data 0 }) ∧
    exec (.wrHex w d) s = .next { s with resp := .ack }

/-- R323: an aligned reserved offset reads 0 and ignores writes, busy or not. -/
def Obligations.ReservedAccess : Prop :=
  ∀ (s : State) (off : BitVec 12) (d : Word), off.toNat % 4 = 0 →
    ((0x058 ≤ off.toNat ∧ off.toNat ≤ 0x0FF) ∨ (0x280 ≤ off.toNat ∧ off.toNat ≤ 0x3FF) ∨ 0x700 ≤ off.toNat) →
    decodeAccess (.ofNat 15 (0x4000 + off.toNat)) d = .rsvd false off ∧
    decodeAccess (.ofNat 15 (0x5000 + off.toNat)) d = .rsvd true off ∧
    exec (.rsvd false off) s = .next { s with resp := .data 0 } ∧
    exec (.rsvd true off) s = .next { s with resp := .ack }

/-- R324: an access that is not an aligned 32-bit access gets a bus error response and changes no engine state. -/
def Obligations.AccessErrorAnswer : Prop :=
  ∀ (s : State) (had : BitVec 15) (d : Word), (had.toNat / 2 ^ 13 ≠ 2 ∨ had.toNat % 4 ≠ 0) →
    ∃ sz w off, decodeAccess had d = .accessError sz w off ∧
      exec (.accessError sz w off) s = .next { s with resp := .busError }

/-! The command lifecycle. -/

/-- R301 with the tables of R341, R342 and R343: a `CMD` write while busy sets `OVR` and nothing else; while idle the
checks run in the order ILLEGAL, SEQ, RANGE, a rejection writes `DONE` and `ERR` only, and acceptance samples the
operands. -/
def Obligations.CommandIssue : Prop :=
  ∀ (s : State) (w : Word), decodeAccess 0x500C w = .wrCmd w ∧
    (s.cur ≠ none → exec (.wrCmd w) s = .next { s with ovr := true, resp := .ack }) ∧
    (s.cur = none →
      ((w.toNat / 256 ≠ 0 ∨ w.toNat % 256 ∈ [0x0C, 0x0D, 0x0E] ∨ 0x10 ≤ w.toNat % 256) →
        exec (.wrCmd w) s = .next { s with done := true, err := .illegal, resp := .ack }) ∧
      (∀ op : Op, w.toNat = op.code.toNat →
        decodeCommand w = op.instr ∧
        (flagMissing op s.int → exec (.wrCmd w) s = .next { s with done := true, err := .seq, resp := .ack }) ∧
        (¬ flagMissing op s.int → outOfRange op s.addrValue s.lenValue →
          exec (.wrCmd w) s = .next { s with done := true, err := .range, resp := .ack }) ∧
        (¬ flagMissing op s.int → ¬ outOfRange op s.addrValue s.lenValue →
          exec (.wrCmd w) s = .next { s with
            cur := some
              { op := op, stage := none, touched := []
                args :=
                  { inAddr := .ofNat 64 s.addrValue, inLen := .ofNat 64 s.lenValue
                    spMode := s.spMode, outLen := s.outLen, seed := s.int.seed } }
            done := false, resp := .ack })))

/-- A command word as an instruction of its own: while the engine is idle it is issued as a write of `CMD` with that word
(so an illegal one is rejected, R341); while another command runs it is a write of `CMD` that is ignored (R304). That a
command word stands for a `CMD` write is the model's choice (assumption log entries 3, 4 and 24). -/
def Obligations.CommandWordsIssue : Prop :=
  ∀ (s : State) (w : Word),
    (s.cur = none → exec (decodeCommand w) s = exec (.wrCmd w) s) ∧
    (s.cur = none → ∀ rsvd op, decodeCommand w = .illegalCmd rsvd op →
      exec (.illegalCmd rsvd op) s = .next { s with done := true, err := .illegal, resp := .ack }) ∧
    (∀ r, s.cur = some r → decodeCommand w ≠ r.op.instr →
      exec (decodeCommand w) s = .next { s with ovr := true, resp := .ack })

/-- R287: `NOP` goes through the command lifecycle and nothing else: issued, it runs (`BUSY` is 1); on the engine's turn it
completes with `OK`. From reset `STATUS` is then 2, and the interrupt follows `CTRL.IE`. -/
def Obligations.NopLifecycle : Prop :=
  (∀ (s : State) (r : Running), s.cur = some r → r.op = .nop →
    exec .nop s = .next { s with cur := none, done := true, err := .ok }) ∧
  (∀ s : State, s.cur = none → s.inReset = false → s.inputs = [] → ∃ u t,
    step { s with inputs := [.host 0x500C 0] } = .next u ∧ u.busy = true ∧ u.done = false ∧
    Host.Core.run Sys2Proof.core 2 { s with inputs := [.host 0x500C 0, .engine] } = .next t ∧
    t = { s with done := true, err := .ok, resp := .ack } ∧ t.irq = s.ie ∧ (s = State.reset → t.statusWord = 2))

/-! The commands. -/

/-- R180, R181, R182: the seven steps of the chain in order on the whole input, the seed as the big-endian value of the
last digest, and the lattice undefined. -/
def Obligations.ChainCompletes : Prop :=
  ∀ (s : State) (r : Running) (x : List Byte), s.cur = some r → r.op = .chain → s.stableInput r x →
    x.length = r.args.inLen.toNat →
    let pairs := (fun y => sha512 (sha256 y))^[16] x
    let kdf1 := scrypt (shake256 (sha3_512 pairs) 64) Config.saltScrypt (2 ^ 14) 8 1 64
    let d := sha256 (sha512 (pbkdf2 kdf1 Config.saltPbkdf2 100000 32))
    ∃ seed : BitVec 256, (∀ j < 32, d[j]? = some (seed.extractLsb' (8 * (31 - j)) 8)) ∧
      exec .chain s = .next { s with
        int := { s.int with seed := seed, seedV := true, lat := [], latV := false }
        cur := none, done := true, err := .ok, fresh := s.fresh + x.length }

/-- R210, R202: the generator is seeded with the words of the sampled seed, least significant first, without leading zero
words; R201 and R203 as recurrences: `g` are the words of `init_genrand(19650218)`, `a` those after the first 623 rounds
of the first loop of `init_by_array`, and `c` those of its last round (word 1) and of the second loop, whose own last
round comes back to word 1. -/
def Obligations.RngseedCompletes : Prop :=
  ∀ (s : State) (r : Running) (key : List Word), s.cur = some r → r.op = .rngseed →
    key.foldr (fun k rest => k.toNat + 2 ^ 32 * rest) 0 = r.args.seed.toNat →
    key ≠ [] → (key.length ≠ 1 → key.getLast? ≠ some 0) →
    let mix := fun p : Word => p ^^^ p >>> 30
    let keyTerm := fun n => key.getD (n % key.length) 0 + BitVec.ofNat 32 (n % key.length)
    ∃ g a c : Nat → Word,
      g 0 = 19650218 ∧ (∀ i < 623, g (i + 1) = 1812433253 * mix (g i) + .ofNat 32 (i + 1)) ∧
      a 0 = g 0 ∧ (∀ i < 623, a (i + 1) = (g (i + 1) ^^^ mix (a i) * 1664525) + keyTerm i) ∧
      c 1 = (a 1 ^^^ mix (a 623) * 1664525) + keyTerm 623 ∧
      (∀ i < 623, 1 ≤ i → c (i + 1) = (a (i + 1) ^^^ mix (c i) * 1566083941) - .ofNat 32 (i + 1)) ∧
      exec .rngseed s = .next { s with
        int := { s.int with
          mt := ⟨0x80000000 :: ((c 1 ^^^ mix (c 623) * 1566083941) - 1) :: (List.range' 2 622).map c, 624⟩
          prngV := true }
        cur := none, done := true, err := .ok }

/-- R211: cell x of the lattice is draw number x of `draw(256)`, for every x from 0 to 2^24-1, and the generator is the one
after those draws. -/
def Obligations.GenCompletes : Prop :=
  ∀ (s : State) (r : Running), s.cur = some r → r.op = .gen →
    let after := fun n => (fun g : Generator => (g.draw 256).2)^[n] s.int.mt
    ∃ lat : Memory,
      (∀ x, lat.read x = if x < 2 ^ 24 then some (.ofNat 8 ((after x).draw 256).1) else none) ∧
      exec .gen s = .next { s with
        int := { s.int with lat := lat, mt := after (2 ^ 24), latV := true }
        cur := none, done := true, err := .ok }

/-- R235: input byte i, for i below min(IN_LEN, 2^24), is exclusive-ored into the cell whose octal digits are those of i
in reverse order; every other cell stays. That an undefined cell stays undefined is the model's choice (assumption log
entry 23); by R40 the command meets none. -/
def Obligations.LoadCompletes : Prop :=
  ∀ (s : State) (r : Running) (x : List Byte), s.cur = some r → r.op = .load → s.stableInput r x →
    x.length = min r.args.inLen.toNat (2 ^ 24) →
    let cell := fun i => ((List.range 8).map fun d => i / 8 ^ d % 8 * 8 ^ (7 - d)).sum
    ∃ lat : Memory,
      (∀ i b, x[i]? = some b → lat.read (cell i) = (s.int.lat.read (cell i)).map (· ^^^ b)) ∧
      (∀ a, (∀ i < x.length, cell i ≠ a) → lat.read a = s.int.lat.read a) ∧
      exec .load s = .next { s with
        int := { s.int with lat := lat }, cur := none, done := true, err := .ok, fresh := s.fresh + x.length }

/-- R252: every cell goes through the map 256 times, which leaves 24, 43, 97, sends 25, 133 and 222 to 222, and sends
every other value to 0. That an undefined cell stays undefined is the model's choice (assumption log entry 23); by R40 the
command meets none. -/
def Obligations.ChaosCompletes : Prop :=
  ∀ (s : State) (r : Running), s.cur = some r → r.op = .chaos →
    ∃ lat : Memory,
      (∀ x, lat.read x = (s.int.lat.read x).map fun v =>
        if v ∈ [24, 43, 97] then v else if v ∈ [25, 133, 222] then 222 else 0) ∧
      exec .chaos s = .next { s with int := { s.int with lat := lat }, cur := none, done := true, err := .ok }

/-- R255: `S b` is the sum after the byte values below b in ascending order: a byte value that occurs c > 0 times among the
n input bytes adds `RN(p * log2c(p))` for `p = RN(c / n)`, each sum rounded once; E is `RN(0.0 - S 256)`, and +0.0 for an
empty input. R256: cell x is exclusive-ored with `floor(RN(E * s)) mod 256` for the sum s of the octal digits of x, and
`ENT` is the encoding of E. What `RN` and `log2c` answer is stated in `RoundingIsToNearestEven` and
`LogarithmDigitsAreExact`. That an undefined cell stays undefined is the model's choice (assumption log entry 23); by R40
the command meets none. -/
def Obligations.EntropyCompletes : Prop :=
  ∀ (s : State) (r : Running) (x : List Byte) (S : Nat → F64), s.cur = some r → r.op = .entropy → s.stableInput r x →
    x.length = r.args.inLen.toNat →
    S 0 = ⟨0, 0⟩ →
    (∀ b < 256, S (b + 1) =
      let c := x.count (BitVec.ofNat 8 b)
      let p := roundPositive c x.length
      if c = 0 then S b else (S b).add (p.mul p.log2c)) →
    let e := if x.length = 0 then ⟨0, 0⟩ else (S 256).zeroMinus
    let digitSum := fun a : Nat => ((List.range 8).map fun d => a / 8 ^ d % 8).sum
    ∃ lat : Memory,
      (∀ a, lat.read a = (s.int.lat.read a).map fun v => v ^^^ .ofNat 8 (e.mul ⟨digitSum a, 0⟩).floorNat) ∧
      exec .entropy s = .next { s with
        int := { s.int with lat := lat, ent := e.encode }
        cur := none, done := true, err := .ok, fresh := s.fresh + x.length }

/-- R260: every cell value v becomes (v * 8 + 17) mod 256. That an undefined cell stays undefined is the model's choice
(assumption log entry 23); by R40 the command meets none. -/
def Obligations.DiffuseCompletes : Prop :=
  ∀ (s : State) (r : Running), s.cur = some r → r.op = .diffuse →
    ∃ lat : Memory,
      (∀ x, lat.read x = (s.int.lat.read x).map fun v => .ofNat 8 (v.toNat * 8 + 17)) ∧
      exec .diffuse s = .next { s with int := { s.int with lat := lat }, cur := none, done := true, err := .ok }

/-- R263: 512 iterations, each of eight coordinate draws in axis order and then one byte draw; every cell ends as its old
value exclusive-ored with the bytes of all iterations that drew its coordinates. That an undefined cell stays undefined is
the model's choice (assumption log entry 23); by R40 the command meets none. -/
def Obligations.WalkCompletes : Prop :=
  ∀ (s : State) (r : Running), s.cur = some r → r.op = .walk →
    let coords := fun g : Generator => Generator.draws 8 8 g
    let value := fun g : Generator => (coords g).2.draw 256
    let after := fun n => (fun g : Generator => (value g).2)^[n] s.int.mt
    let cell := fun n => ((List.range 8).map fun d => (coords (after n)).1.getD d 0 * 8 ^ (7 - d)).sum
    let hits := fun a => (List.range 512).filter fun n => cell n == a
    ∃ lat : Memory,
      (∀ a, lat.read a = (s.int.lat.read a).map fun v =>
        (hits a).foldl (fun acc n => acc ^^^ .ofNat 8 (value (after n)).1) v) ∧
      exec .walk s = .next { s with
        int := { s.int with lat := lat, mt := after 512 }, cur := none, done := true, err := .ok }

/-- R283 with R280, R281 and R282: the round digests of the flattened lattice in the sampled re-absorption mode, and the
digest buffer in the sampled output mode; the lattice stays. -/
def Obligations.FoldCompletes : Prop :=
  ∀ (s : State) (r : Running) (d : Nat → List Byte), s.Inv → s.int.latV = true → s.cur = some r → r.op = .fold →
    let flatLat := (List.range (2 ^ 24)).map fun x => (s.int.lat.read x).getD 0
    d 0 = sha512 flatLat →
    (∀ k < 6, d (k + 1) =
      if r.args.spMode then sha512 (d k) else sha512 (flatLat ++ ((List.range (k + 1)).map d).flatten)) →
    exec .fold s = .next { s with
      int := { s.int with
        dig := if r.args.outLen then d 6 ++ List.replicate 320 0 else d 1 ++ d 2 ++ d 3 ++ d 4 ++ d 5 ++ d 6
        digLen := if r.args.outLen then 64 else 384
        digV := true, hexV := false }
      cur := none, done := true, err := .ok }

/-- R285: two lowercase hexadecimal characters for each digest byte, the high nibble first, and zeros after them. -/
def Obligations.HexCompletes : Prop :=
  ∀ (s : State) (r : Running), s.Inv → s.cur = some r → r.op = .hex →
    let hexch := fun n => if n < 10 then 0x30 + n else 0x61 + (n - 10)
    ∃ hexb : List Byte, hexb.length = 768 ∧
      (∀ j < s.int.digLen.toNat, ∃ b, s.int.dig[j]? = some b ∧
        hexb[2 * j]? = some (.ofNat 8 (hexch (b.toNat / 16))) ∧
        hexb[2 * j + 1]? = some (.ofNat 8 (hexch (b.toNat % 16)))) ∧
      (∀ j, 2 * s.int.digLen.toNat ≤ j → j < 768 → hexb[j]? = some 0) ∧
      exec .hex s = .next { s with
        int := { s.int with hexb := hexb, hexV := true }, cur := none, done := true, err := .ok }

/-- R236: every cell is 0 and `LATV = 1`. -/
def Obligations.LatzeroCompletes : Prop :=
  ∀ (s : State) (r : Running), s.cur = some r → r.op = .latzero →
    ∃ lat : Memory, (∀ x, lat.read x = if x < 2 ^ 24 then some 0 else none) ∧
      exec .latzero s = .next { s with
        int := { s.int with lat := lat, latV := true }, cur := none, done := true, err := .ok }

/-- R288, R303: the turns of a running `DIGEST`. It starts with `CHAIN`. A stage does what its command does, run by
itself on the same internal state with the same operands; if that ends with `OK` the next command of the list has its
turn, and after the last one, or at the first error, the `DIGEST` completes with that outcome. One turn for each stage is
the model's choice, which R303 allows (assumption log entry 12). -/
def Obligations.DigestTurns : Prop :=
  ∀ (s : State) (r : Running), s.cur = some r → r.op = .digest →
    let order := [Op.chain, .rngseed, .gen, .load, .chaos, .entropy, .diffuse, .walk, .fold, .hex]
    (r.stage = none → exec .digest s = .next { s with cur := some { r with stage := some ⟨.chain, s.int⟩ } }) ∧
    (∀ (n : Nat) (sub : Op) (w : Internal), order[n]? = some sub → r.stage = some ⟨sub, w⟩ →
      ∃ u, exec sub.instr { s with
          int := w, cur := some { op := sub, args := { r.args with seed := w.seed }, stage := none, touched := r.touched } }
          = .next u ∧
        (∀ sub', u.err = .ok → order[n + 1]? = some sub' →
          exec .digest s = .next { s with cur := some { r with stage := some ⟨sub', u.int⟩ }, fresh := u.fresh }) ∧
        ((u.err ≠ .ok ∨ n = 9) →
          exec .digest s = .next { s with int := u.int, cur := none, done := true, err := u.err, fresh := u.fresh }))

/-- R344: when a read of an input byte answers with a bus error, `CHAIN` and `ENTROPY` leave the internal state, `LOAD`
leaves every cell of an input position it would have loaded undefined, with the other cells as they were, and clears
`LATV`; a `DIGEST` ends with the state its earlier stages left and the failing stage's own effect. (`fresh` counts the
reads, assumption log entry 6.) -/
def Obligations.BusErrorEffects : Prop :=
  ∀ (s : State) (r : Running) (n i : Nat), s.cur = some r → r.touched = [] → i < n →
    s.mem.read (r.args.inAddr.toNat + i) = none →
    let ends := fun w : Internal => { s with int := w, cur := none, done := true, err := .bus, fresh := s.fresh + n }
    let cell := fun k => ((List.range 8).map fun d => k / 8 ^ d % 8 * 8 ^ (7 - d)).sum
    let unloaded := fun w w' : Internal =>
      w' = { w with lat := w'.lat, latV := false } ∧ (∀ k < n, w'.lat.read (cell k) = none) ∧
      (∀ a, (∀ k < n, cell k ≠ a) → w'.lat.read a = w.lat.read a)
    (n = r.args.inLen.toNat →
      (r.op = .chain → exec .chain s = .next (ends s.int)) ∧
      (r.op = .entropy → exec .entropy s = .next (ends s.int)) ∧
      (∀ sub w, sub ∈ [Op.chain, .entropy] → r.op = .digest → r.stage = some ⟨sub, w⟩ →
        exec .digest s = .next (ends w))) ∧
    (n = min r.args.inLen.toNat (2 ^ 24) →
      (r.op = .load → ∃ w, unloaded s.int w ∧ exec .load s = .next (ends w)) ∧
      (∀ w, r.op = .digest → r.stage = some ⟨.load, w⟩ → ∃ w', unloaded w w' ∧ exec .digest s = .next (ends w')))

/-! The whole pipeline. -/

/-- R288: after its acceptance a `DIGEST` of readable input runs the ten stages in order, each on what the one before
left, and completes with `OK`. That this takes eleven turns, and that with no event pending every step is the engine's
turn, is the model's choice (assumption log entries 12 and 19). -/
def Obligations.DigestRunsThePipeline : Prop :=
  ∀ (s : State) (r : Running) (x : List Byte), s.inReset = false → s.inputs = [] → s.cur = some r → r.op = .digest →
    r.stage = none → s.stableInput r x → x.length = r.args.inLen.toNat →
    let w1 := (chainEffect (some x) s.int).1
    let w2 := (rngseedEffect w1.seed w1).1
    let w3 := (genEffect w2).1
    let w4 := (loadEffect (min x.length latSize) (some (x.take latSize)) w3).1
    let w5 := (chaosEffect w4).1
    let w6 := (entropyEffect (some x) w5).1
    let w7 := (diffuseEffect w6).1
    let w8 := (walkEffect w7).1
    let w9 := (foldEffect r.args.spMode r.args.outLen w8).1
    Host.Core.run Sys2Proof.core 11 s = .next { s with
      int := (hexEffect w9).1, cur := none, done := true, err := .ok
      fresh := s.fresh + (x.length + min x.length latSize + x.length) }

/-- R386: a program that issues the ten stages one by one, each followed by the engine's turn, ends with the same internal
state as one `DIGEST` with the same registers, and both end with `OK`. The step counts 12 and 20 are the model's: one
turn for each stage and the engine's turn when no event is pending (assumption log entries 12 and 19). -/
def Obligations.StagesMatchDigest : Prop :=
  ∀ (s : State) (x : List Byte), s.inReset = false → s.cur = none → ¬ outOfRange .digest s.addrValue s.lenValue →
    x.length = s.lenValue → (∀ i < x.length, s.mem.read (s.addrValue + i) = x[i]?) →
    ∃ t u,
      Host.Core.run Sys2Proof.core 12 { s with inputs := [.host 0x500C 0x0000000F] } = .next t ∧
      Host.Core.run Sys2Proof.core 20
        { s with inputs := [1, 2, 3, 4, 5, 6, 7, 8, 9, 10].flatMap fun w => [.host 0x500C w, .engine] } = .next u ∧
      t.int = u.int ∧ t.cur = none ∧ u.cur = none ∧ t.err = .ok ∧ u.err = .ok

/-- R288's corner case and R289: a `DIGEST` makes no use of the state from before it but its operands, so two of equal
input and modes end with the same internal state, whatever was there before; and `DIGLEN` depends on `CTRL.OUTLEN`
alone. The eleven steps are the model's: one turn for each stage and the engine's turn when no event is pending
(assumption log entries 12 and 19). -/
def Obligations.DigestIgnoresEarlierState : Prop :=
  ∀ (s s' : State) (r r' : Running) (x : List Byte),
    s.inReset = false → s.inputs = [] → s.cur = some r → r.op = .digest → r.stage = none → s.stableInput r x →
    s'.inReset = false → s'.inputs = [] → s'.cur = some r' → r'.op = .digest → r'.stage = none → s'.stableInput r' x →
    x.length = r.args.inLen.toNat → x.length = r'.args.inLen.toNat →
    r.args.spMode = r'.args.spMode → r.args.outLen = r'.args.outLen →
    ∃ t t', Host.Core.run Sys2Proof.core 11 s = .next t ∧ Host.Core.run Sys2Proof.core 11 s' = .next t' ∧
      t.int = t'.int ∧ t.int.digLen = if r.args.outLen then 64 else 384

/-- R85: an agent's write of system memory changes that address alone, on an idle engine nothing else, and while a command
runs it is remembered; every input byte that a command reads is what memory holds or what it held earlier in the command;
the read is a bus error only where one of those is. How the model keeps the earlier values is its choice (assumption log
entry 7). -/
def Obligations.InputBytesAreOldOrNew : Prop :=
  (∀ (s : State) (a : BitVec 64) (v : Option Byte) (rest : List Event), s.inputs = .memory a v :: rest →
    ∃ t, step s = .next t ∧ (∀ b, t.mem.read b = if b = a.toNat then v else s.mem.read b) ∧
      (s.cur = none → t = { s with inputs := rest, mem := t.mem }) ∧
      (∀ r, s.cur = some r → t = { s with
        inputs := rest, mem := t.mem
        cur := some { r with touched := (a.toNat, s.mem.read a.toNat) :: r.touched } })) ∧
  (∀ (s : State) (r : Running) (n : Nat),
    let mayRead := fun i v => v = s.mem.read (r.args.inAddr.toNat + i) ∨ (r.args.inAddr.toNat + i, v) ∈ r.touched
    (∀ x, s.input r n = some x → x.length = n ∧ ∀ i < n, mayRead i x[i]?) ∧
    (s.input r n = none → ∃ i < n, mayRead i none))

/-- R300, R396: a running command ends after at most eleven engine turns (assumption log entries 12 and 19), with `DONE`, and with `OK` or `BUS` (R345). -/
def Obligations.EveryCommandCompletes : Prop :=
  ∀ (s : State) (r : Running), s.inReset = false → s.inputs = [] → s.cur = some r →
    ∃ k ≤ 11, ∃ t, Host.Core.run Sys2Proof.core k s = .next t ∧ t.cur = none ∧ t.done = true ∧
      (t.err = .ok ∨ t.err = .bus)

/-- R88, R304, R305, R315: while a command runs, no host access changes it, the internal state, memory, or a register but
`STATUS.DONE` and `STATUS.OVR`: `OVR`, an acknowledged `DONE`, and the answer move, and the access always gets its
answer. -/
def Obligations.HostCannotDisturbRunning : Prop :=
  ∀ (s : State) (had : BitVec 15) (d : Word), s.cur ≠ none →
    ∃ done ovr resp fresh, exec (decodeAccess had d) s =
      .next { s with done := done, ovr := ovr, resp := resp, fresh := fresh } ∧
      (done = true → s.done = true) ∧ resp ≠ .none

/-! Who may change what. -/

/-- R27: the writers of each valid flag (a `DIGEST` changes them through its stages, see `DigestTurns`). -/
def Obligations.ValidFlagWriters : Prop :=
  ∀ (i : Instr) (s t : State), exec i s = .next t → i ≠ .digest →
    let ended := fun e => s.cur ≠ none ∧ t.cur = none ∧ t.err = e
    (t.int.seedV ≠ s.int.seedV → t.int.seedV = true ∧ ((i = .chain ∧ ended .ok) ∨ ∃ k d, i = .wrSeed k d)) ∧
    (t.int.prngV ≠ s.int.prngV → t.int.prngV = true ∧ i = .rngseed ∧ ended .ok) ∧
    (t.int.latV ≠ s.int.latV →
      (t.int.latV = true ∧ (i = .gen ∨ i = .latzero) ∧ ended .ok) ∨
      (t.int.latV = false ∧ ((i = .chain ∧ ended .ok) ∨ (i = .load ∧ ended .bus)))) ∧
    (t.int.digV ≠ s.int.digV → t.int.digV = true ∧ i = .fold ∧ ended .ok) ∧
    (t.int.hexV ≠ s.int.hexV → (t.int.hexV = true ∧ i = .hex ∧ ended .ok) ∨ (t.int.hexV = false ∧ i = .fold ∧ ended .ok))

/-- The writers of each piece of internal state: R41 (`SEED`), R207 (`MT`), R40 (the lattice), R43 (`ENT`), R44 (`DIG`,
`DIGLEN`), R45 (`HEXB`); a `DIGEST` through its stages. -/
def Obligations.InternalStateWriters : Prop :=
  ∀ (i : Instr) (s t : State), exec i s = .next t → i ≠ .digest →
    (t.int.seed ≠ s.int.seed → i = .chain ∨ ∃ k d, i = .wrSeed k d) ∧
    (t.int.mt ≠ s.int.mt → i ∈ [Instr.rngseed, .gen, .walk]) ∧
    (t.int.lat ≠ s.int.lat →
      i ∈ [Instr.chain, .gen, .load, .chaos, .entropy, .diffuse, .walk, .latzero] ∨ ∃ d, i = .wrLatData d) ∧
    (t.int.ent ≠ s.int.ent → i = .entropy) ∧
    (t.int.dig ≠ s.int.dig ∨ t.int.digLen ≠ s.int.digLen → i = .fold) ∧
    (t.int.hexb ≠ s.int.hexb → i = .hex)

/-- The writers of the host registers (R24, R25, R26, R29, R30, R32, R48), and R72: no instruction writes system memory.
`ERR` is written at rejection and completion; `DONE` changes at acceptance, rejection, completion and its acknowledgement,
`BUSY` at acceptance and completion; `OVR` rises by a protected write while busy and falls by its acknowledgement. That a
command word counts as a write of `CMD` is the model's choice (assumption log entries 4 and 24). -/
def Obligations.RegisterWriters : Prop :=
  ∀ (i : Instr) (s t : State), exec i s = .next t →
    t.mem = s.mem ∧ t.inputs = s.inputs ∧ t.inReset = s.inReset ∧
    (t.ie ≠ s.ie ∨ t.spMode ≠ s.spMode ∨ t.outLen ≠ s.outLen → ∃ d, i = .wrCtrl d) ∧
    (t.inAddrLo ≠ s.inAddrLo → ∃ d, i = .wrInAddrLo d) ∧ (t.inAddrHi ≠ s.inAddrHi → ∃ d, i = .wrInAddrHi d) ∧
    (t.inLenLo ≠ s.inLenLo → ∃ d, i = .wrInLenLo d) ∧ (t.inLenHi ≠ s.inLenHi → ∃ d, i = .wrInLenHi d) ∧
    (t.latIdx ≠ s.latIdx → i = .rdLatData ∨ ∃ d, i = .wrLatData d ∨ i = .wrLatIdx d) ∧
    (t.err ≠ s.err → rejects i s t ∨ completes i s t) ∧
    (t.busy ≠ s.busy → accepts i s t ∨ completes i s t) ∧
    (t.done ≠ s.done → accepts i s t ∨ rejects i s t ∨ completes i s t ∨
      ∃ d, i = .wrStatus d ∧ d.getLsbD 1 = true ∧ t.done = false) ∧
    (t.ovr ≠ s.ovr → (protectedWrite i ∧ s.cur ≠ none ∧ t.ovr = true) ∨
      ∃ d, i = .wrStatus d ∧ d.getLsbD 2 = true ∧ t.ovr = false)

/-- R306: the interrupt output changes only at acceptance, rejection, completion, a `STATUS` write that clears `DONE`, or
a `CTRL` write that changes `IE`; it is `IE` and `DONE` (R350). Acceptance and rejection are those of a command word that
the instruction issues, completion is that of the running command on its turn. That a command word counts as a write of
`CMD` is the model's choice (assumption log entries 4 and 24). -/
def Obligations.InterruptChanges : Prop :=
  ∀ (i : Instr) (s t : State), exec i s = .next t →
    (t.irq = true ↔ t.ie = true ∧ t.done = true) ∧
    (t.irq ≠ s.irq →
      accepts i s t ∨ rejects i s t ∨ completes i s t ∨
      (∃ d, i = .wrStatus d ∧ d.getLsbD 1 = true ∧ s.done = true ∧ t.done = false) ∨
      (∃ d, i = .wrCtrl d ∧ t.ie ≠ s.ie))

/-! Definitions that the commands rest on. -/

/-- R230, R231, R232: flat index and coordinates are inverse to each other, `csum` adds the coordinates, and the loader's
map is one-to-one on 0 .. 2^24-1 and its own inverse. -/
def Obligations.LatticeCoordinates : Prop :=
  (∀ a : Fin 8 → Fin 8,
    let x := flat (List.ofFn fun d => (a d).val)
    x = ∑ d : Fin 8, (a d).val * 8 ^ (7 - d.val) ∧ x < 2 ^ 24 ∧ ∀ d : Fin 8, coord x d = a d) ∧
  (∀ x < 2 ^ 24, flat ((List.range 8).map (coord x)) = x ∧
    (∀ d < 8, coord x d = (x >>> (3 * (7 - d))) &&& 7) ∧
    csum x = ∑ d : Fin 8, coord x d ∧ csum x ≤ 56 ∧
    (∀ d < 8, coord (ldidx x) d = x / 8 ^ d % 8) ∧ ldidx x < 2 ^ 24 ∧ ldidx (ldidx x) = x)

/-- R204: the twist as a recurrence on old and new words: step k reads the new words at the indices below k. -/
def Obligations.TwistRecurrence : Prop :=
  ∀ g : Generator, g.words.length = 624 → g.twist.words.length = 624 ∧ g.twist.index = 0 ∧
    ∀ k < 624,
      let old := fun j => g.words.getD j 0
      let new := fun j => g.twist.words.getD j 0
      let y := (old k &&& 0x80000000) ||| ((if k = 623 then new 0 else old (k + 1)) &&& 0x7FFFFFFF)
      new k = (if k < 227 then old (k + 397) else new (k - 227)) ^^^ y >>> 1 ^^^
        (if y.getLsbD 0 then 0x9908B0DF else 0)

/-- R206: `draw(8)` and `draw(256)` give the top bits of the first output that falls below the bound, and the generator
after it, for any number of rejected outputs up to the model's bound (assumption log entry 11: one period of outputs). -/
def Obligations.DrawIsFirstAccepted : Prop :=
  ∀ (g : Generator) (n shift k : Nat), (n, shift) ∈ [(8, 28), (256, 23)] → k < drawTries →
    let after := fun j => (fun h : Generator => h.u32.2)^[j] g
    let top := fun j => (after j).u32.1.toNat / 2 ^ shift
    (∀ j < k, n ≤ top j) → top k < n → g.draw n = (top k, after (k + 1))

/-- R12: `RN`, of a quotient of positive integers, of a product, of a sum and of `0.0 - x`, is a value of the format,
none of the format lies nearer, and where another one lies equally near the mantissa is even (`F64.Rounds`); a quotient
lies within half a unit of the last place. The exponent has no upper bound: the model's choice (assumption log entry
20). -/
def Obligations.RoundingIsToNearestEven : Prop :=
  (∀ a b : Nat, 0 < a → 0 < b →
    let v := roundPositive a b
    0 ≤ v.man ∧ 2 * |(a : ℝ) / b - v.man * (2 : ℝ) ^ v.exp| ≤ (2 : ℝ) ^ v.exp ∧ v.Rounds ((a : ℝ) / b)) ∧
  (∀ x y : F64,
    (x.mul y).Rounds ((x.man * (2 : ℝ) ^ x.exp) * (y.man * (2 : ℝ) ^ y.exp)) ∧
    (x.add y).Rounds (x.man * (2 : ℝ) ^ x.exp + y.man * (2 : ℝ) ^ y.exp) ∧
    x.zeroMinus.Rounds (0 - x.man * (2 : ℝ) ^ x.exp))

/-- R255: `log2c(p)` is the correctly rounded base-2 logarithm of p, for every p with a mantissa of 53 bits. The digits
that it rounds are exact: for a working mantissa M in [2^512, 2^513) those of `logDigits` are the floor of 2^128 times the
base-2 logarithm of M / 2^512, and for every mantissa m, whether 512 bits settle them or not, those of `logFloor` are the
floor of 2^128 times the base-2 logarithm of m / 2^52 (assumption log entry 10). The exponent of p is any: the model's
choice (assumption log entry 20). -/
def Obligations.LogarithmDigitsAreExact : Prop :=
  (∀ m d : Nat, 2 ^ 512 ≤ m → m < 2 ^ 513 → logDigits 128 m m 0 = some d →
    (d : ℤ) = ⌊(2 : ℝ) ^ 128 * Real.logb 2 ((m : ℝ) / 2 ^ 512)⌋) ∧
  (∀ m : Nat, 2 ^ 52 ≤ m → m < 2 ^ 53 →
    (logFloor m : ℤ) = ⌊(2 : ℝ) ^ 128 * Real.logb 2 ((m : ℝ) / 2 ^ 52)⌋ ∧
    ∀ e : ℤ, (F64.log2c ⟨m, e⟩).Rounds (Real.logb 2 ((m : ℝ) * (2 : ℝ) ^ e)))

/-- R250: the chaos table is the floor of 256 times the real sine of each byte value, modulo 256. -/
def Obligations.ChaosTableIsTheSine : Prop :=
  ∀ v : Byte, ((chaosMap v).toNat : ℤ) = ⌊Real.sin v.toNat * 256⌋ % 256
end

