-- ==== Sys2Proof/Laws/Memory.lean ====
section
/-! SUPPORT. What the memory operations do: reading one byte after each of them, that each keeps the canonical form, and
that a memory in canonical form is determined by its reads. -/

namespace Sys2Proof.Machine

/-! The canonical form as sortedness. -/

/-- The canonical form says that the addresses rise strictly. -/
theorem Memory.wf_iff_sorted (m : Memory) : m.wf = true ↔ (m.map (·.1)).Pairwise (· < ·) := by
  induction m with
  | nil => simp [Memory.wf]
  | cons c rest ih =>
    cases rest with
    | nil => simp [Memory.wf]
    | cons c' rest =>
      simp only [Memory.wf, Bool.and_eq_true, decide_eq_true_eq, ih, List.map_cons, List.pairwise_cons, List.mem_cons,
        List.mem_map, forall_eq_or_imp]
      constructor
      · rintro ⟨h, h1, h2⟩
        exact ⟨⟨h, fun a ha => h.trans (h1 a ha)⟩, h1, h2⟩
      · rintro ⟨⟨h, -⟩, h1, h2⟩
        exact ⟨h, h1, h2⟩

theorem Memory.wf_tail {c : Host.Cell} {m : Memory} (h : Memory.wf (c :: m) = true) : m.wf = true := by
  rw [Memory.wf_iff_sorted] at h ⊢
  exact (List.pairwise_cons.1 h).2

theorem Memory.lt_of_mem_tail {c c' : Host.Cell} {m : Memory} (h : Memory.wf (c :: m) = true) (hc : c' ∈ m) : c.1 < c'.1 := by
  rw [Memory.wf_iff_sorted] at h
  exact (List.pairwise_cons.1 h).1 _ (List.mem_map_of_mem hc)

/-! Reading. -/

@[simp] theorem Memory.read_nil (a : Nat) : Memory.read [] a = none := rfl

theorem Memory.read_cons (c : Host.Cell) (m : Memory) (a : Nat) :
    Memory.read (c :: m) a = if c.1 = a then some c.2 else m.read a := rfl

/-- An address that no entry has reads as nothing. -/
theorem Memory.read_eq_none {m : Memory} {a : Nat} : m.read a = none ↔ ∀ c ∈ m, c.1 ≠ a := by
  induction m with
  | nil => simp
  | cons c rest ih => by_cases h : c.1 = a <;> simp [Memory.read_cons, h, ih]

/-- A read gives the byte of an entry. -/
theorem Memory.mem_of_read {m : Memory} {a : Nat} {b : Byte} (h : m.read a = some b) : (a, b) ∈ m := by
  induction m with
  | nil => simp at h
  | cons c rest ih =>
    rw [Memory.read_cons] at h
    split at h
    · next hc => cases h; subst hc; simp
    · exact List.mem_cons_of_mem _ (ih h)

/-- In canonical form every entry is read. -/
theorem Memory.read_of_mem {m : Memory} (hw : m.wf = true) {a : Nat} {b : Byte} (h : (a, b) ∈ m) : m.read a = some b := by
  induction m with
  | nil => simp at h
  | cons c rest ih =>
    rw [Memory.read_cons]
    rcases List.mem_cons.1 h with rfl | h'
    · simp
    · have := Memory.lt_of_mem_tail hw h'
      rw [if_neg (by simp at this; omega)]
      exact ih (Memory.wf_tail hw) h'

/-- Reading after a write: the byte written at its address, every other address as before. -/
theorem Memory.read_write (m : Memory) (a x : Nat) (b : Byte) :
    (m.write a b).read x = if x = a then some b else m.read x := by
  induction m with
  | nil => simp [Memory.write, Memory.read_cons, eq_comm]
  | cons c rest ih =>
    simp only [Memory.write]
    split
    · simp [Memory.read_cons, eq_comm]
    · split
      · next h => subst h; rw [Memory.read_cons, Memory.read_cons]; by_cases hx : x = c.1 <;> simp [hx, eq_comm]
      · next h1 h2 =>
        rw [Memory.read_cons, ih, Memory.read_cons]
        by_cases hx : x = a
        · subst hx; simp [Ne.symm h2]
        · simp [hx]

@[simp] theorem Memory.read_write_same (m : Memory) (a : Nat) (b : Byte) : (m.write a b).read a = some b := by
  simp [Memory.read_write]

theorem Memory.read_write_other (m : Memory) {a x : Nat} (b : Byte) (h : x ≠ a) : (m.write a b).read x = m.read x := by
  simp [Memory.read_write, h]

/-- Reading after an erasure. -/
theorem Memory.read_erase (m : Memory) (a x : Nat) : (m.erase a).read x = if x = a then none else m.read x := by
  induction m with
  | nil => simp [Memory.erase]
  | cons c rest ih =>
    have he : Memory.erase (c :: rest) a = if c.1 = a then Memory.erase rest a else c :: Memory.erase rest a := by
      by_cases h : c.1 = a <;> simp [Memory.erase, h]
    rw [he, Memory.read_cons]
    by_cases hx : x = a
    · subst hx
      by_cases h : c.1 = x <;> simp [h, ih, Memory.read_cons]
    · by_cases h : c.1 = a
      · rw [if_pos h, ih, if_neg hx, if_neg hx, if_neg (by omega)]
      · rw [if_neg h, Memory.read_cons, ih, if_neg hx, if_neg hx]

/-- Reading after a byte is put or taken away. -/
theorem Memory.read_put (m : Memory) (a x : Nat) (v : Option Byte) : (m.put a v).read x = if x = a then v else m.read x := by
  cases v with
  | none => exact Memory.read_erase m a x
  | some b => exact Memory.read_write m a x b

/-- Reading after every byte was changed by a function. -/
@[simp] theorem Memory.read_mapCells (f : Nat → Byte → Byte) (m : Memory) (x : Nat) :
    (m.mapCells f).read x = (m.read x).map (f x) := by
  induction m with
  | nil => rfl
  | cons c rest ih =>
    simp only [Memory.mapCells, List.map_cons, Memory.read_cons] at ih ⊢
    split
    · next h => subst h; rfl
    · exact ih

/-- Reading a tabulated memory. -/
theorem Memory.read_tabulate (f : Nat → Byte) (n i x : Nat) :
    (Memory.tabulate f n i).read x = if i ≤ x ∧ x < i + n then some (f x) else none := by
  induction n generalizing i with
  | zero => simp [Memory.tabulate]
  | succ n ih =>
    simp only [Memory.tabulate, Memory.read_cons, ih]
    by_cases h : i = x
    · subst h; simp
    · rw [if_neg h]
      by_cases h2 : i + 1 ≤ x ∧ x < i + 1 + n
      · rw [if_pos h2, if_pos (by omega)]
      · rw [if_neg h2, if_neg (by omega)]

/-! The canonical form is kept. -/

theorem Memory.mem_write {m : Memory} {a : Nat} {b : Byte} {c : Host.Cell} (h : c ∈ m.write a b) : c = (a, b) ∨ c ∈ m := by
  induction m with
  | nil => simpa [Memory.write] using h
  | cons d rest ih =>
    simp only [Memory.write] at h
    split at h
    · simpa using h
    · split at h
      · rcases List.mem_cons.1 h with h | h
        · exact .inl h
        · exact .inr (List.mem_cons_of_mem _ h)
      · rcases List.mem_cons.1 h with h | h
        · exact .inr (h ▸ List.mem_cons_self)
        · exact (ih h).imp_right (List.mem_cons_of_mem _)

theorem Memory.wf_cons {c : Host.Cell} {m : Memory} (h : ∀ c' ∈ m, c.1 < c'.1) (hw : m.wf = true) :
    Memory.wf (c :: m) = true := by
  rw [Memory.wf_iff_sorted] at hw ⊢
  exact List.pairwise_cons.2 ⟨by simpa using fun a b hab => h (a, b) hab, hw⟩

/-- A write keeps the canonical form. -/
theorem Memory.wf_write {m : Memory} (hw : m.wf = true) (a : Nat) (b : Byte) : (m.write a b).wf = true := by
  induction m with
  | nil => rfl
  | cons c rest ih =>
    have hlt := fun c' (hc' : c' ∈ rest) => Memory.lt_of_mem_tail hw hc'
    simp only [Memory.write]
    split
    · next h =>
      refine Memory.wf_cons (fun c' hc' => ?_) hw
      rcases List.mem_cons.1 hc' with rfl | hc'
      · exact h
      · exact h.trans (hlt _ hc')
    · split
      · next h => exact Memory.wf_cons (fun c' hc' => h ▸ hlt _ hc') (Memory.wf_tail hw)
      · next h1 h2 =>
        refine Memory.wf_cons (fun c' hc' => ?_) (ih (Memory.wf_tail hw))
        rcases Memory.mem_write hc' with rfl | hc'
        · show c.1 < a; omega
        · exact hlt _ hc'

/-- An erasure keeps the canonical form. -/
theorem Memory.wf_erase {m : Memory} (hw : m.wf = true) (a : Nat) : (m.erase a).wf = true := by
  rw [Memory.wf_iff_sorted] at hw ⊢
  exact List.Pairwise.sublist (List.Sublist.map _ List.filter_sublist) hw

/-- Putting or taking away a byte keeps the canonical form. -/
theorem Memory.wf_put {m : Memory} (hw : m.wf = true) (a : Nat) (v : Option Byte) : (m.put a v).wf = true := by
  cases v with
  | none => exact Memory.wf_erase hw a
  | some b => exact Memory.wf_write hw a b

theorem Memory.keys_mapCells (f : Nat → Byte → Byte) (m : Memory) : (m.mapCells f).map (·.1) = m.map (·.1) := by
  simp [Memory.mapCells]

/-- Changing every byte keeps the canonical form. -/
theorem Memory.wf_mapCells {m : Memory} (hw : m.wf = true) (f : Nat → Byte → Byte) : (m.mapCells f).wf = true := by
  rw [Memory.wf_iff_sorted] at hw ⊢
  rwa [Memory.keys_mapCells]

theorem Memory.mem_tabulate {f : Nat → Byte} {n i : Nat} {c : Host.Cell} (h : c ∈ Memory.tabulate f n i) :
    i ≤ c.1 ∧ c.1 < i + n := by
  induction n generalizing i with
  | zero => simp [Memory.tabulate] at h
  | succ n ih =>
    rcases List.mem_cons.1 h with rfl | h
    · simp
    · have := ih h; omega

/-- A tabulated memory is in canonical form. -/
theorem Memory.wf_tabulate (f : Nat → Byte) (n i : Nat) : (Memory.tabulate f n i).wf = true := by
  induction n generalizing i with
  | zero => rfl
  | succ n ih => exact Memory.wf_cons (fun c hc => by have := Memory.mem_tabulate hc; show i < c.1; omega) (ih _)

/-- Two memories in canonical form with the same reads are equal. -/
theorem Memory.ext_read {m m' : Memory} (hw : m.wf = true) (hw' : m'.wf = true) (h : ∀ a, m.read a = m'.read a) : m = m' := by
  induction m generalizing m' with
  | nil =>
    cases m' with
    | nil => rfl
    | cons c' rest' => have := h c'.1; simp [Memory.read_cons] at this
  | cons c rest ih =>
    cases m' with
    | nil => have := h c.1; simp [Memory.read_cons] at this
    | cons c' rest' =>
      have hc : (c.1, c.2) ∈ c' :: rest' := Memory.mem_of_read (by rw [← h]; simp [Memory.read_cons])
      have hc' : (c'.1, c'.2) ∈ c :: rest := Memory.mem_of_read (by rw [h]; simp [Memory.read_cons])
      have heq : c = c' := by
        rcases List.mem_cons.1 hc with h1 | h1
        · exact h1
        rcases List.mem_cons.1 hc' with h2 | h2
        · exact h2.symm
        have h3 := Memory.lt_of_mem_tail hw' h1
        have h4 := Memory.lt_of_mem_tail hw h2
        simp only at h3 h4
        omega
      subst heq
      refine congrArg _ (ih (Memory.wf_tail hw) (Memory.wf_tail hw') fun a => ?_)
      have ha := h a
      simp only [Memory.read_cons] at ha
      by_cases hca : c.1 = a
      · have h1 : Memory.read rest a = none := Memory.read_eq_none.2 fun d hd => by
          have := Memory.lt_of_mem_tail hw hd; omega
        have h2 : Memory.read rest' a = none := Memory.read_eq_none.2 fun d hd => by
          have := Memory.lt_of_mem_tail hw' hd; omega
        rw [h1, h2]
      · simpa [hca] using ha

/-! The lattice operations. -/

/-- Reading after an exclusive-or into a cell. -/
theorem read_xorCell (lat : Memory) (a x : Nat) (v : Byte) :
    (xorCell lat a v).read x = if x = a then (lat.read x).map (· ^^^ v) else lat.read x := by
  unfold xorCell
  split
  · next h => by_cases hx : x = a <;> simp [hx, h]
  · next b h => by_cases hx : x = a <;> simp [hx, h, Memory.read_write]

/-- An exclusive-or into a cell keeps the canonical form. -/
theorem wf_xorCell {lat : Memory} (hw : lat.wf = true) (a : Nat) (v : Byte) : (xorCell lat a v).wf = true := by
  unfold xorCell
  split
  · exact hw
  · exact Memory.wf_write hw _ _

/-- The loop of `LOAD` keeps the canonical form. -/
theorem wf_loadBytes (bytes : List Byte) (i : Nat) {lat : Memory} (hw : lat.wf = true) :
    (loadBytes bytes i lat).wf = true := by
  induction bytes generalizing i lat with
  | nil => exact hw
  | cons b rest ih => exact ih _ (wf_xorCell hw _ _)

/-- Making cells undefined keeps the canonical form. -/
theorem wf_unloadCells (n i : Nat) {lat : Memory} (hw : lat.wf = true) : (unloadCells n i lat).wf = true := by
  induction n generalizing i lat with
  | zero => exact hw
  | succ n ih => exact ih _ (Memory.wf_erase hw _)

/-- The walk keeps the canonical form. -/
theorem wf_walk (n : Nat) (w : Memory × Generator) (hw : w.1.wf = true) : (walk n w).1.wf = true := by
  induction n generalizing w with
  | zero => exact hw
  | succ n ih => exact ih _ (wf_xorCell hw _ _)

theorem keys_drawCells (n i : Nat) (g : Generator) : (drawCells n i g).1.map (·.1) = List.range' i n := by
  induction n generalizing i g with
  | zero => rfl
  | succ n ih => simp [drawCells, ih, List.range'_succ]

/-- A drawn lattice is in canonical form. -/
theorem wf_drawCells (n i : Nat) (g : Generator) : (drawCells n i g).1.wf = true := by
  rw [Memory.wf_iff_sorted, keys_drawCells]
  exact List.pairwise_lt_range'

end Sys2Proof.Machine
end

