-- ==== Sys2Proof/Laws/State.lean ====
section
/-! SUPPORT. One lemma for each field of State under each of its updates, true by rfl, so that no proof unfolds a record
update. The lemmas of an update are named after it and the field. -/

namespace Sys2Proof.Machine

section

variable (s : State) (d : Word)

@[simp] theorem State.answer_ie : (s.answer d).ie = s.ie := rfl
@[simp] theorem State.answer_spMode : (s.answer d).spMode = s.spMode := rfl
@[simp] theorem State.answer_outLen : (s.answer d).outLen = s.outLen := rfl
@[simp] theorem State.answer_cur : (s.answer d).cur = s.cur := rfl
@[simp] theorem State.answer_done : (s.answer d).done = s.done := rfl
@[simp] theorem State.answer_ovr : (s.answer d).ovr = s.ovr := rfl
@[simp] theorem State.answer_err : (s.answer d).err = s.err := rfl
@[simp] theorem State.answer_inAddrLo : (s.answer d).inAddrLo = s.inAddrLo := rfl
@[simp] theorem State.answer_inAddrHi : (s.answer d).inAddrHi = s.inAddrHi := rfl
@[simp] theorem State.answer_inLenLo : (s.answer d).inLenLo = s.inLenLo := rfl
@[simp] theorem State.answer_inLenHi : (s.answer d).inLenHi = s.inLenHi := rfl
@[simp] theorem State.answer_latIdx : (s.answer d).latIdx = s.latIdx := rfl
@[simp] theorem State.answer_int : (s.answer d).int = s.int := rfl
@[simp] theorem State.answer_mem : (s.answer d).mem = s.mem := rfl
@[simp] theorem State.answer_inReset : (s.answer d).inReset = s.inReset := rfl
@[simp] theorem State.answer_resp : (s.answer d).resp = .data d := rfl
@[simp] theorem State.answer_fresh : (s.answer d).fresh = s.fresh := rfl
@[simp] theorem State.answer_inputs : (s.answer d).inputs = s.inputs := rfl

end

section

variable (s : State)

@[simp] theorem State.ack_ie : (s.ack).ie = s.ie := rfl
@[simp] theorem State.ack_spMode : (s.ack).spMode = s.spMode := rfl
@[simp] theorem State.ack_outLen : (s.ack).outLen = s.outLen := rfl
@[simp] theorem State.ack_cur : (s.ack).cur = s.cur := rfl
@[simp] theorem State.ack_done : (s.ack).done = s.done := rfl
@[simp] theorem State.ack_ovr : (s.ack).ovr = s.ovr := rfl
@[simp] theorem State.ack_err : (s.ack).err = s.err := rfl
@[simp] theorem State.ack_inAddrLo : (s.ack).inAddrLo = s.inAddrLo := rfl
@[simp] theorem State.ack_inAddrHi : (s.ack).inAddrHi = s.inAddrHi := rfl
@[simp] theorem State.ack_inLenLo : (s.ack).inLenLo = s.inLenLo := rfl
@[simp] theorem State.ack_inLenHi : (s.ack).inLenHi = s.inLenHi := rfl
@[simp] theorem State.ack_latIdx : (s.ack).latIdx = s.latIdx := rfl
@[simp] theorem State.ack_int : (s.ack).int = s.int := rfl
@[simp] theorem State.ack_mem : (s.ack).mem = s.mem := rfl
@[simp] theorem State.ack_inReset : (s.ack).inReset = s.inReset := rfl
@[simp] theorem State.ack_resp : (s.ack).resp = .ack := rfl
@[simp] theorem State.ack_fresh : (s.ack).fresh = s.fresh := rfl
@[simp] theorem State.ack_inputs : (s.ack).inputs = s.inputs := rfl

end

section

variable (s : State)

@[simp] theorem State.answerBusError_ie : (s.answerBusError).ie = s.ie := rfl
@[simp] theorem State.answerBusError_spMode : (s.answerBusError).spMode = s.spMode := rfl
@[simp] theorem State.answerBusError_outLen : (s.answerBusError).outLen = s.outLen := rfl
@[simp] theorem State.answerBusError_cur : (s.answerBusError).cur = s.cur := rfl
@[simp] theorem State.answerBusError_done : (s.answerBusError).done = s.done := rfl
@[simp] theorem State.answerBusError_ovr : (s.answerBusError).ovr = s.ovr := rfl
@[simp] theorem State.answerBusError_err : (s.answerBusError).err = s.err := rfl
@[simp] theorem State.answerBusError_inAddrLo : (s.answerBusError).inAddrLo = s.inAddrLo := rfl
@[simp] theorem State.answerBusError_inAddrHi : (s.answerBusError).inAddrHi = s.inAddrHi := rfl
@[simp] theorem State.answerBusError_inLenLo : (s.answerBusError).inLenLo = s.inLenLo := rfl
@[simp] theorem State.answerBusError_inLenHi : (s.answerBusError).inLenHi = s.inLenHi := rfl
@[simp] theorem State.answerBusError_latIdx : (s.answerBusError).latIdx = s.latIdx := rfl
@[simp] theorem State.answerBusError_int : (s.answerBusError).int = s.int := rfl
@[simp] theorem State.answerBusError_mem : (s.answerBusError).mem = s.mem := rfl
@[simp] theorem State.answerBusError_inReset : (s.answerBusError).inReset = s.inReset := rfl
@[simp] theorem State.answerBusError_resp : (s.answerBusError).resp = .busError := rfl
@[simp] theorem State.answerBusError_fresh : (s.answerBusError).fresh = s.fresh := rfl
@[simp] theorem State.answerBusError_inputs : (s.answerBusError).inputs = s.inputs := rfl

end

section

variable (s : State)

@[simp] theorem State.overrun_ie : (s.overrun).ie = s.ie := rfl
@[simp] theorem State.overrun_spMode : (s.overrun).spMode = s.spMode := rfl
@[simp] theorem State.overrun_outLen : (s.overrun).outLen = s.outLen := rfl
@[simp] theorem State.overrun_cur : (s.overrun).cur = s.cur := rfl
@[simp] theorem State.overrun_done : (s.overrun).done = s.done := rfl
@[simp] theorem State.overrun_ovr : (s.overrun).ovr = true := rfl
@[simp] theorem State.overrun_err : (s.overrun).err = s.err := rfl
@[simp] theorem State.overrun_inAddrLo : (s.overrun).inAddrLo = s.inAddrLo := rfl
@[simp] theorem State.overrun_inAddrHi : (s.overrun).inAddrHi = s.inAddrHi := rfl
@[simp] theorem State.overrun_inLenLo : (s.overrun).inLenLo = s.inLenLo := rfl
@[simp] theorem State.overrun_inLenHi : (s.overrun).inLenHi = s.inLenHi := rfl
@[simp] theorem State.overrun_latIdx : (s.overrun).latIdx = s.latIdx := rfl
@[simp] theorem State.overrun_int : (s.overrun).int = s.int := rfl
@[simp] theorem State.overrun_mem : (s.overrun).mem = s.mem := rfl
@[simp] theorem State.overrun_inReset : (s.overrun).inReset = s.inReset := rfl
@[simp] theorem State.overrun_resp : (s.overrun).resp = .ack := rfl
@[simp] theorem State.overrun_fresh : (s.overrun).fresh = s.fresh := rfl
@[simp] theorem State.overrun_inputs : (s.overrun).inputs = s.inputs := rfl

end

section

variable (s : State) (n : Nat)

@[simp] theorem State.tick_ie : (s.tick n).ie = s.ie := rfl
@[simp] theorem State.tick_spMode : (s.tick n).spMode = s.spMode := rfl
@[simp] theorem State.tick_outLen : (s.tick n).outLen = s.outLen := rfl
@[simp] theorem State.tick_cur : (s.tick n).cur = s.cur := rfl
@[simp] theorem State.tick_done : (s.tick n).done = s.done := rfl
@[simp] theorem State.tick_ovr : (s.tick n).ovr = s.ovr := rfl
@[simp] theorem State.tick_err : (s.tick n).err = s.err := rfl
@[simp] theorem State.tick_inAddrLo : (s.tick n).inAddrLo = s.inAddrLo := rfl
@[simp] theorem State.tick_inAddrHi : (s.tick n).inAddrHi = s.inAddrHi := rfl
@[simp] theorem State.tick_inLenLo : (s.tick n).inLenLo = s.inLenLo := rfl
@[simp] theorem State.tick_inLenHi : (s.tick n).inLenHi = s.inLenHi := rfl
@[simp] theorem State.tick_latIdx : (s.tick n).latIdx = s.latIdx := rfl
@[simp] theorem State.tick_int : (s.tick n).int = s.int := rfl
@[simp] theorem State.tick_mem : (s.tick n).mem = s.mem := rfl
@[simp] theorem State.tick_inReset : (s.tick n).inReset = s.inReset := rfl
@[simp] theorem State.tick_resp : (s.tick n).resp = s.resp := rfl
@[simp] theorem State.tick_fresh : (s.tick n).fresh = s.fresh + n := rfl
@[simp] theorem State.tick_inputs : (s.tick n).inputs = s.inputs := rfl

end

section

variable (s : State) (e : ErrCode)

@[simp] theorem State.reject_ie : (s.reject e).ie = s.ie := rfl
@[simp] theorem State.reject_spMode : (s.reject e).spMode = s.spMode := rfl
@[simp] theorem State.reject_outLen : (s.reject e).outLen = s.outLen := rfl
@[simp] theorem State.reject_cur : (s.reject e).cur = s.cur := rfl
@[simp] theorem State.reject_done : (s.reject e).done = true := rfl
@[simp] theorem State.reject_ovr : (s.reject e).ovr = s.ovr := rfl
@[simp] theorem State.reject_err : (s.reject e).err = e := rfl
@[simp] theorem State.reject_inAddrLo : (s.reject e).inAddrLo = s.inAddrLo := rfl
@[simp] theorem State.reject_inAddrHi : (s.reject e).inAddrHi = s.inAddrHi := rfl
@[simp] theorem State.reject_inLenLo : (s.reject e).inLenLo = s.inLenLo := rfl
@[simp] theorem State.reject_inLenHi : (s.reject e).inLenHi = s.inLenHi := rfl
@[simp] theorem State.reject_latIdx : (s.reject e).latIdx = s.latIdx := rfl
@[simp] theorem State.reject_int : (s.reject e).int = s.int := rfl
@[simp] theorem State.reject_mem : (s.reject e).mem = s.mem := rfl
@[simp] theorem State.reject_inReset : (s.reject e).inReset = s.inReset := rfl
@[simp] theorem State.reject_resp : (s.reject e).resp = s.resp := rfl
@[simp] theorem State.reject_fresh : (s.reject e).fresh = s.fresh := rfl
@[simp] theorem State.reject_inputs : (s.reject e).inputs = s.inputs := rfl

end

section

variable (s : State) (op : Op) (a : Operands)

@[simp] theorem State.accept_ie : (s.accept op a).ie = s.ie := rfl
@[simp] theorem State.accept_spMode : (s.accept op a).spMode = s.spMode := rfl
@[simp] theorem State.accept_outLen : (s.accept op a).outLen = s.outLen := rfl
@[simp] theorem State.accept_cur : (s.accept op a).cur = some ⟨op, a, none, []⟩ := rfl
@[simp] theorem State.accept_done : (s.accept op a).done = false := rfl
@[simp] theorem State.accept_ovr : (s.accept op a).ovr = s.ovr := rfl
@[simp] theorem State.accept_err : (s.accept op a).err = s.err := rfl
@[simp] theorem State.accept_inAddrLo : (s.accept op a).inAddrLo = s.inAddrLo := rfl
@[simp] theorem State.accept_inAddrHi : (s.accept op a).inAddrHi = s.inAddrHi := rfl
@[simp] theorem State.accept_inLenLo : (s.accept op a).inLenLo = s.inLenLo := rfl
@[simp] theorem State.accept_inLenHi : (s.accept op a).inLenHi = s.inLenHi := rfl
@[simp] theorem State.accept_latIdx : (s.accept op a).latIdx = s.latIdx := rfl
@[simp] theorem State.accept_int : (s.accept op a).int = s.int := rfl
@[simp] theorem State.accept_mem : (s.accept op a).mem = s.mem := rfl
@[simp] theorem State.accept_inReset : (s.accept op a).inReset = s.inReset := rfl
@[simp] theorem State.accept_resp : (s.accept op a).resp = s.resp := rfl
@[simp] theorem State.accept_fresh : (s.accept op a).fresh = s.fresh := rfl
@[simp] theorem State.accept_inputs : (s.accept op a).inputs = s.inputs := rfl

end

section

variable (s : State) (w : Internal) (e : ErrCode)

@[simp] theorem State.complete_ie : (s.complete w e).ie = s.ie := rfl
@[simp] theorem State.complete_spMode : (s.complete w e).spMode = s.spMode := rfl
@[simp] theorem State.complete_outLen : (s.complete w e).outLen = s.outLen := rfl
@[simp] theorem State.complete_cur : (s.complete w e).cur = none := rfl
@[simp] theorem State.complete_done : (s.complete w e).done = true := rfl
@[simp] theorem State.complete_ovr : (s.complete w e).ovr = s.ovr := rfl
@[simp] theorem State.complete_err : (s.complete w e).err = e := rfl
@[simp] theorem State.complete_inAddrLo : (s.complete w e).inAddrLo = s.inAddrLo := rfl
@[simp] theorem State.complete_inAddrHi : (s.complete w e).inAddrHi = s.inAddrHi := rfl
@[simp] theorem State.complete_inLenLo : (s.complete w e).inLenLo = s.inLenLo := rfl
@[simp] theorem State.complete_inLenHi : (s.complete w e).inLenHi = s.inLenHi := rfl
@[simp] theorem State.complete_latIdx : (s.complete w e).latIdx = s.latIdx := rfl
@[simp] theorem State.complete_int : (s.complete w e).int = w := rfl
@[simp] theorem State.complete_mem : (s.complete w e).mem = s.mem := rfl
@[simp] theorem State.complete_inReset : (s.complete w e).inReset = s.inReset := rfl
@[simp] theorem State.complete_resp : (s.complete w e).resp = s.resp := rfl
@[simp] theorem State.complete_fresh : (s.complete w e).fresh = s.fresh := rfl
@[simp] theorem State.complete_inputs : (s.complete w e).inputs = s.inputs := rfl

end

section

variable (s : State) (d : Word)

@[simp] theorem State.acknowledge_ie : (s.acknowledge d).ie = s.ie := rfl
@[simp] theorem State.acknowledge_spMode : (s.acknowledge d).spMode = s.spMode := rfl
@[simp] theorem State.acknowledge_outLen : (s.acknowledge d).outLen = s.outLen := rfl
@[simp] theorem State.acknowledge_cur : (s.acknowledge d).cur = s.cur := rfl
@[simp] theorem State.acknowledge_done : (s.acknowledge d).done = (s.done && !d.getLsbD 1) := rfl
@[simp] theorem State.acknowledge_ovr : (s.acknowledge d).ovr = (s.ovr && !d.getLsbD 2) := rfl
@[simp] theorem State.acknowledge_err : (s.acknowledge d).err = s.err := rfl
@[simp] theorem State.acknowledge_inAddrLo : (s.acknowledge d).inAddrLo = s.inAddrLo := rfl
@[simp] theorem State.acknowledge_inAddrHi : (s.acknowledge d).inAddrHi = s.inAddrHi := rfl
@[simp] theorem State.acknowledge_inLenLo : (s.acknowledge d).inLenLo = s.inLenLo := rfl
@[simp] theorem State.acknowledge_inLenHi : (s.acknowledge d).inLenHi = s.inLenHi := rfl
@[simp] theorem State.acknowledge_latIdx : (s.acknowledge d).latIdx = s.latIdx := rfl
@[simp] theorem State.acknowledge_int : (s.acknowledge d).int = s.int := rfl
@[simp] theorem State.acknowledge_mem : (s.acknowledge d).mem = s.mem := rfl
@[simp] theorem State.acknowledge_inReset : (s.acknowledge d).inReset = s.inReset := rfl
@[simp] theorem State.acknowledge_resp : (s.acknowledge d).resp = s.resp := rfl
@[simp] theorem State.acknowledge_fresh : (s.acknowledge d).fresh = s.fresh := rfl
@[simp] theorem State.acknowledge_inputs : (s.acknowledge d).inputs = s.inputs := rfl

end

section

variable (s : State) (r : Running) (st : Stage)

@[simp] theorem State.setStage_ie : (s.setStage r st).ie = s.ie := rfl
@[simp] theorem State.setStage_spMode : (s.setStage r st).spMode = s.spMode := rfl
@[simp] theorem State.setStage_outLen : (s.setStage r st).outLen = s.outLen := rfl
@[simp] theorem State.setStage_cur : (s.setStage r st).cur = some { r with stage := some st } := rfl
@[simp] theorem State.setStage_done : (s.setStage r st).done = s.done := rfl
@[simp] theorem State.setStage_ovr : (s.setStage r st).ovr = s.ovr := rfl
@[simp] theorem State.setStage_err : (s.setStage r st).err = s.err := rfl
@[simp] theorem State.setStage_inAddrLo : (s.setStage r st).inAddrLo = s.inAddrLo := rfl
@[simp] theorem State.setStage_inAddrHi : (s.setStage r st).inAddrHi = s.inAddrHi := rfl
@[simp] theorem State.setStage_inLenLo : (s.setStage r st).inLenLo = s.inLenLo := rfl
@[simp] theorem State.setStage_inLenHi : (s.setStage r st).inLenHi = s.inLenHi := rfl
@[simp] theorem State.setStage_latIdx : (s.setStage r st).latIdx = s.latIdx := rfl
@[simp] theorem State.setStage_int : (s.setStage r st).int = s.int := rfl
@[simp] theorem State.setStage_mem : (s.setStage r st).mem = s.mem := rfl
@[simp] theorem State.setStage_inReset : (s.setStage r st).inReset = s.inReset := rfl
@[simp] theorem State.setStage_resp : (s.setStage r st).resp = s.resp := rfl
@[simp] theorem State.setStage_fresh : (s.setStage r st).fresh = s.fresh := rfl
@[simp] theorem State.setStage_inputs : (s.setStage r st).inputs = s.inputs := rfl

end

section

variable (s : State) (a : BitVec 64) (v : Option Byte)

@[simp] theorem State.platformWrite_ie : (s.platformWrite a v).ie = s.ie := rfl
@[simp] theorem State.platformWrite_spMode : (s.platformWrite a v).spMode = s.spMode := rfl
@[simp] theorem State.platformWrite_outLen : (s.platformWrite a v).outLen = s.outLen := rfl
@[simp] theorem State.platformWrite_cur : (s.platformWrite a v).cur = s.cur.map fun r => r.touch a.toNat (s.mem.read a.toNat) := rfl
@[simp] theorem State.platformWrite_done : (s.platformWrite a v).done = s.done := rfl
@[simp] theorem State.platformWrite_ovr : (s.platformWrite a v).ovr = s.ovr := rfl
@[simp] theorem State.platformWrite_err : (s.platformWrite a v).err = s.err := rfl
@[simp] theorem State.platformWrite_inAddrLo : (s.platformWrite a v).inAddrLo = s.inAddrLo := rfl
@[simp] theorem State.platformWrite_inAddrHi : (s.platformWrite a v).inAddrHi = s.inAddrHi := rfl
@[simp] theorem State.platformWrite_inLenLo : (s.platformWrite a v).inLenLo = s.inLenLo := rfl
@[simp] theorem State.platformWrite_inLenHi : (s.platformWrite a v).inLenHi = s.inLenHi := rfl
@[simp] theorem State.platformWrite_latIdx : (s.platformWrite a v).latIdx = s.latIdx := rfl
@[simp] theorem State.platformWrite_int : (s.platformWrite a v).int = s.int := rfl
@[simp] theorem State.platformWrite_mem : (s.platformWrite a v).mem = s.mem.put a.toNat v := rfl
@[simp] theorem State.platformWrite_inReset : (s.platformWrite a v).inReset = s.inReset := rfl
@[simp] theorem State.platformWrite_resp : (s.platformWrite a v).resp = s.resp := rfl
@[simp] theorem State.platformWrite_fresh : (s.platformWrite a v).fresh = s.fresh := rfl
@[simp] theorem State.platformWrite_inputs : (s.platformWrite a v).inputs = s.inputs := rfl

end

section

variable (s : State)

@[simp] theorem State.releaseReset_ie : (s.releaseReset).ie = s.ie := rfl
@[simp] theorem State.releaseReset_spMode : (s.releaseReset).spMode = s.spMode := rfl
@[simp] theorem State.releaseReset_outLen : (s.releaseReset).outLen = s.outLen := rfl
@[simp] theorem State.releaseReset_cur : (s.releaseReset).cur = s.cur := rfl
@[simp] theorem State.releaseReset_done : (s.releaseReset).done = s.done := rfl
@[simp] theorem State.releaseReset_ovr : (s.releaseReset).ovr = s.ovr := rfl
@[simp] theorem State.releaseReset_err : (s.releaseReset).err = s.err := rfl
@[simp] theorem State.releaseReset_inAddrLo : (s.releaseReset).inAddrLo = s.inAddrLo := rfl
@[simp] theorem State.releaseReset_inAddrHi : (s.releaseReset).inAddrHi = s.inAddrHi := rfl
@[simp] theorem State.releaseReset_inLenLo : (s.releaseReset).inLenLo = s.inLenLo := rfl
@[simp] theorem State.releaseReset_inLenHi : (s.releaseReset).inLenHi = s.inLenHi := rfl
@[simp] theorem State.releaseReset_latIdx : (s.releaseReset).latIdx = s.latIdx := rfl
@[simp] theorem State.releaseReset_int : (s.releaseReset).int = s.int := rfl
@[simp] theorem State.releaseReset_mem : (s.releaseReset).mem = s.mem := rfl
@[simp] theorem State.releaseReset_inReset : (s.releaseReset).inReset = false := rfl
@[simp] theorem State.releaseReset_resp : (s.releaseReset).resp = s.resp := rfl
@[simp] theorem State.releaseReset_fresh : (s.releaseReset).fresh = s.fresh := rfl
@[simp] theorem State.releaseReset_inputs : (s.releaseReset).inputs = s.inputs := rfl

end

section

variable (s : State)

@[simp] theorem State.assertReset_ie : (s.assertReset).ie = State.reset.ie := rfl
@[simp] theorem State.assertReset_spMode : (s.assertReset).spMode = State.reset.spMode := rfl
@[simp] theorem State.assertReset_outLen : (s.assertReset).outLen = State.reset.outLen := rfl
@[simp] theorem State.assertReset_cur : (s.assertReset).cur = State.reset.cur := rfl
@[simp] theorem State.assertReset_done : (s.assertReset).done = State.reset.done := rfl
@[simp] theorem State.assertReset_ovr : (s.assertReset).ovr = State.reset.ovr := rfl
@[simp] theorem State.assertReset_err : (s.assertReset).err = State.reset.err := rfl
@[simp] theorem State.assertReset_inAddrLo : (s.assertReset).inAddrLo = State.reset.inAddrLo := rfl
@[simp] theorem State.assertReset_inAddrHi : (s.assertReset).inAddrHi = State.reset.inAddrHi := rfl
@[simp] theorem State.assertReset_inLenLo : (s.assertReset).inLenLo = State.reset.inLenLo := rfl
@[simp] theorem State.assertReset_inLenHi : (s.assertReset).inLenHi = State.reset.inLenHi := rfl
@[simp] theorem State.assertReset_latIdx : (s.assertReset).latIdx = State.reset.latIdx := rfl
@[simp] theorem State.assertReset_int : (s.assertReset).int = State.reset.int := rfl
@[simp] theorem State.assertReset_mem : (s.assertReset).mem = s.mem := rfl
@[simp] theorem State.assertReset_inReset : (s.assertReset).inReset = true := rfl
@[simp] theorem State.assertReset_resp : (s.assertReset).resp = State.reset.resp := rfl
@[simp] theorem State.assertReset_fresh : (s.assertReset).fresh = s.fresh := rfl
@[simp] theorem State.assertReset_inputs : (s.assertReset).inputs = s.inputs := rfl

end

/-! The running command and the internal state. -/

@[simp] theorem Running.touch_op (r : Running) (a : Nat) (v : Option Byte) : (r.touch a v).op = r.op := rfl
@[simp] theorem Running.touch_args (r : Running) (a : Nat) (v : Option Byte) : (r.touch a v).args = r.args := rfl
@[simp] theorem Running.touch_stage (r : Running) (a : Nat) (v : Option Byte) : (r.touch a v).stage = r.stage := rfl
@[simp] theorem Running.touch_touched (r : Running) (a : Nat) (v : Option Byte) :
    (r.touch a v).touched = (a, v) :: r.touched := rfl

/-! Derived values under the updates that only answer. -/

@[simp] theorem State.busy_answer (s : State) (d : Word) : (s.answer d).busy = s.busy := rfl
@[simp] theorem State.busy_ack (s : State) : s.ack.busy = s.busy := rfl
@[simp] theorem State.busy_overrun (s : State) : s.overrun.busy = s.busy := rfl
@[simp] theorem State.busy_reject (s : State) (e : ErrCode) : (s.reject e).busy = s.busy := rfl
@[simp] theorem State.busy_tick (s : State) (n : Nat) : (s.tick n).busy = s.busy := rfl
@[simp] theorem State.busy_accept (s : State) (op : Op) (a : Operands) : (s.accept op a).busy = true := rfl
@[simp] theorem State.busy_complete (s : State) (w : Internal) (e : ErrCode) : (s.complete w e).busy = false := rfl
@[simp] theorem State.busy_assertReset (s : State) : s.assertReset.busy = false := rfl

theorem State.busy_eq_false_iff (s : State) : s.busy = false ↔ s.cur = none := by
  cases h : s.cur <;> simp [State.busy, h]

theorem State.busy_eq_true_iff (s : State) : s.busy = true ↔ ∃ r, s.cur = some r := by
  cases h : s.cur <;> simp [State.busy, h]

@[simp] theorem State.sample_ack (s : State) : s.ack.sample = s.sample := rfl
@[simp] theorem State.sample_answer (s : State) (d : Word) : (s.answer d).sample = s.sample := rfl
@[simp] theorem State.sample_overrun (s : State) : s.overrun.sample = s.sample := rfl
@[simp] theorem State.sample_tick (s : State) (n : Nat) : (s.tick n).sample = s.sample := rfl
@[simp] theorem State.sample_accept (s : State) (op : Op) (a : Operands) : (s.accept op a).sample = s.sample := rfl
@[simp] theorem State.sample_reject (s : State) (e : ErrCode) : (s.reject e).sample = s.sample := rfl
@[simp] theorem State.sample_setStage (s : State) (r : Running) (st : Stage) : (s.setStage r st).sample = s.sample := rfl
@[simp] theorem State.sample_platformWrite (s : State) (a : BitVec 64) (v : Option Byte) :
    (s.platformWrite a v).sample = s.sample := rfl

end Sys2Proof.Machine
end

