-- ==== Sys2Proof/Laws/Ops.lean ====
section
/-! SUPPORT. What each shared operation does, said once: issue, the two steps of a command, a write that a running
command blocks, the turn of a DIGEST, the choice of the next step, and the input read. -/

namespace Sys2Proof.Machine

/-! Opcodes. -/

/-- The command word of an operation's opcode decodes to that operation's instruction (R101, R102). -/
theorem decodeCommand_code (op : Op) : decodeCommand (op.code.setWidth 32) = op.instr := by cases op <;> rfl

@[simp] theorem commandOp_instr (op : Op) : commandOp op.instr = some op := by cases op <;> rfl

/-- A command word names an operation exactly when it is that operation's opcode. -/
theorem instr_of_commandOp {i : Instr} {op : Op} (h : commandOp i = some op) : i = op.instr := by
  cases i <;> simp [commandOp] at h <;> subst h <;> rfl

/-! Accesses while a command runs. -/

/-- A write of a protected register while a command runs is ignored with `OVR` (R304). -/
theorem State.writeIdle_busy (s : State) (f : State → State) (h : s.busy = true) : s.writeIdle f = s.overrun := by
  simp [State.writeIdle, h]

/-- A write of a protected register while the engine is idle has its effect. -/
theorem State.writeIdle_idle (s : State) (f : State → State) (h : s.busy = false) : s.writeIdle f = (f s).ack := by
  simp [State.writeIdle, h]

/-- A protected read while a command runs returns 0 (R305). -/
theorem State.readIdle_busy (s : State) (d : Word) (h : s.busy = true) : s.readIdle d = s.answer 0 := by
  simp [State.readIdle, h]

/-- A protected read while the engine is idle returns its data. -/
theorem State.readIdle_idle (s : State) (d : Word) (h : s.busy = false) : s.readIdle d = s.answer d := by
  simp [State.readIdle, h]

/-! Issue. -/

/-- Everything the issue of a legal command can do (R301, R302, R304, R345). -/
theorem State.issue_cases (s : State) (op : Op) :
    (s.busy = true ∧ s.issue op = s.overrun) ∨
    (s.busy = false ∧ flagsHold op s.int = false ∧ s.issue op = (s.reject .seq).ack) ∨
    (s.busy = false ∧ flagsHold op s.int = true ∧ rangeFails op s.sample = true ∧ s.issue op = (s.reject .range).ack) ∨
    (s.busy = false ∧ flagsHold op s.int = true ∧ rangeFails op s.sample = false ∧
      s.issue op = (s.accept op s.sample).ack) := by
  cases hb : s.busy <;> cases hf : flagsHold op s.int <;> cases hr : rangeFails op s.sample <;>
    simp [State.issue, hb, hf, hr]

/-- Everything a write of `CMD` can do: it is the issue of the command the word names, or of an illegal word. -/
theorem State.issueWord_cases (s : State) (w : Word) :
    (∃ op, decodeCommand w = op.instr ∧ s.issueWord w = s.issue op) ∨
    (commandOp (decodeCommand w) = none ∧ s.issueWord w = s.issueIllegal) := by
  unfold State.issueWord
  cases h : commandOp (decodeCommand w) with
  | some op => exact .inl ⟨op, instr_of_commandOp h, rfl⟩
  | none => exact .inr ⟨rfl, rfl⟩

/-- Everything the issue of an illegal word can do (R304, R341). -/
theorem State.issueIllegal_cases (s : State) :
    (s.busy = true ∧ s.issueIllegal = s.overrun) ∨ (s.busy = false ∧ s.issueIllegal = (s.reject .illegal).ack) := by
  cases h : s.busy <;> simp [State.issueIllegal, h]

/-! The two steps of a command. -/

/-- Everything a command instruction can do (R301, R303, R304). -/
theorem State.command_cases (s : State) (op : Op) (turn : Running → State) :
    (s.cur = none ∧ s.command op turn = .next (s.issue op)) ∨
    (∃ r, s.cur = some r ∧ r.op = op ∧ s.command op turn = .next (turn r)) ∨
    (∃ r, s.cur = some r ∧ r.op ≠ op ∧ s.command op turn = .next s.overrun) := by
  unfold State.command
  cases h : s.cur with
  | none => simp
  | some r => by_cases ho : r.op = op <;> simp [ho]

theorem State.command_running {s : State} {op : Op} {turn : Running → State} {r : Running} (h : s.cur = some r)
    (ho : r.op = op) : s.command op turn = .next (turn r) := by simp [State.command, h, ho]

theorem State.command_idle {s : State} {op : Op} {turn : Running → State} (h : s.cur = none) :
    s.command op turn = .next (s.issue op) := by simp [State.command, h]

theorem State.command_other {s : State} {op : Op} {turn : Running → State} {r : Running} (h : s.cur = some r)
    (ho : r.op ≠ op) : s.command op turn = .next s.overrun := by simp [State.command, h, ho]

@[simp] theorem State.completeWith_eq (s : State) (p : Internal × ErrCode) : s.completeWith p = s.complete p.1 p.2 := rfl

@[simp] theorem State.completeReading_eq (s : State) (n : Nat) (p : Internal × ErrCode) :
    s.completeReading n p = (s.complete p.1 p.2).tick n := rfl

/-! DIGEST. -/

/-- Everything the engine's turn on a `DIGEST` can do (R288). -/
theorem State.digestTurn_cases (s : State) (r : Running) :
    (r.stage = none ∧ s.digestTurn r = s.setStage r ⟨.chain, s.int⟩) ∨
    (∃ st sub, r.stage = some st ∧ (s.subEffect r st.sub st.work).2 = .ok ∧ nextSub st.sub = some sub ∧
      s.digestTurn r = (s.tick (inputCount st.sub r.args)).setStage r ⟨sub, (s.subEffect r st.sub st.work).1⟩) ∨
    (∃ st, r.stage = some st ∧ ((s.subEffect r st.sub st.work).2 ≠ .ok ∨ nextSub st.sub = none) ∧
      s.digestTurn r = (s.tick (inputCount st.sub r.args)).completeWith (s.subEffect r st.sub st.work)) := by
  unfold State.digestTurn
  cases hs : r.stage with
  | none => exact .inl ⟨rfl, rfl⟩
  | some st =>
    by_cases he : (s.subEffect r st.sub st.work).2 = .ok
    · cases hn : nextSub st.sub with
      | some sub => exact .inr (.inl ⟨st, sub, rfl, he, hn, by simp [he, hn]⟩)
      | none => exact .inr (.inr ⟨st, rfl, .inr hn, by simp [he, hn]⟩)
    · exact .inr (.inr ⟨st, rfl, .inl he, by simp [he]⟩)

/-! The next step. -/

theorem State.turn_nil {s : State} (h : s.inputs = []) : s.turn = if s.inReset then .pass s else s.engineTurn := by
  simp [State.turn, h]

theorem State.turn_cons {s : State} {e : Event} {rest : List Event} (h : s.inputs = e :: rest) :
    s.turn = { s with inputs := rest }.eventTurn e := by simp [State.turn, h]

theorem State.engineTurn_idle {s : State} (h : s.cur = none) : s.engineTurn = .pass s := by simp [State.engineTurn, h]

theorem State.engineTurn_running {s : State} {r : Running} (h : s.cur = some r) : s.engineTurn = .run r.op.instr s := by
  simp [State.engineTurn, h]

theorem step_of_run {s s' : State} {i : Instr} (h : s.turn = .run i s') : step s = exec i s' := by simp [step, h]

theorem step_of_pass {s s' : State} (h : s.turn = .pass s') : step s = .next s' := by simp [step, h]

theorem step_of_stop {s : State} {f : Fault} (h : s.turn = .stop f) : step s = .fault f := by simp [step, h]

/-- Everything a step can be: an instruction that runs on the state without the event that brought it, one of the
changes from outside, the engine at rest, or the stop of an access during reset. -/
theorem State.turn_cases (s : State) :
    ∃ s', (s' = s ∨ ∃ e, s.inputs = e :: s'.inputs ∧ s' = { s with inputs := s'.inputs }) ∧
      ((∃ had d, s'.inReset = false ∧ s.turn = .run (decodeAccess had d) s') ∨
       (∃ r, s'.inReset = false ∧ s'.cur = some r ∧ s.turn = .run r.op.instr s') ∨
       s.turn = .pass s' ∨ s.turn = .pass s'.assertReset ∨ s.turn = .pass s'.releaseReset ∨
       (∃ a v, s.turn = .pass (s'.platformWrite a v)) ∨ s.turn = .stop .accessDuringReset) := by
  cases hi : s.inputs with
  | nil =>
    refine ⟨s, .inl rfl, ?_⟩
    rw [State.turn_nil hi]
    cases hr : s.inReset with
    | true => simp
    | false =>
      cases hc : s.cur with
      | none => simp [State.engineTurn_idle hc]
      | some r => exact .inr (.inl ⟨r, rfl, rfl, by simp [State.engineTurn_running hc]⟩)
  | cons e rest =>
    refine ⟨{ s with inputs := rest }, .inr ⟨e, rfl, rfl⟩, ?_⟩
    rw [State.turn_cons hi]
    cases e with
    | host had d =>
      cases hr : s.inReset
      · exact .inl ⟨had, d, rfl, by simp [State.eventTurn]⟩
      · simp [State.eventTurn]
    | engine =>
      cases hr : s.inReset
      · cases hc : s.cur with
        | none => simp [State.eventTurn, State.engineTurn]
        | some r => exact .inr (.inl ⟨r, rfl, rfl, by simp [State.eventTurn, State.engineTurn]⟩)
      · simp [State.eventTurn]
    | resetOn => simp [State.eventTurn]
    | resetOff => simp [State.eventTurn]
    | memory a v => exact .inr (.inr (.inr (.inr (.inr (.inl ⟨a, v, rfl⟩)))))

/-! Host accesses. -/

/-- A host access is never a command word (R106, R107). -/
@[simp] theorem commandOp_decodeAccess (had : BitVec 15) (d : Word) : commandOp (decodeAccess had d) = none := by
  have pick : ∀ (w : Bool) (a b : Instr), commandOp a = none → commandOp b = none → commandOp (byDirection w a b) = none := by
    intro w a b ha hb
    cases w <;> simpa [byDirection]
  simp only [decodeAccess]
  split
  · unfold decodeOffset
    dsimp only
    split
    · split <;> exact pick _ _ _ rfl rfl
    · split_ifs <;> first | rfl | exact pick _ _ _ rfl rfl
  · rfl

/-! The input. -/

/-- A byte that no agent changed since acceptance is read as memory holds it (R73). -/
theorem readInputByte_stable (mem : Memory) (a k : Nat) : readInputByte mem [] a k = mem.read a := rfl

/-- The input has the length asked for. -/
theorem readInput_length {mem : Memory} {touched : List (Nat × Option Byte)} {n a k : Nat} {x : List Byte}
    (h : readInput mem touched n a k = some x) : x.length = n := by
  induction n generalizing a k x with
  | zero => simp [readInput] at h; simp [← h]
  | succ n ih =>
    unfold readInput at h
    cases hb : readInputByte mem touched a k with
    | none => simp [hb] at h
    | some b =>
      simp only [hb, Option.map_eq_some_iff] at h
      obtain ⟨y, hy, rfl⟩ := h
      simp [ih hy]

/-- Byte i of the input is the read of byte `a + i` (R73). -/
theorem readInput_getElem {mem : Memory} {touched : List (Nat × Option Byte)} {n a k : Nat} {x : List Byte}
    (h : readInput mem touched n a k = some x) {i : Nat} (hi : i < n) :
    readInputByte mem touched (a + i) (k + i) = x[i]? := by
  induction n generalizing a k x i with
  | zero => omega
  | succ n ih =>
    unfold readInput at h
    cases hb : readInputByte mem touched a k with
    | none => simp [hb] at h
    | some b =>
      simp only [hb, Option.map_eq_some_iff] at h
      obtain ⟨y, hy, rfl⟩ := h
      cases i with
      | zero => simp [hb]
      | succ i =>
        have := ih hy (i := i) (by omega)
        simpa [Nat.add_assoc, Nat.add_comm 1 i] using this

/-- The input read fails exactly when the read of one of its bytes does (R73). -/
theorem readInput_eq_none {mem : Memory} {touched : List (Nat × Option Byte)} {n a k : Nat} :
    readInput mem touched n a k = none ↔ ∃ i < n, readInputByte mem touched (a + i) (k + i) = none := by
  induction n generalizing a k with
  | zero => simp [readInput]
  | succ n ih =>
    unfold readInput
    cases hb : readInputByte mem touched a k with
    | none => exact ⟨fun _ => ⟨0, by omega, by simpa using hb⟩, fun _ => rfl⟩
    | some b =>
      simp only [Option.map_eq_none_iff, ih]
      constructor
      · rintro ⟨i, hi, h⟩
        exact ⟨i + 1, by omega, by simpa [Nat.add_assoc, Nat.add_comm 1 i] using h⟩
      · rintro ⟨i, hi, h⟩
        cases i with
        | zero => simp [hb] at h
        | succ i => exact ⟨i, by omega, by simpa [Nat.add_assoc, Nat.add_comm 1 i] using h⟩

/-! Configuration. -/

/-- `ADDR_W` is 1 .. 64 (R7). -/
theorem addrW_bounds : 1 ≤ Config.addrW ∧ Config.addrW ≤ 64 := by
  have := Config.addrBits.isLt
  unfold Config.addrW
  omega

end Sys2Proof.Machine
end

