-- ==== Sys2Proof/Laws/Cells.lean ====
section
/-! SUPPORT. What the loops over the lattice and over the input do, cell by cell and byte by byte. -/

namespace Sys2Proof.Machine

/-! The input. -/

/-- The input of a command whose bytes no agent changed (R73). -/
theorem State.input_of_stable {s : State} {r : Running} {x : List Byte} (h : s.stableInput r x) :
    s.input r x.length = some x := by
  obtain ⟨ht, hx⟩ := h
  unfold State.input
  rw [ht]
  generalize r.args.inAddr.toNat = a at *
  generalize s.fresh = k
  induction x generalizing a k with
  | nil => rfl
  | cons b rest ih =>
    have h0 := hx 0 (by simp)
    simp only [Nat.add_zero, List.getElem?_cons_zero] at h0
    simp only [List.length_cons, readInput, readInputByte_stable, h0]
    rw [ih (a + 1) (k := k + 1)]
    · rfl
    · intro i hi
      have := hx (i + 1) (by simpa using hi)
      simpa [Nat.add_assoc, Nat.add_comm 1] using this

/-- A stable input is stable up to any shorter length. -/
theorem State.stableInput_take {s : State} {r : Running} {x : List Byte} (h : s.stableInput r x) (n : Nat) :
    s.stableInput r (x.take n) := by
  refine ⟨h.1, fun i hi => ?_⟩
  simp only [List.length_take] at hi
  rw [List.getElem?_take, if_pos (by omega)]
  exact h.2 i (by omega)

/-! The chain. -/

theorem hashPairs_eq_iterate (n : Nat) (x : List Byte) : hashPairs n x = (fun y => sha512 (sha256 y))^[n] x := by
  induction n generalizing x with
  | zero => rfl
  | succ n ih => rw [hashPairs, ih, Function.iterate_succ_apply]

/-! The generator's fill. -/

/-- Cell x of a fill is the draw that x draws precede (R211). -/
theorem read_drawCells (n i x : Nat) (g : Generator) :
    (drawCells n i g).1.read x =
      if i ≤ x ∧ x < i + n then some (.ofNat 8 (((fun h : Generator => (h.draw 256).2)^[x - i] g).draw 256).1) else none := by
  induction n generalizing i g with
  | zero => rw [if_neg (by omega)]; rfl
  | succ n ih =>
    rw [drawCells, Memory.read_cons, ih]
    by_cases h : i = x
    · subst h; simp
    · by_cases h2 : i < x
      · have h3 : x - i = (x - (i + 1)) + 1 := by omega
        rw [if_neg (by simpa using h), h3, Function.iterate_succ_apply]
        by_cases h4 : x < i + (n + 1)
        · rw [if_pos (by omega), if_pos (by omega)]
        · rw [if_neg (by omega), if_neg (by omega)]
      · rw [if_neg (by simpa using h), if_neg (by omega), if_neg (by omega)]

theorem drawCells_generator (n i : Nat) (g : Generator) :
    (drawCells n i g).2 = (fun h : Generator => (h.draw 256).2)^[n] g := by
  induction n generalizing i g with
  | zero => rfl
  | succ n ih => rw [drawCells, ih, Function.iterate_succ_apply]

/-! The loader. -/

/-- The loader's cell as the octal digits of the position in reverse order (R232). -/
theorem ldidx_eq_sum (i : Nat) : ldidx i = ((List.range 8).map fun d => i / 8 ^ d % 8 * 8 ^ (7 - d)).sum := by
  simp only [ldidx, flat, List.range_succ, List.range_zero, List.nil_append, List.cons_append, List.map_cons,
    List.map_nil, List.foldl_cons, List.foldl_nil, List.sum_cons, List.sum_nil]
  norm_num
  ring

/-- The number with eight given digits, least significant first. -/
def ofOctal (a b c d e f g k : Nat) : Nat := a + 8 * (b + 8 * (c + 8 * (d + 8 * (e + 8 * (f + 8 * (g + 8 * k))))))

/-- A number below 2^24 has eight octal digits, and the loader's cell has them in reverse order. -/
theorem octal_digits {i : Nat} (h : i < 2 ^ 24) : ∃ a b c d e f g k : Nat,
    (a < 8 ∧ b < 8 ∧ c < 8 ∧ d < 8) ∧ (e < 8 ∧ f < 8 ∧ g < 8 ∧ k < 8) ∧
    i = ofOctal a b c d e f g k ∧ ldidx i = ofOctal k g f e d c b a := by
  have h8 := Nat.mod_lt (y := 8)
  have hk : i / 2097152 < 8 := by omega
  refine ⟨i % 8, i / 8 % 8, i / 64 % 8, i / 512 % 8, i / 4096 % 8, i / 32768 % 8, i / 262144 % 8, i / 2097152 % 8,
    ⟨h8 _ (by decide), h8 _ (by decide), h8 _ (by decide), h8 _ (by decide)⟩,
    ⟨h8 _ (by decide), h8 _ (by decide), h8 _ (by decide), h8 _ (by decide)⟩, ?_, ?_⟩
  · have e1 := Nat.div_div_eq_div_mul i 8 8
    have e2 := Nat.div_div_eq_div_mul i 64 8
    have e3 := Nat.div_div_eq_div_mul i 512 8
    have e4 := Nat.div_div_eq_div_mul i 4096 8
    have e5 := Nat.div_div_eq_div_mul i 32768 8
    have e6 := Nat.div_div_eq_div_mul i 262144 8
    have d0 := Nat.mod_add_div i 8
    have d1 := Nat.mod_add_div (i / 8) 8
    have d2 := Nat.mod_add_div (i / 64) 8
    have d3 := Nat.mod_add_div (i / 512) 8
    have d4 := Nat.mod_add_div (i / 4096) 8
    have d5 := Nat.mod_add_div (i / 32768) 8
    have d6 := Nat.mod_add_div (i / 262144) 8
    have d7 := Nat.mod_eq_of_lt hk
    norm_num at e1 e2 e3 e4 e5 e6
    rw [e1] at d1; rw [e2] at d2; rw [e3] at d3; rw [e4] at d4; rw [e5] at d5; rw [e6] at d6
    rw [d7, ofOctal, d6, d5, d4, d3, d2, d1, d0]
  · simp only [ldidx, flat, List.range_succ, List.range_zero, List.nil_append, List.cons_append, List.map_cons,
      List.map_nil, List.foldl_cons, List.foldl_nil, ofOctal]
    norm_num
    ring

/-- Numbers with equal octal digits only (R232). -/
theorem ofOctal_injective {a b c d e f g k a' b' c' d' e' f' g' k' : Nat}
    (h : a < 8 ∧ b < 8 ∧ c < 8 ∧ d < 8) (h' : a' < 8 ∧ b' < 8 ∧ c' < 8 ∧ d' < 8)
    (l : e < 8 ∧ f < 8 ∧ g < 8 ∧ k < 8) (l' : e' < 8 ∧ f' < 8 ∧ g' < 8 ∧ k' < 8)
    (he : ofOctal a b c d e f g k = ofOctal a' b' c' d' e' f' g' k') :
    (a = a' ∧ b = b' ∧ c = c' ∧ d = d') ∧ (e = e' ∧ f = f' ∧ g = g' ∧ k = k') := by
  have step : ∀ {x y m n : Nat}, x < 8 → y < 8 → x + 8 * m = y + 8 * n → x = y ∧ m = n := by omega
  unfold ofOctal at he
  obtain ⟨ha, he⟩ := step h.1 h'.1 he
  obtain ⟨hb, he⟩ := step h.2.1 h'.2.1 he
  obtain ⟨hc, he⟩ := step h.2.2.1 h'.2.2.1 he
  obtain ⟨hd, he⟩ := step h.2.2.2 h'.2.2.2 he
  obtain ⟨hf, he⟩ := step l.1 l'.1 he
  obtain ⟨hg, he⟩ := step l.2.1 l'.2.1 he
  obtain ⟨hh, he⟩ := step l.2.2.1 l'.2.2.1 he
  exact ⟨⟨ha, hb, hc, hd⟩, hf, hg, hh, he⟩

/-- No two input positions meet in one cell (R232). -/
theorem ldidx_injective {i j : Nat} (hi : i < 2 ^ 24) (hj : j < 2 ^ 24) (h : ldidx i = ldidx j) : i = j := by
  obtain ⟨a, b, c, d, e, f, g, k, h1, h2, h3, h4⟩ := octal_digits hi
  obtain ⟨a', b', c', d', e', f', g', k', h1', h2', h3', h4'⟩ := octal_digits hj
  rw [h4, h4'] at h
  obtain ⟨⟨rfl, rfl, rfl, rfl⟩, rfl, rfl, rfl, rfl⟩ := ofOctal_injective ⟨h2.2.2.2, h2.2.2.1, h2.2.1, h2.1⟩
    ⟨h2'.2.2.2, h2'.2.2.1, h2'.2.1, h2'.1⟩ ⟨h1.2.2.2, h1.2.2.1, h1.2.1, h1.1⟩ ⟨h1'.2.2.2, h1'.2.2.1, h1'.2.1, h1'.1⟩ h
  rw [h3, h3']

/-- A cell that no input position names stays (R235). -/
theorem read_loadBytes_other (x : List Byte) (k : Nat) (lat : Memory) (a : Nat)
    (h : ∀ i < x.length, ldidx (k + i) ≠ a) : (loadBytes x k lat).read a = lat.read a := by
  induction x generalizing k lat with
  | nil => rfl
  | cons b rest ih =>
    rw [loadBytes, ih, read_xorCell, if_neg]
    · exact fun he => h 0 (by simp) (by simpa using he.symm)
    · intro i hi
      have := h (i + 1) (by simpa using hi)
      rwa [show k + 1 + i = k + (i + 1) by omega]

/-- The cell of an input position takes that byte (R235). -/
theorem read_loadBytes_at (x : List Byte) (k : Nat) (lat : Memory) (hk : k + x.length ≤ 2 ^ 24) (i : Nat) (b : Byte)
    (h : x[i]? = some b) : (loadBytes x k lat).read (ldidx (k + i)) = (lat.read (ldidx (k + i))).map (· ^^^ b) := by
  induction x generalizing k lat i with
  | nil => simp at h
  | cons c rest ih =>
    simp only [List.length_cons] at hk
    rw [loadBytes]
    cases i with
    | zero =>
      simp only [List.getElem?_cons_zero, Option.some.injEq] at h
      subst h
      rw [read_loadBytes_other, read_xorCell, Nat.add_zero, if_pos rfl]
      intro i hi he
      have := ldidx_injective (by omega) (by omega) he
      omega
    | succ i =>
      rw [List.getElem?_cons_succ] at h
      have hlt : i < rest.length := (List.getElem?_eq_some_iff.1 h).1
      rw [show k + (i + 1) = k + 1 + i by omega, ih _ _ (by omega) _ h, read_xorCell, if_neg]
      intro he
      have := ldidx_injective (by omega) (by omega) he
      omega

/-- After a bus error every cell of an input position is undefined, and the others stay (R235). -/
theorem read_unloadCells (n k : Nat) (lat : Memory) (a : Nat) :
    ((∃ i < n, ldidx (k + i) = a) → (unloadCells n k lat).read a = none) ∧
    ((∀ i < n, ldidx (k + i) ≠ a) → (unloadCells n k lat).read a = lat.read a) := by
  induction n generalizing k lat with
  | zero => exact ⟨fun ⟨i, hi, _⟩ => absurd hi (by omega), fun _ => rfl⟩
  | succ n ih =>
    obtain ⟨ih1, ih2⟩ := ih (k + 1) (lat.erase (ldidx k))
    rw [unloadCells]
    by_cases hrest : ∃ i < n, ldidx (k + 1 + i) = a
    · exact ⟨fun _ => ih1 hrest, fun h => absurd hrest fun ⟨i, hi, he⟩ =>
        h (i + 1) (by omega) (by rwa [show k + (i + 1) = k + 1 + i by omega])⟩
    · have hr := ih2 (fun i hi he => hrest ⟨i, hi, he⟩)
      rw [hr, Memory.read_erase]
      constructor
      · rintro ⟨i, hi, he⟩
        cases i with
        | zero => simp at he; simp [he]
        | succ i => exact absurd ⟨i, by omega, by rwa [show k + 1 + i = k + (i + 1) by omega]⟩ hrest
      · intro h
        rw [if_neg]
        exact fun he => h 0 (by omega) (by simpa using he.symm)

/-! The coordinate sum. -/

theorem csum_eq_sum (a : Nat) : csum a = ((List.range 8).map fun d => a / 8 ^ d % 8).sum := by
  simp only [csum, coord, List.range_succ, List.range_zero, List.nil_append, List.cons_append, List.map_cons,
    List.map_nil, List.sum_cons, List.sum_nil]
  norm_num
  ring

theorem csum_le (a : Nat) : csum a ≤ 56 := by
  have h : ∀ d, coord a d ≤ 7 := fun d => Nat.le_of_lt_succ (Nat.mod_lt _ (by decide))
  have h0 := h 0
  have h1 := h 1
  have h2 := h 2
  have h3 := h 3
  have h4 := h 4
  have h5 := h 5
  have h6 := h 6
  have h7 := h 7
  simp only [csum, List.range_succ, List.range_zero, List.nil_append, List.cons_append, List.map_cons, List.map_nil,
    List.sum_cons, List.sum_nil]
  omega

end Sys2Proof.Machine
end

