-- ==== Sys2Proof/Laws/Effects.lean ====
section
/-! SUPPORT. Every effect of a command, as a record update and field by field: what it writes and what it leaves. The
values that an effect computes stand under names in the proofs, because a comparison by evaluation would run the effect
(2^24 draws, a walk, a hash): where an effect meets a field, rewrite with these lemmas and do not close by rfl. -/

namespace Sys2Proof.Machine

@[simp] theorem chainEffect_bus (w : Internal) : chainEffect none w = (w, .bus) := rfl

@[simp] theorem entropyEffect_bus (w : Internal) : entropyEffect none w = (w, .bus) := rfl

/-- The effect as one update. -/
theorem rngseedEffect_eq (sd : BitVec 256) (w : Internal) {mt : Generator}
    (h_mt : initByArray (keyOf sd) = mt) :
    rngseedEffect sd w = ({ w with mt := mt, prngV := true }, .ok) := by
  subst h_mt; rfl

theorem rngseedEffect_fields_of (sd : BitVec 256) (w : Internal) {mt : Generator}
    (h_mt : initByArray (keyOf sd) = mt) :
    (rngseedEffect sd w).1.seed = w.seed ∧ (rngseedEffect sd w).1.mt = mt ∧ (rngseedEffect sd w).1.lat = w.lat ∧
    (rngseedEffect sd w).1.ent = w.ent ∧ (rngseedEffect sd w).1.dig = w.dig ∧
    (rngseedEffect sd w).1.digLen = w.digLen ∧ (rngseedEffect sd w).1.hexb = w.hexb ∧
    (rngseedEffect sd w).1.seedV = w.seedV ∧ (rngseedEffect sd w).1.prngV = true ∧
    (rngseedEffect sd w).1.latV = w.latV ∧ (rngseedEffect sd w).1.digV = w.digV ∧
    (rngseedEffect sd w).1.hexV = w.hexV ∧ (rngseedEffect sd w).2 = .ok := by
  rw [rngseedEffect_eq sd w h_mt]
  exact ⟨rfl, rfl, rfl, rfl, rfl, rfl, rfl, rfl, rfl, rfl, rfl, rfl, rfl⟩

/-- The effect, field by field. -/
@[simp] theorem rngseedEffect_fields (sd : BitVec 256) (w : Internal) :
    (rngseedEffect sd w).1.seed = w.seed ∧ (rngseedEffect sd w).1.mt = initByArray (keyOf sd) ∧
    (rngseedEffect sd w).1.lat = w.lat ∧ (rngseedEffect sd w).1.ent = w.ent ∧ (rngseedEffect sd w).1.dig = w.dig ∧
    (rngseedEffect sd w).1.digLen = w.digLen ∧ (rngseedEffect sd w).1.hexb = w.hexb ∧
    (rngseedEffect sd w).1.seedV = w.seedV ∧ (rngseedEffect sd w).1.prngV = true ∧
    (rngseedEffect sd w).1.latV = w.latV ∧ (rngseedEffect sd w).1.digV = w.digV ∧
    (rngseedEffect sd w).1.hexV = w.hexV ∧ (rngseedEffect sd w).2 = .ok :=
  rngseedEffect_fields_of sd w rfl

/-- The effect as one update. -/
theorem genEffect_eq (w : Internal) {lat : Memory} {mt : Generator}
    (h_lat : (drawCells latSize 0 w.mt).1 = lat)
    (h_mt : (drawCells latSize 0 w.mt).2 = mt) :
    genEffect w = ({ w with lat := lat, mt := mt, latV := true }, .ok) := by
  subst h_lat h_mt; rfl

theorem genEffect_fields_of (w : Internal) {lat : Memory} {mt : Generator}
    (h_lat : (drawCells latSize 0 w.mt).1 = lat)
    (h_mt : (drawCells latSize 0 w.mt).2 = mt) :
    (genEffect w).1.seed = w.seed ∧ (genEffect w).1.mt = mt ∧ (genEffect w).1.lat = lat ∧
    (genEffect w).1.ent = w.ent ∧ (genEffect w).1.dig = w.dig ∧ (genEffect w).1.digLen = w.digLen ∧
    (genEffect w).1.hexb = w.hexb ∧ (genEffect w).1.seedV = w.seedV ∧ (genEffect w).1.prngV = w.prngV ∧
    (genEffect w).1.latV = true ∧ (genEffect w).1.digV = w.digV ∧ (genEffect w).1.hexV = w.hexV ∧
    (genEffect w).2 = .ok := by
  rw [genEffect_eq w h_lat h_mt]
  exact ⟨rfl, rfl, rfl, rfl, rfl, rfl, rfl, rfl, rfl, rfl, rfl, rfl, rfl⟩

/-- The effect, field by field. -/
@[simp] theorem genEffect_fields (w : Internal) :
    (genEffect w).1.seed = w.seed ∧ (genEffect w).1.mt = (drawCells latSize 0 w.mt).2 ∧
    (genEffect w).1.lat = (drawCells latSize 0 w.mt).1 ∧ (genEffect w).1.ent = w.ent ∧ (genEffect w).1.dig = w.dig ∧
    (genEffect w).1.digLen = w.digLen ∧ (genEffect w).1.hexb = w.hexb ∧ (genEffect w).1.seedV = w.seedV ∧
    (genEffect w).1.prngV = w.prngV ∧ (genEffect w).1.latV = true ∧ (genEffect w).1.digV = w.digV ∧
    (genEffect w).1.hexV = w.hexV ∧ (genEffect w).2 = .ok :=
  genEffect_fields_of w rfl rfl

/-- The effect as one update. -/
theorem chaosEffect_eq (w : Internal) {lat : Memory}
    (h_lat : (w.lat.mapCells fun _ v => chaosRepeat chaosRepetitions v) = lat) :
    chaosEffect w = ({ w with lat := lat }, .ok) := by
  subst h_lat; rfl

theorem chaosEffect_fields_of (w : Internal) {lat : Memory}
    (h_lat : (w.lat.mapCells fun _ v => chaosRepeat chaosRepetitions v) = lat) :
    (chaosEffect w).1.seed = w.seed ∧ (chaosEffect w).1.mt = w.mt ∧ (chaosEffect w).1.lat = lat ∧
    (chaosEffect w).1.ent = w.ent ∧ (chaosEffect w).1.dig = w.dig ∧ (chaosEffect w).1.digLen = w.digLen ∧
    (chaosEffect w).1.hexb = w.hexb ∧ (chaosEffect w).1.seedV = w.seedV ∧ (chaosEffect w).1.prngV = w.prngV ∧
    (chaosEffect w).1.latV = w.latV ∧ (chaosEffect w).1.digV = w.digV ∧ (chaosEffect w).1.hexV = w.hexV ∧
    (chaosEffect w).2 = .ok := by
  rw [chaosEffect_eq w h_lat]
  exact ⟨rfl, rfl, rfl, rfl, rfl, rfl, rfl, rfl, rfl, rfl, rfl, rfl, rfl⟩

/-- The effect, field by field. -/
@[simp] theorem chaosEffect_fields (w : Internal) :
    (chaosEffect w).1.seed = w.seed ∧ (chaosEffect w).1.mt = w.mt ∧
    (chaosEffect w).1.lat = (w.lat.mapCells fun _ v => chaosRepeat chaosRepetitions v) ∧
    (chaosEffect w).1.ent = w.ent ∧ (chaosEffect w).1.dig = w.dig ∧ (chaosEffect w).1.digLen = w.digLen ∧
    (chaosEffect w).1.hexb = w.hexb ∧ (chaosEffect w).1.seedV = w.seedV ∧ (chaosEffect w).1.prngV = w.prngV ∧
    (chaosEffect w).1.latV = w.latV ∧ (chaosEffect w).1.digV = w.digV ∧ (chaosEffect w).1.hexV = w.hexV ∧
    (chaosEffect w).2 = .ok :=
  chaosEffect_fields_of w rfl

/-- The effect as one update. -/
theorem diffuseEffect_eq (w : Internal) {lat : Memory}
    (h_lat : (w.lat.mapCells fun _ v => diffuseMap v) = lat) :
    diffuseEffect w = ({ w with lat := lat }, .ok) := by
  subst h_lat; rfl

theorem diffuseEffect_fields_of (w : Internal) {lat : Memory}
    (h_lat : (w.lat.mapCells fun _ v => diffuseMap v) = lat) :
    (diffuseEffect w).1.seed = w.seed ∧ (diffuseEffect w).1.mt = w.mt ∧ (diffuseEffect w).1.lat = lat ∧
    (diffuseEffect w).1.ent = w.ent ∧ (diffuseEffect w).1.dig = w.dig ∧ (diffuseEffect w).1.digLen = w.digLen ∧
    (diffuseEffect w).1.hexb = w.hexb ∧ (diffuseEffect w).1.seedV = w.seedV ∧ (diffuseEffect w).1.prngV = w.prngV ∧
    (diffuseEffect w).1.latV = w.latV ∧ (diffuseEffect w).1.digV = w.digV ∧ (diffuseEffect w).1.hexV = w.hexV ∧
    (diffuseEffect w).2 = .ok := by
  rw [diffuseEffect_eq w h_lat]
  exact ⟨rfl, rfl, rfl, rfl, rfl, rfl, rfl, rfl, rfl, rfl, rfl, rfl, rfl⟩

/-- The effect, field by field. -/
@[simp] theorem diffuseEffect_fields (w : Internal) :
    (diffuseEffect w).1.seed = w.seed ∧ (diffuseEffect w).1.mt = w.mt ∧
    (diffuseEffect w).1.lat = (w.lat.mapCells fun _ v => diffuseMap v) ∧ (diffuseEffect w).1.ent = w.ent ∧
    (diffuseEffect w).1.dig = w.dig ∧ (diffuseEffect w).1.digLen = w.digLen ∧ (diffuseEffect w).1.hexb = w.hexb ∧
    (diffuseEffect w).1.seedV = w.seedV ∧ (diffuseEffect w).1.prngV = w.prngV ∧ (diffuseEffect w).1.latV = w.latV ∧
    (diffuseEffect w).1.digV = w.digV ∧ (diffuseEffect w).1.hexV = w.hexV ∧ (diffuseEffect w).2 = .ok :=
  diffuseEffect_fields_of w rfl

/-- The effect as one update. -/
theorem walkEffect_eq (w : Internal) {lat : Memory} {mt : Generator}
    (h_lat : (walk walkIterations (w.lat, w.mt)).1 = lat)
    (h_mt : (walk walkIterations (w.lat, w.mt)).2 = mt) :
    walkEffect w = ({ w with lat := lat, mt := mt }, .ok) := by
  subst h_lat h_mt; rfl

theorem walkEffect_fields_of (w : Internal) {lat : Memory} {mt : Generator}
    (h_lat : (walk walkIterations (w.lat, w.mt)).1 = lat)
    (h_mt : (walk walkIterations (w.lat, w.mt)).2 = mt) :
    (walkEffect w).1.seed = w.seed ∧ (walkEffect w).1.mt = mt ∧ (walkEffect w).1.lat = lat ∧
    (walkEffect w).1.ent = w.ent ∧ (walkEffect w).1.dig = w.dig ∧ (walkEffect w).1.digLen = w.digLen ∧
    (walkEffect w).1.hexb = w.hexb ∧ (walkEffect w).1.seedV = w.seedV ∧ (walkEffect w).1.prngV = w.prngV ∧
    (walkEffect w).1.latV = w.latV ∧ (walkEffect w).1.digV = w.digV ∧ (walkEffect w).1.hexV = w.hexV ∧
    (walkEffect w).2 = .ok := by
  rw [walkEffect_eq w h_lat h_mt]
  exact ⟨rfl, rfl, rfl, rfl, rfl, rfl, rfl, rfl, rfl, rfl, rfl, rfl, rfl⟩

/-- The effect, field by field. -/
@[simp] theorem walkEffect_fields (w : Internal) :
    (walkEffect w).1.seed = w.seed ∧ (walkEffect w).1.mt = (walk walkIterations (w.lat, w.mt)).2 ∧
    (walkEffect w).1.lat = (walk walkIterations (w.lat, w.mt)).1 ∧ (walkEffect w).1.ent = w.ent ∧
    (walkEffect w).1.dig = w.dig ∧ (walkEffect w).1.digLen = w.digLen ∧ (walkEffect w).1.hexb = w.hexb ∧
    (walkEffect w).1.seedV = w.seedV ∧ (walkEffect w).1.prngV = w.prngV ∧ (walkEffect w).1.latV = w.latV ∧
    (walkEffect w).1.digV = w.digV ∧ (walkEffect w).1.hexV = w.hexV ∧ (walkEffect w).2 = .ok :=
  walkEffect_fields_of w rfl rfl

/-- The effect as one update. -/
theorem foldEffect_eq (m o : Bool) (w : Internal) {dig : List Byte} {digLen : BitVec 16}
    (h_dig : digestBuffer o (spongeDigests m (flatLattice w.lat)) = dig)
    (h_digLen : digestLength o = digLen) :
    foldEffect m o w = ({ w with dig := dig, digLen := digLen, digV := true, hexV := false }, .ok) := by
  subst h_dig h_digLen; rfl

theorem foldEffect_fields_of (m o : Bool) (w : Internal) {dig : List Byte} {digLen : BitVec 16}
    (h_dig : digestBuffer o (spongeDigests m (flatLattice w.lat)) = dig)
    (h_digLen : digestLength o = digLen) :
    (foldEffect m o w).1.seed = w.seed ∧ (foldEffect m o w).1.mt = w.mt ∧ (foldEffect m o w).1.lat = w.lat ∧
    (foldEffect m o w).1.ent = w.ent ∧ (foldEffect m o w).1.dig = dig ∧ (foldEffect m o w).1.digLen = digLen ∧
    (foldEffect m o w).1.hexb = w.hexb ∧ (foldEffect m o w).1.seedV = w.seedV ∧ (foldEffect m o w).1.prngV = w.prngV ∧
    (foldEffect m o w).1.latV = w.latV ∧ (foldEffect m o w).1.digV = true ∧ (foldEffect m o w).1.hexV = false ∧
    (foldEffect m o w).2 = .ok := by
  rw [foldEffect_eq m o w h_dig h_digLen]
  exact ⟨rfl, rfl, rfl, rfl, rfl, rfl, rfl, rfl, rfl, rfl, rfl, rfl, rfl⟩

/-- The effect, field by field. -/
@[simp] theorem foldEffect_fields (m o : Bool) (w : Internal) :
    (foldEffect m o w).1.seed = w.seed ∧ (foldEffect m o w).1.mt = w.mt ∧ (foldEffect m o w).1.lat = w.lat ∧
    (foldEffect m o w).1.ent = w.ent ∧
    (foldEffect m o w).1.dig = digestBuffer o (spongeDigests m (flatLattice w.lat)) ∧
    (foldEffect m o w).1.digLen = digestLength o ∧ (foldEffect m o w).1.hexb = w.hexb ∧
    (foldEffect m o w).1.seedV = w.seedV ∧ (foldEffect m o w).1.prngV = w.prngV ∧ (foldEffect m o w).1.latV = w.latV ∧
    (foldEffect m o w).1.digV = true ∧ (foldEffect m o w).1.hexV = false ∧ (foldEffect m o w).2 = .ok :=
  foldEffect_fields_of m o w rfl rfl

/-- The effect as one update. -/
theorem hexEffect_eq (w : Internal) {hexb : List Byte}
    (h_hexb : hexBuffer w.dig w.digLen.toNat = hexb) :
    hexEffect w = ({ w with hexb := hexb, hexV := true }, .ok) := by
  subst h_hexb; rfl

theorem hexEffect_fields_of (w : Internal) {hexb : List Byte}
    (h_hexb : hexBuffer w.dig w.digLen.toNat = hexb) :
    (hexEffect w).1.seed = w.seed ∧ (hexEffect w).1.mt = w.mt ∧ (hexEffect w).1.lat = w.lat ∧
    (hexEffect w).1.ent = w.ent ∧ (hexEffect w).1.dig = w.dig ∧ (hexEffect w).1.digLen = w.digLen ∧
    (hexEffect w).1.hexb = hexb ∧ (hexEffect w).1.seedV = w.seedV ∧ (hexEffect w).1.prngV = w.prngV ∧
    (hexEffect w).1.latV = w.latV ∧ (hexEffect w).1.digV = w.digV ∧ (hexEffect w).1.hexV = true ∧
    (hexEffect w).2 = .ok := by
  rw [hexEffect_eq w h_hexb]
  exact ⟨rfl, rfl, rfl, rfl, rfl, rfl, rfl, rfl, rfl, rfl, rfl, rfl, rfl⟩

/-- The effect, field by field. -/
@[simp] theorem hexEffect_fields (w : Internal) :
    (hexEffect w).1.seed = w.seed ∧ (hexEffect w).1.mt = w.mt ∧ (hexEffect w).1.lat = w.lat ∧
    (hexEffect w).1.ent = w.ent ∧ (hexEffect w).1.dig = w.dig ∧ (hexEffect w).1.digLen = w.digLen ∧
    (hexEffect w).1.hexb = hexBuffer w.dig w.digLen.toNat ∧ (hexEffect w).1.seedV = w.seedV ∧
    (hexEffect w).1.prngV = w.prngV ∧ (hexEffect w).1.latV = w.latV ∧ (hexEffect w).1.digV = w.digV ∧
    (hexEffect w).1.hexV = true ∧ (hexEffect w).2 = .ok :=
  hexEffect_fields_of w rfl

/-- The effect as one update. -/
theorem latzeroEffect_eq (w : Internal) {lat : Memory}
    (h_lat : Memory.tabulate (fun _ => 0) latSize 0 = lat) :
    latzeroEffect w = ({ w with lat := lat, latV := true }, .ok) := by
  subst h_lat; rfl

theorem latzeroEffect_fields_of (w : Internal) {lat : Memory}
    (h_lat : Memory.tabulate (fun _ => 0) latSize 0 = lat) :
    (latzeroEffect w).1.seed = w.seed ∧ (latzeroEffect w).1.mt = w.mt ∧ (latzeroEffect w).1.lat = lat ∧
    (latzeroEffect w).1.ent = w.ent ∧ (latzeroEffect w).1.dig = w.dig ∧ (latzeroEffect w).1.digLen = w.digLen ∧
    (latzeroEffect w).1.hexb = w.hexb ∧ (latzeroEffect w).1.seedV = w.seedV ∧ (latzeroEffect w).1.prngV = w.prngV ∧
    (latzeroEffect w).1.latV = true ∧ (latzeroEffect w).1.digV = w.digV ∧ (latzeroEffect w).1.hexV = w.hexV ∧
    (latzeroEffect w).2 = .ok := by
  rw [latzeroEffect_eq w h_lat]
  exact ⟨rfl, rfl, rfl, rfl, rfl, rfl, rfl, rfl, rfl, rfl, rfl, rfl, rfl⟩

/-- The effect, field by field. -/
@[simp] theorem latzeroEffect_fields (w : Internal) :
    (latzeroEffect w).1.seed = w.seed ∧ (latzeroEffect w).1.mt = w.mt ∧
    (latzeroEffect w).1.lat = Memory.tabulate (fun _ => 0) latSize 0 ∧ (latzeroEffect w).1.ent = w.ent ∧
    (latzeroEffect w).1.dig = w.dig ∧ (latzeroEffect w).1.digLen = w.digLen ∧ (latzeroEffect w).1.hexb = w.hexb ∧
    (latzeroEffect w).1.seedV = w.seedV ∧ (latzeroEffect w).1.prngV = w.prngV ∧ (latzeroEffect w).1.latV = true ∧
    (latzeroEffect w).1.digV = w.digV ∧ (latzeroEffect w).1.hexV = w.hexV ∧ (latzeroEffect w).2 = .ok :=
  latzeroEffect_fields_of w rfl

/-- The effect as one update. -/
theorem chainEffect_ok_eq (x : List Byte) (w : Internal) {seed : BitVec 256}
    (h_seed : chainSeed x = seed) :
    chainEffect (some x) w = ({ w with seed := seed, seedV := true, lat := [], latV := false }, .ok) := by
  subst h_seed; rfl

theorem chainEffect_ok_fields_of (x : List Byte) (w : Internal) {seed : BitVec 256}
    (h_seed : chainSeed x = seed) :
    (chainEffect (some x) w).1.seed = seed ∧ (chainEffect (some x) w).1.mt = w.mt ∧
    (chainEffect (some x) w).1.lat = [] ∧ (chainEffect (some x) w).1.ent = w.ent ∧
    (chainEffect (some x) w).1.dig = w.dig ∧ (chainEffect (some x) w).1.digLen = w.digLen ∧
    (chainEffect (some x) w).1.hexb = w.hexb ∧ (chainEffect (some x) w).1.seedV = true ∧
    (chainEffect (some x) w).1.prngV = w.prngV ∧ (chainEffect (some x) w).1.latV = false ∧
    (chainEffect (some x) w).1.digV = w.digV ∧ (chainEffect (some x) w).1.hexV = w.hexV ∧
    (chainEffect (some x) w).2 = .ok := by
  rw [chainEffect_ok_eq x w h_seed]
  exact ⟨rfl, rfl, rfl, rfl, rfl, rfl, rfl, rfl, rfl, rfl, rfl, rfl, rfl⟩

/-- The effect, field by field. -/
@[simp] theorem chainEffect_ok_fields (x : List Byte) (w : Internal) :
    (chainEffect (some x) w).1.seed = chainSeed x ∧ (chainEffect (some x) w).1.mt = w.mt ∧
    (chainEffect (some x) w).1.lat = [] ∧ (chainEffect (some x) w).1.ent = w.ent ∧
    (chainEffect (some x) w).1.dig = w.dig ∧ (chainEffect (some x) w).1.digLen = w.digLen ∧
    (chainEffect (some x) w).1.hexb = w.hexb ∧ (chainEffect (some x) w).1.seedV = true ∧
    (chainEffect (some x) w).1.prngV = w.prngV ∧ (chainEffect (some x) w).1.latV = false ∧
    (chainEffect (some x) w).1.digV = w.digV ∧ (chainEffect (some x) w).1.hexV = w.hexV ∧
    (chainEffect (some x) w).2 = .ok :=
  chainEffect_ok_fields_of x w rfl

/-- The effect as one update. -/
theorem loadEffect_ok_eq (n : Nat) (x : List Byte) (w : Internal) {lat : Memory}
    (h_lat : loadBytes x 0 w.lat = lat) :
    loadEffect n (some x) w = ({ w with lat := lat }, .ok) := by
  subst h_lat; rfl

theorem loadEffect_ok_fields_of (n : Nat) (x : List Byte) (w : Internal) {lat : Memory}
    (h_lat : loadBytes x 0 w.lat = lat) :
    (loadEffect n (some x) w).1.seed = w.seed ∧ (loadEffect n (some x) w).1.mt = w.mt ∧
    (loadEffect n (some x) w).1.lat = lat ∧ (loadEffect n (some x) w).1.ent = w.ent ∧
    (loadEffect n (some x) w).1.dig = w.dig ∧ (loadEffect n (some x) w).1.digLen = w.digLen ∧
    (loadEffect n (some x) w).1.hexb = w.hexb ∧ (loadEffect n (some x) w).1.seedV = w.seedV ∧
    (loadEffect n (some x) w).1.prngV = w.prngV ∧ (loadEffect n (some x) w).1.latV = w.latV ∧
    (loadEffect n (some x) w).1.digV = w.digV ∧ (loadEffect n (some x) w).1.hexV = w.hexV ∧
    (loadEffect n (some x) w).2 = .ok := by
  rw [loadEffect_ok_eq n x w h_lat]
  exact ⟨rfl, rfl, rfl, rfl, rfl, rfl, rfl, rfl, rfl, rfl, rfl, rfl, rfl⟩

/-- The effect, field by field. -/
@[simp] theorem loadEffect_ok_fields (n : Nat) (x : List Byte) (w : Internal) :
    (loadEffect n (some x) w).1.seed = w.seed ∧ (loadEffect n (some x) w).1.mt = w.mt ∧
    (loadEffect n (some x) w).1.lat = loadBytes x 0 w.lat ∧ (loadEffect n (some x) w).1.ent = w.ent ∧
    (loadEffect n (some x) w).1.dig = w.dig ∧ (loadEffect n (some x) w).1.digLen = w.digLen ∧
    (loadEffect n (some x) w).1.hexb = w.hexb ∧ (loadEffect n (some x) w).1.seedV = w.seedV ∧
    (loadEffect n (some x) w).1.prngV = w.prngV ∧ (loadEffect n (some x) w).1.latV = w.latV ∧
    (loadEffect n (some x) w).1.digV = w.digV ∧ (loadEffect n (some x) w).1.hexV = w.hexV ∧
    (loadEffect n (some x) w).2 = .ok :=
  loadEffect_ok_fields_of n x w rfl

/-- The effect as one update. -/
theorem loadEffect_bus_eq (n : Nat) (w : Internal) {lat : Memory}
    (h_lat : unloadCells n 0 w.lat = lat) :
    loadEffect n none w = ({ w with lat := lat, latV := false }, .bus) := by
  subst h_lat; rfl

theorem loadEffect_bus_fields_of (n : Nat) (w : Internal) {lat : Memory}
    (h_lat : unloadCells n 0 w.lat = lat) :
    (loadEffect n none w).1.seed = w.seed ∧ (loadEffect n none w).1.mt = w.mt ∧ (loadEffect n none w).1.lat = lat ∧
    (loadEffect n none w).1.ent = w.ent ∧ (loadEffect n none w).1.dig = w.dig ∧
    (loadEffect n none w).1.digLen = w.digLen ∧ (loadEffect n none w).1.hexb = w.hexb ∧
    (loadEffect n none w).1.seedV = w.seedV ∧ (loadEffect n none w).1.prngV = w.prngV ∧
    (loadEffect n none w).1.latV = false ∧ (loadEffect n none w).1.digV = w.digV ∧
    (loadEffect n none w).1.hexV = w.hexV ∧ (loadEffect n none w).2 = .bus := by
  rw [loadEffect_bus_eq n w h_lat]
  exact ⟨rfl, rfl, rfl, rfl, rfl, rfl, rfl, rfl, rfl, rfl, rfl, rfl, rfl⟩

/-- The effect, field by field. -/
@[simp] theorem loadEffect_bus_fields (n : Nat) (w : Internal) :
    (loadEffect n none w).1.seed = w.seed ∧ (loadEffect n none w).1.mt = w.mt ∧
    (loadEffect n none w).1.lat = unloadCells n 0 w.lat ∧ (loadEffect n none w).1.ent = w.ent ∧
    (loadEffect n none w).1.dig = w.dig ∧ (loadEffect n none w).1.digLen = w.digLen ∧
    (loadEffect n none w).1.hexb = w.hexb ∧ (loadEffect n none w).1.seedV = w.seedV ∧
    (loadEffect n none w).1.prngV = w.prngV ∧ (loadEffect n none w).1.latV = false ∧
    (loadEffect n none w).1.digV = w.digV ∧ (loadEffect n none w).1.hexV = w.hexV ∧ (loadEffect n none w).2 = .bus :=
  loadEffect_bus_fields_of n w rfl

/-- The effect as one update. -/
theorem entropyEffect_ok_eq (x : List Byte) (w : Internal) {lat : Memory} {ent : Word64}
    (h_lat : w.lat.mapCells (fun a v => v ^^^ (injections (entropyOf x)).getD (csum a) 0) = lat)
    (h_ent : (entropyOf x).encode = ent) :
    entropyEffect (some x) w = ({ w with lat := lat, ent := ent }, .ok) := by
  subst h_lat h_ent; rfl

theorem entropyEffect_ok_fields_of (x : List Byte) (w : Internal) {lat : Memory} {ent : Word64}
    (h_lat : w.lat.mapCells (fun a v => v ^^^ (injections (entropyOf x)).getD (csum a) 0) = lat)
    (h_ent : (entropyOf x).encode = ent) :
    (entropyEffect (some x) w).1.seed = w.seed ∧ (entropyEffect (some x) w).1.mt = w.mt ∧
    (entropyEffect (some x) w).1.lat = lat ∧ (entropyEffect (some x) w).1.ent = ent ∧
    (entropyEffect (some x) w).1.dig = w.dig ∧ (entropyEffect (some x) w).1.digLen = w.digLen ∧
    (entropyEffect (some x) w).1.hexb = w.hexb ∧ (entropyEffect (some x) w).1.seedV = w.seedV ∧
    (entropyEffect (some x) w).1.prngV = w.prngV ∧ (entropyEffect (some x) w).1.latV = w.latV ∧
    (entropyEffect (some x) w).1.digV = w.digV ∧ (entropyEffect (some x) w).1.hexV = w.hexV ∧
    (entropyEffect (some x) w).2 = .ok := by
  rw [entropyEffect_ok_eq x w h_lat h_ent]
  exact ⟨rfl, rfl, rfl, rfl, rfl, rfl, rfl, rfl, rfl, rfl, rfl, rfl, rfl⟩

/-- The effect, field by field. -/
@[simp] theorem entropyEffect_ok_fields (x : List Byte) (w : Internal) :
    (entropyEffect (some x) w).1.seed = w.seed ∧ (entropyEffect (some x) w).1.mt = w.mt ∧
    (entropyEffect (some x) w).1.lat = w.lat.mapCells (fun a v => v ^^^ (injections (entropyOf x)).getD (csum a) 0) ∧
    (entropyEffect (some x) w).1.ent = (entropyOf x).encode ∧ (entropyEffect (some x) w).1.dig = w.dig ∧
    (entropyEffect (some x) w).1.digLen = w.digLen ∧ (entropyEffect (some x) w).1.hexb = w.hexb ∧
    (entropyEffect (some x) w).1.seedV = w.seedV ∧ (entropyEffect (some x) w).1.prngV = w.prngV ∧
    (entropyEffect (some x) w).1.latV = w.latV ∧ (entropyEffect (some x) w).1.digV = w.digV ∧
    (entropyEffect (some x) w).1.hexV = w.hexV ∧ (entropyEffect (some x) w).2 = .ok :=
  entropyEffect_ok_fields_of x w rfl rfl

end Sys2Proof.Machine
end

