-- ==== Sys2Proof/Laws/Primitives.lean ====
section
/-! SUPPORT. Lengths and shapes of what the primitives give: encodings, digests, the generator's words, the entropy's
sum and logarithm, the window buffers. -/

namespace Sys2Proof.Machine

@[simp] theorem leBytes_length (k v : Nat) : (leBytes k v).length = k := by
  induction k generalizing v with
  | zero => rfl
  | succ k ih => simp [leBytes, ih]

@[simp] theorem beBytes_length (k v : Nat) : (beBytes k v).length = k := by simp [beBytes]

@[simp] theorem pieces_length (size count : Nat) (b : List Byte) : (pieces size count b).length = count := by
  induction count generalizing b with
  | zero => rfl
  | succ count ih => simp [pieces, ih]

/-- Encoding a number that fits in k bytes little-endian and reading it back gives it (R11). -/
theorem intLe_leBytes (k v : Nat) (h : v < 256 ^ k) : intLe (leBytes k v) = v := by
  induction k generalizing v with
  | zero => simp at h; simp [leBytes, intLe, h]
  | succ k ih =>
    have hd : v / 256 < 256 ^ k := Nat.div_lt_of_lt_mul (by rwa [Nat.pow_succ, Nat.mul_comm] at h)
    have := ih _ hd
    simp only [intLe] at this
    simp only [intLe, leBytes, List.foldr_cons, this, BitVec.toNat_ofNat]
    omega

@[simp] theorem tableWords_length (w perRow : Nat) (rows : List Nat) :
    (tableWords w perRow rows).length = rows.length * perRow := by
  induction rows with
  | nil => simp [tableWords]
  | cons row rows ih =>
    simp only [tableWords, List.length_flatMap, List.length_map, List.length_range] at ih ⊢
    simp [Nat.succ_mul, Nat.add_comm]

/-! SHA-2. -/

theorem Sha2.compress_length {w : Nat} (p : Sha2 w) (h : List (BitVec w)) (b : List Byte) (hl : h.length = 8) :
    (p.compress h b).length = 8 := by simp [Sha2.compress, hl]

theorem Sha2.digest_length {w : Nat} (p : Sha2 w) (m : List Byte) (hl : p.h0.length = 8) :
    (p.digest m).length = 8 * p.wordBytes := by
  have key : ∀ (bs : List (List Byte)) (h : List (BitVec w)), h.length = 8 → (bs.foldl p.compress h).length = 8 := by
    intro bs
    induction bs with
    | nil => exact fun _ h => h
    | cons b rest ih => exact fun h hh => ih _ (p.compress_length h b hh)
  have flat : ∀ h : List (BitVec w), (h.flatMap fun x => beBytes p.wordBytes x.toNat).length = h.length * p.wordBytes := by
    intro h
    induction h with
    | nil => simp
    | cons x rest ih => simp [ih, Nat.add_mul, Nat.add_comm]
  show ((_ : List (BitVec w)).flatMap _).length = _
  rw [flat, key _ _ hl]

@[simp] theorem sha256_length (m : List Byte) : (sha256 m).length = 32 := by
  rw [sha256]; exact sha256Params.digest_length m rfl

@[simp] theorem sha512_length (m : List Byte) : (sha512 m).length = 64 := by
  rw [sha512]; exact sha512Params.digest_length m rfl

@[simp] theorem roundDigests_length (spMode : Bool) (n : Nat) (absorbed last : List Byte) :
    (roundDigests spMode n absorbed last).length = n := by
  induction n generalizing absorbed last with
  | zero => rfl
  | succ n ih => simp [roundDigests, ih]

/-- Every round digest has 64 bytes (R281). -/
theorem roundDigests_lengths {spMode : Bool} {n : Nat} {absorbed last d : List Byte}
    (h : d ∈ roundDigests spMode n absorbed last) : d.length = 64 := by
  induction n generalizing absorbed last with
  | zero => simp [roundDigests] at h
  | succ n ih =>
    simp only [roundDigests, List.mem_cons] at h
    rcases h with rfl | h
    · split <;> simp
    · exact ih h

/-! The lattice as one string. -/

@[simp] theorem flatBytes_length (n i : Nat) (m : Memory) : (flatBytes n i m).length = n := by
  induction n generalizing i m with
  | zero => cases m <;> rfl
  | succ n ih =>
    cases m with
    | nil => simp [flatBytes, ih]
    | cons c rest => simp only [flatBytes]; split <;> simp [ih]

/-! The generator. -/

@[simp] theorem genrandWords_length (n i : Nat) (prev : Word) : (genrandWords n i prev).length = n := by
  induction n generalizing i prev with
  | zero => rfl
  | succ n ih => simp [genrandWords, ih]

@[simp] theorem initGenrand_length (s : Word) : (initGenrand s).length = 624 := by simp [initGenrand]

@[simp] theorem wrapIndex_length (mt : List Word) (i : Nat) : (wrapIndex mt i).1.length = mt.length := by
  unfold wrapIndex; split <;> simp

@[simp] theorem mixKey_length (key : List Word) (n : Nat) (mt : List Word) (i j : Nat) :
    (mixKey key n mt i j).1.length = mt.length := by
  induction n generalizing mt i j with
  | zero => rfl
  | succ n ih => simp [mixKey, ih]

@[simp] theorem mixIndex_length (n : Nat) (mt : List Word) (i : Nat) : (mixIndex n mt i).length = mt.length := by
  induction n generalizing mt i with
  | zero => rfl
  | succ n ih => simp [mixIndex, ih]

@[simp] theorem initByArray_length (key : List Word) : (initByArray key).words.length = 624 := by
  unfold initByArray; dsimp only
  rw [List.length_set, mixIndex_length, mixKey_length, initGenrand_length]

@[simp] theorem initByArray_index (key : List Word) : (initByArray key).index = 624 := by
  unfold initByArray; rfl

@[simp] theorem twistStep_length (mt : List Word) (k : Nat) : (twistStep mt k).length = mt.length := by simp [twistStep]

theorem foldl_twistStep_length (ks : List Nat) (mt : List Word) : (ks.foldl twistStep mt).length = mt.length := by
  induction ks generalizing mt with
  | nil => rfl
  | cons k ks ih => simp [ih]

@[simp] theorem Generator.twist_length (g : Generator) : g.twist.words.length = g.words.length := by
  unfold Generator.twist; dsimp only
  rw [foldl_twistStep_length]

@[simp] theorem Generator.twist_index (g : Generator) : g.twist.index = 0 := by
  unfold Generator.twist; rfl

/-- A generator has 624 words and an index of at most 624 (R42). -/
def Generator.legal (g : Generator) : Prop := g.words.length = 624 ∧ g.index ≤ 624

theorem Generator.u32_legal {g : Generator} (h : g.legal) : g.u32.2.legal := by
  obtain ⟨hl, hi⟩ := h
  unfold Generator.u32 Generator.legal
  split
  · simp [hl]
  · exact ⟨hl, by show g.index + 1 ≤ 624; omega⟩

theorem Generator.drawWithin_legal {n tries : Nat} {g : Generator} (h : g.legal) : (g.drawWithin n tries).2.legal := by
  induction tries generalizing g with
  | zero => exact h
  | succ tries ih =>
    simp only [Generator.drawWithin]
    split
    · exact u32_legal h
    · exact ih (u32_legal h)

theorem Generator.draw_legal {n : Nat} {g : Generator} (h : g.legal) : (g.draw n).2.legal := drawWithin_legal h

theorem Generator.draws_legal {n count : Nat} {g : Generator} (h : g.legal) : (Generator.draws n count g).2.legal := by
  induction count generalizing g with
  | zero => exact h
  | succ count ih => exact ih (draw_legal h)

theorem drawCells_legal {n i : Nat} {g : Generator} (h : g.legal) : (drawCells n i g).2.legal := by
  induction n generalizing i g with
  | zero => exact h
  | succ n ih => exact ih (Generator.draw_legal h)

theorem walk_legal {n : Nat} {w : Memory × Generator} (h : w.2.legal) : (walk n w).2.legal := by
  induction n generalizing w with
  | zero => exact h
  | succ n ih => exact ih (Generator.draw_legal (Generator.draws_legal h))

/-! The entropy. -/

/-- The logarithm of a power of two is its exponent (R255). -/
theorem F64.log2c_twoPow (e : Int) : F64.log2c ⟨2 ^ 52, e⟩ = roundDyadic (e + 52) 0 := by simp [F64.log2c]

/-- Where 512 bits settle every digit, the floor of the logarithm is those digits. -/
theorem logFloor_settled {m d : Nat} (h : logDigits 128 (m * 2 ^ (logBits - 52)) (m * 2 ^ (logBits - 52)) 0 = some d) :
    logFloor m = d := by
  rw [logFloor, h, Option.getD_some]

/-- Where they do not, it is read off the power. -/
theorem logFloor_unsettled {m : Nat} (h : logDigits 128 (m * 2 ^ (logBits - 52)) (m * 2 ^ (logBits - 52)) 0 = none) :
    logFloor m = logFloorByPower m := by
  rw [logFloor, h, Option.getD_none]

/-- The entropy of an empty input, and of any other (R255). -/
theorem entropyOf_eq (x : List Byte) :
    entropyOf x = if x.length = 0 then ⟨0, 0⟩ else ((List.range 256).foldl (entropyTerm x) ⟨0, 0⟩).zeroMinus := by
  unfold entropyOf
  rfl

/-- The sum after one more byte value (R255). -/
theorem entropySum_succ (x : List Byte) (n : Nat) :
    (List.range (n + 1)).foldl (entropyTerm x) ⟨0, 0⟩ = entropyTerm x ((List.range n).foldl (entropyTerm x) ⟨0, 0⟩) n := by
  rw [List.range_succ, List.foldl_append, List.foldl_cons, List.foldl_nil]

/-! The buffers. -/

@[simp] theorem padTo_length (n : Nat) (b : List Byte) : (padTo n b).length = n := by simp [padTo]

/-- A byte of a padded string: the string's own, and zero after it. -/
theorem padTo_getD (n : Nat) (b : List Byte) {j : Nat} (h : j < n) : (padTo n b).getD j 0 = b.getD j 0 := by
  simp only [padTo, List.getD_eq_getElem?_getD, List.getElem?_take, h, if_true]
  by_cases hj : j < b.length
  · simp [List.getElem?_append_left hj]
  · rw [List.getElem?_append_right (by omega), List.getElem?_replicate]
    rw [List.getElem?_eq_none (by omega)]
    split <;> rfl

@[simp] theorem hexBuffer_length (dig : List Byte) (n : Nat) : (hexBuffer dig n).length = 768 := padTo_length _ _

@[simp] theorem digestBuffer_length (outLen : Bool) (ds : List (List Byte)) : (digestBuffer outLen ds).length = 384 :=
  padTo_length _ _

end Sys2Proof.Machine
end

