-- ==== Sys2Proof/Laws/Reset.lean ====
section
/-! SUPPORT. The state after reset, field by field. -/

namespace Sys2Proof.Machine

@[simp] theorem State.reset_ie : State.reset.ie = false := rfl
@[simp] theorem State.reset_spMode : State.reset.spMode = false := rfl
@[simp] theorem State.reset_outLen : State.reset.outLen = false := rfl
@[simp] theorem State.reset_cur : State.reset.cur = none := rfl
@[simp] theorem State.reset_done : State.reset.done = false := rfl
@[simp] theorem State.reset_ovr : State.reset.ovr = false := rfl
@[simp] theorem State.reset_err : State.reset.err = .ok := rfl
@[simp] theorem State.reset_inAddrLo : State.reset.inAddrLo = 0 := rfl
@[simp] theorem State.reset_inAddrHi : State.reset.inAddrHi = 0 := rfl
@[simp] theorem State.reset_inLenLo : State.reset.inLenLo = 0 := rfl
@[simp] theorem State.reset_inLenHi : State.reset.inLenHi = 0 := rfl
@[simp] theorem State.reset_latIdx : State.reset.latIdx = 0 := rfl
@[simp] theorem State.reset_int : State.reset.int = Internal.reset := rfl
@[simp] theorem State.reset_mem : State.reset.mem = [] := rfl
@[simp] theorem State.reset_inReset : State.reset.inReset = false := rfl
@[simp] theorem State.reset_resp : State.reset.resp = .none := rfl
@[simp] theorem State.reset_fresh : State.reset.fresh = 0 := rfl
@[simp] theorem State.reset_inputs : State.reset.inputs = [] := rfl

@[simp] theorem Internal.reset_seed : Internal.reset.seed = 0 := rfl
@[simp] theorem Internal.reset_lat : Internal.reset.lat = [] := rfl
@[simp] theorem Internal.reset_ent : Internal.reset.ent = 0 := rfl
@[simp] theorem Internal.reset_digLen : Internal.reset.digLen = 0 := rfl
@[simp] theorem Internal.reset_seedV : Internal.reset.seedV = false := rfl
@[simp] theorem Internal.reset_prngV : Internal.reset.prngV = false := rfl
@[simp] theorem Internal.reset_latV : Internal.reset.latV = false := rfl
@[simp] theorem Internal.reset_digV : Internal.reset.digV = false := rfl
@[simp] theorem Internal.reset_hexV : Internal.reset.hexV = false := rfl

@[simp] theorem Internal.reset_mt_length : Internal.reset.mt.words.length = 624 := List.length_replicate

@[simp] theorem Internal.reset_mt_index : Internal.reset.mt.index = 0 := rfl

@[simp] theorem Internal.reset_dig_length : Internal.reset.dig.length = 384 := List.length_replicate

@[simp] theorem Internal.reset_hexb_length : Internal.reset.hexb.length = 768 := List.length_replicate

/-- Every byte of the digest buffer is 0 (R380). -/
@[simp] theorem Internal.reset_dig_getD (j : Nat) : Internal.reset.dig.getD j 0 = 0 := by
  show (List.replicate 384 (0 : Byte)).getD j 0 = 0
  generalize 384 = n
  by_cases h : j < n <;> simp [List.getD_eq_getElem?_getD, h]

/-- Every byte of the hex buffer is 0 (R380). -/
@[simp] theorem Internal.reset_hexb_getD (j : Nat) : Internal.reset.hexb.getD j 0 = 0 := by
  show (List.replicate 768 (0 : Byte)).getD j 0 = 0
  generalize 768 = n
  by_cases h : j < n <;> simp [List.getD_eq_getElem?_getD, h]

end Sys2Proof.Machine
end

