-- ==== Sys2Proof/Laws/Invariant.lean ====
section
/-! SUPPORT. The lattice cells that the commands keep, and the invariant of the internal state through each effect. -/

namespace Sys2Proof.Machine

theorem latSize_eq : latSize = 2 ^ 24 := by unfold latSize; rfl

/-! Which cells a command leaves in place. -/

/-- Cells of a lattice lie below a bound. -/
def keysBelow (n : Nat) (m : Memory) : Prop := ∀ c ∈ m, c.1 < n

/-- Exclusive-oring a cell adds no cell. -/
theorem keysBelow_xorCell {lat : Memory} {n : Nat} (x : Nat) (v : Byte) (h : keysBelow n lat) :
    keysBelow n (xorCell lat x v) := by
  intro c hc
  unfold xorCell at hc
  split at hc
  · exact h c hc
  · next b hr =>
    rcases Memory.mem_write hc with rfl | hc
    · exact h (x, b) (Memory.mem_of_read hr)
    · exact h c hc

/-- Exclusive-oring a cell leaves defined cells defined. -/
theorem defined_xorCell {lat : Memory} {y : Nat} (x : Nat) (v : Byte) (h : lat.read y ≠ none) :
    (xorCell lat x v).read y ≠ none := by
  rw [read_xorCell]
  split
  · next he => subst he; simpa using h
  · exact h

theorem keysBelow_loadBytes (bytes : List Byte) (i : Nat) {lat : Memory} {n : Nat} (h : keysBelow n lat) :
    keysBelow n (loadBytes bytes i lat) := by
  induction bytes generalizing i lat with
  | nil => exact h
  | cons b rest ih => exact ih _ (keysBelow_xorCell _ _ h)

theorem defined_loadBytes (bytes : List Byte) (i : Nat) {lat : Memory} {y : Nat} (h : lat.read y ≠ none) :
    (loadBytes bytes i lat).read y ≠ none := by
  induction bytes generalizing i lat with
  | nil => exact h
  | cons b rest ih => exact ih _ (defined_xorCell _ _ h)

theorem keysBelow_unloadCells (k i : Nat) {lat : Memory} {n : Nat} (h : keysBelow n lat) :
    keysBelow n (unloadCells k i lat) := by
  induction k generalizing i lat with
  | zero => exact h
  | succ k ih => exact ih _ (fun c hc => h c (List.mem_of_mem_filter hc))

theorem keysBelow_walk (k : Nat) {w : Memory × Generator} {n : Nat} (h : keysBelow n w.1) : keysBelow n (walk k w).1 := by
  induction k generalizing w with
  | zero => exact h
  | succ k ih => exact ih (keysBelow_xorCell _ _ h)

theorem defined_walk (k : Nat) {w : Memory × Generator} {y : Nat} (h : w.1.read y ≠ none) : (walk k w).1.read y ≠ none := by
  induction k generalizing w with
  | zero => exact h
  | succ k ih => exact ih (defined_xorCell _ _ h)

theorem keysBelow_mapCells (f : Nat → Byte → Byte) {m : Memory} {n : Nat} (h : keysBelow n m) :
    keysBelow n (m.mapCells f) := by
  intro c hc
  obtain ⟨d, hd, rfl⟩ := List.mem_map.1 hc
  exact h d hd

theorem keysBelow_drawCells (n : Nat) (g : Generator) : keysBelow n (drawCells n 0 g).1 := by
  intro c hc
  have : c.1 ∈ (drawCells n 0 g).1.map (·.1) := List.mem_map_of_mem hc
  rw [keys_drawCells] at this
  simpa using this

theorem defined_drawCells {n x : Nat} (g : Generator) (hx : x < n) : (drawCells n 0 g).1.read x ≠ none := by
  intro hn
  have : x ∈ (drawCells n 0 g).1.map (·.1) := by rw [keys_drawCells]; simpa using hx
  obtain ⟨c, hc, rfl⟩ := List.mem_map.1 this
  exact Memory.read_eq_none.1 hn c hc rfl

/-! The invariant of the internal state. -/

/-- New values of everything but the digest and its hex string, where the lattice says what `LATV` says. -/
theorem Internal.Inv.update {w : Internal} (h : w.Inv) {seed : BitVec 256} {mt : Generator} {lat : Memory} {ent : Word64}
    {sv pv lv : Bool} (hg : mt.legal) (hf : lat.wf = true) (hk : keysBelow latSize lat)
    (hd : lv = true → ∀ x < latSize, lat.read x ≠ none) :
    ({ w with seed := seed, mt := mt, lat := lat, ent := ent, seedV := sv, prngV := pv, latV := lv } : Internal).Inv :=
  ⟨hf, hk, hd, hg.1, hg.2, h.digSize, h.digLength, h.digValid, h.digTail, h.hexSize, h.hexDigest, h.hexCurrent⟩

theorem Internal.Inv.legal {w : Internal} (h : w.Inv) : w.mt.legal := ⟨h.mtWords, h.mtIndex⟩

/-- The internal state after reset is what its valid flags say. -/
theorem Internal.reset_inv : Internal.reset.Inv :=
  ⟨rfl, nofun, nofun, reset_mt_length, Nat.zero_le _, reset_dig_length, .inl rfl, ⟨nofun, fun h => absurd rfl h⟩,
    fun j _ => reset_dig_getD j, reset_hexb_length, nofun, nofun⟩

theorem chainEffect_inv {w : Internal} (h : w.Inv) (x : Option (List Byte)) : (chainEffect x w).1.Inv := by
  cases x with
  | none => exact h
  | some x =>
    rw [chainEffect_ok_eq x w rfl]
    exact h.update h.legal rfl (fun c hc => absurd hc (by simp)) (by simp)

theorem rngseedEffect_inv {w : Internal} (h : w.Inv) (seed : BitVec 256) : (rngseedEffect seed w).1.Inv := by
  rw [rngseedEffect_eq seed w rfl]
  exact h.update ⟨initByArray_length _, (initByArray_index _).le⟩ h.latForm h.latKeys h.latDefined

theorem genEffect_inv {w : Internal} (h : w.Inv) : (genEffect w).1.Inv := by
  rw [genEffect_eq w rfl rfl]
  exact h.update (drawCells_legal h.legal) (wf_drawCells _ _ _) (keysBelow_drawCells _ _)
    (fun _ x hx => defined_drawCells _ hx)

theorem loadEffect_inv {w : Internal} (h : w.Inv) (n : Nat) (x : Option (List Byte)) : (loadEffect n x w).1.Inv := by
  cases x with
  | none =>
    rw [loadEffect_bus_eq n w rfl]
    exact h.update h.legal (wf_unloadCells _ _ h.latForm) (keysBelow_unloadCells _ _ h.latKeys) (by simp)
  | some x =>
    rw [loadEffect_ok_eq n x w rfl]
    exact h.update h.legal (wf_loadBytes _ _ h.latForm) (keysBelow_loadBytes _ _ h.latKeys)
      (fun hv y hy => defined_loadBytes _ _ (h.latDefined hv y hy))

/-- Changing every cell by a function keeps the invariant. -/
theorem Internal.Inv.mapCells {w : Internal} (h : w.Inv) {ent : Word64} (f : Nat → Byte → Byte) :
    ({ w with lat := w.lat.mapCells f, ent := ent } : Internal).Inv :=
  h.update h.legal (Memory.wf_mapCells h.latForm f) (keysBelow_mapCells f h.latKeys)
    (fun hv x hx => by simpa using h.latDefined hv x hx)

theorem chaosEffect_inv {w : Internal} (h : w.Inv) : (chaosEffect w).1.Inv := by
  rw [chaosEffect_eq w rfl]
  exact h.mapCells _

theorem entropyEffect_inv {w : Internal} (h : w.Inv) (x : Option (List Byte)) : (entropyEffect x w).1.Inv := by
  cases x with
  | none => exact h
  | some x =>
    rw [entropyEffect_ok_eq x w rfl rfl]
    exact h.mapCells _

theorem diffuseEffect_inv {w : Internal} (h : w.Inv) : (diffuseEffect w).1.Inv := by
  rw [diffuseEffect_eq w rfl]
  exact h.mapCells _

theorem walkEffect_inv {w : Internal} (h : w.Inv) : (walkEffect w).1.Inv := by
  rw [walkEffect_eq w rfl rfl]
  exact h.update (walk_legal (w := (w.lat, w.mt)) h.legal)
    (wf_walk _ _ h.latForm) (keysBelow_walk _ h.latKeys) (fun hv y hy => defined_walk _ (h.latDefined hv y hy))

theorem latzeroEffect_inv {w : Internal} (h : w.Inv) : (latzeroEffect w).1.Inv := by
  rw [latzeroEffect_eq w rfl]
  exact h.update h.legal (Memory.wf_tabulate _ _ _) (fun c hc => by have := Memory.mem_tabulate hc; omega)
    (fun _ x hx => by rw [Memory.read_tabulate]; simp [hx])

/-- The bytes of a padded string from its own end on are zero. -/
theorem padTo_tail {n m : Nat} {b : List Byte} (hb : b.length ≤ m) {j : Nat} (hj : m ≤ j) : (padTo n b).getD j 0 = 0 := by
  by_cases h : j < n
  · rw [padTo_getD _ _ h, List.getD_eq_default _ _ (by omega)]
  · rw [List.getD_eq_default _ _ (by rw [padTo_length]; omega)]

/-- The digest buffer is zero from `DIGLEN` on (R44, R328). -/
theorem digestBuffer_tail (m o : Bool) (f : List Byte) {j : Nat} (hj : (digestLength o).toNat ≤ j) :
    (digestBuffer o (spongeDigests m f)).getD j 0 = 0 := by
  refine padTo_tail (m := (digestLength o).toNat) ?_ hj
  have hl := roundDigests_length m 6 f (sha512 f)
  have h64 : ∀ d ∈ roundDigests m 6 f (sha512 f), d.length = 64 := fun d hd => roundDigests_lengths hd
  have flat : ∀ l : List (List Byte), (∀ d ∈ l, d.length = 64) → l.flatten.length = 64 * l.length := by
    intro l
    induction l with
    | nil => simp
    | cons d rest ih =>
      intro hd
      simp only [List.flatten_cons, List.length_append, List.length_cons, ih (fun e he => hd e (by simp [he])), hd d (by simp)]
      omega
  unfold spongeDigests
  generalize roundDigests m 6 f (sha512 f) = ds at hl h64
  cases o
  · simp only [Bool.false_eq_true, if_false, digestLength]
    rw [flat ds h64, hl]
    decide
  · simp only [if_true, digestLength]
    rw [List.getD_eq_getElem _ _ (by omega), h64 _ (List.getElem_mem _)]
    decide

theorem foldEffect_inv {w : Internal} (h : w.Inv) (m o : Bool) : (foldEffect m o w).1.Inv := by
  have hl : digestLength o = 0 ∨ digestLength o = 64 ∨ digestLength o = 384 := by cases o <;> decide
  have hv : true = true ↔ digestLength o ≠ 0 := by cases o <;> decide
  rw [foldEffect_eq m o w rfl rfl]
  exact ⟨h.latForm, h.latKeys, h.latDefined, h.mtWords, h.mtIndex, digestBuffer_length _ _,
    hl, hv, fun j hj => digestBuffer_tail _ _ _ hj, h.hexSize, nofun, nofun⟩

theorem hexEffect_inv {w : Internal} (h : w.Inv) (hd : w.digV = true) : (hexEffect w).1.Inv := by
  rw [hexEffect_eq w rfl]
  exact ⟨h.latForm, h.latKeys, h.latDefined, h.mtWords, h.mtIndex, h.digSize, h.digLength, h.digValid, h.digTail,
    hexBuffer_length _ _, fun _ => hd, fun _ => rfl⟩

end Sys2Proof.Machine
end

