-- ==== Sys2Proof/Laws/PerInstr.lean ====
section
/-! SUPPORT. Families of statements about every instruction as syntax, one lemma per constructor. -/

namespace Sys2Proof.Laws.EncodingFits

/-- An instruction's bits are a command word of 32 bits, or a host access of 48 bits whose bit 15 is zero (R100, R106). -/
def Statement (i : Instr) : Prop :=
  ((encode i).nbits = 32 ∧ (encode i).bits < 2 ^ 32) ∨
  ((encode i).nbits = 48 ∧ (encode i).bits < 2 ^ 48 ∧ (encode i).bits / 2 ^ 15 % 2 = 0)

theorem of_command (w : Word) : (encodeCommand w).nbits = 32 ∧ (encodeCommand w).bits < 2 ^ 32 := ⟨rfl, w.isLt⟩

theorem of_access (had : BitVec 15) (d : Word) :
    (encodeAccess had d).nbits = 48 ∧ (encodeAccess had d).bits < 2 ^ 48 ∧ (encodeAccess had d).bits / 2 ^ 15 % 2 = 0 := by
  have h1 := had.isLt
  have h2 := d.isLt
  refine ⟨rfl, ?_, ?_⟩ <;> simp only [encodeAccess] <;> omega

theorem nop : Statement (.nop) := .inl (of_command _)
theorem chain : Statement (.chain) := .inl (of_command _)
theorem rngseed : Statement (.rngseed) := .inl (of_command _)
theorem gen : Statement (.gen) := .inl (of_command _)
theorem load : Statement (.load) := .inl (of_command _)
theorem chaos : Statement (.chaos) := .inl (of_command _)
theorem entropy : Statement (.entropy) := .inl (of_command _)
theorem diffuse : Statement (.diffuse) := .inl (of_command _)
theorem walk : Statement (.walk) := .inl (of_command _)
theorem fold : Statement (.fold) := .inl (of_command _)
theorem hex : Statement (.hex) := .inl (of_command _)
theorem latzero : Statement (.latzero) := .inl (of_command _)
theorem digest : Statement (.digest) := .inl (of_command _)
theorem illegalCmd (hi : BitVec 24) (op : BitVec 8) : Statement (.illegalCmd hi op) := .inl (of_command _)
theorem rdId : Statement (.rdId) := .inr (of_access _ _)
theorem wrId (d : Word) : Statement (.wrId d) := .inr (of_access _ _)
theorem rdCtrl : Statement (.rdCtrl) := .inr (of_access _ _)
theorem wrCtrl (d : Word) : Statement (.wrCtrl d) := .inr (of_access _ _)
theorem rdStatus : Statement (.rdStatus) := .inr (of_access _ _)
theorem wrStatus (d : Word) : Statement (.wrStatus d) := .inr (of_access _ _)
theorem rdCmd : Statement (.rdCmd) := .inr (of_access _ _)
theorem wrCmd (d : Word) : Statement (.wrCmd d) := .inr (of_access _ _)
theorem rdInAddrLo : Statement (.rdInAddrLo) := .inr (of_access _ _)
theorem wrInAddrLo (d : Word) : Statement (.wrInAddrLo d) := .inr (of_access _ _)
theorem rdInAddrHi : Statement (.rdInAddrHi) := .inr (of_access _ _)
theorem wrInAddrHi (d : Word) : Statement (.wrInAddrHi d) := .inr (of_access _ _)
theorem rdInLenLo : Statement (.rdInLenLo) := .inr (of_access _ _)
theorem wrInLenLo (d : Word) : Statement (.wrInLenLo d) := .inr (of_access _ _)
theorem rdInLenHi : Statement (.rdInLenHi) := .inr (of_access _ _)
theorem wrInLenHi (d : Word) : Statement (.wrInLenHi d) := .inr (of_access _ _)
theorem rdProgress : Statement (.rdProgress) := .inr (of_access _ _)
theorem wrProgress (d : Word) : Statement (.wrProgress d) := .inr (of_access _ _)
theorem rdLatIdx : Statement (.rdLatIdx) := .inr (of_access _ _)
theorem wrLatIdx (d : Word) : Statement (.wrLatIdx d) := .inr (of_access _ _)
theorem rdLatData : Statement (.rdLatData) := .inr (of_access _ _)
theorem wrLatData (d : Word) : Statement (.wrLatData d) := .inr (of_access _ _)
theorem rdDiglen : Statement (.rdDiglen) := .inr (of_access _ _)
theorem wrDiglen (d : Word) : Statement (.wrDiglen d) := .inr (of_access _ _)
theorem rdSeed (k : BitVec 3) : Statement (.rdSeed k) := .inr (of_access _ _)
theorem wrSeed (k : BitVec 3) (d : Word) : Statement (.wrSeed k d) := .inr (of_access _ _)
theorem rdEntropyLo : Statement (.rdEntropyLo) := .inr (of_access _ _)
theorem wrEntropyLo (d : Word) : Statement (.wrEntropyLo d) := .inr (of_access _ _)
theorem rdEntropyHi : Statement (.rdEntropyHi) := .inr (of_access _ _)
theorem wrEntropyHi (d : Word) : Statement (.wrEntropyHi d) := .inr (of_access _ _)
theorem rdDig (w : BitVec 7) : Statement (.rdDig w) := .inr (of_access _ _)
theorem wrDig (w : BitVec 7) (d : Word) : Statement (.wrDig w d) := .inr (of_access _ _)
theorem rdHex (w : BitVec 8) : Statement (.rdHex w) := .inr (of_access _ _)
theorem wrHex (w : BitVec 8) (d : Word) : Statement (.wrHex w d) := .inr (of_access _ _)
theorem rsvd (w : Bool) (off : BitVec 12) : Statement (.rsvd w off) := .inr (of_access _ _)
theorem accessError (sz : BitVec 2) (w : Bool) (off : BitVec 12) : Statement (.accessError sz w off) := .inr (of_access _ _)

end Sys2Proof.Laws.EncodingFits
end

