-- ==== Sys2Proof/Tests/Slice0.lean ====
section
/-! SUPPORT. Our own tests: ill-formed terms that `WellFormed` refuses, words written out from the encoding tables,
known-answer values and single steps from the spec's test vectors (95_test_vectors.md), and for each statement with
hypotheses a witness that meets them. -/

namespace Sys2Proof.Tests

open Sys2Proof Sys2Proof.Machine

/-! Ill-formed terms, one for each check of `Instr.wellFormed`. -/

theorem test_wf_refuses_legal_opcode_as_illegal : (Instr.illegalCmd 0 0x05).wellFormed = false := by decide

theorem test_wf_refuses_digest_opcode_as_illegal : (Instr.illegalCmd 0 0x0F).wellFormed = false := by decide

theorem test_wf_refuses_dig_word_96 :
    (Instr.rdDig 96).wellFormed = false ∧ (Instr.wrDig 96 0).wellFormed = false := by decide

theorem test_wf_refuses_hex_word_192 :
    (Instr.rdHex 192).wellFormed = false ∧ (Instr.wrHex 192 0).wellFormed = false := by decide

theorem test_wf_refuses_unaligned_reserved : (Instr.rsvd false 0x059).wellFormed = false := by decide

theorem test_wf_refuses_mapped_as_reserved :
    (Instr.rsvd true 0x000).wellFormed = false ∧ (Instr.rsvd false 0x054).wellFormed = false ∧
    (Instr.rsvd false 0x27C).wellFormed = false ∧ (Instr.rsvd false 0x6FC).wellFormed = false := by decide

theorem test_wf_refuses_aligned_access_error : (Instr.accessError 2 false 0x004).wellFormed = false := by decide

/-- The boundary values of every operand are well formed. -/
theorem test_wf_boundaries :
    ([.illegalCmd 0 0x0C, .illegalCmd 0 0x0E, .illegalCmd 0 0x10, .illegalCmd 1 0x00, .illegalCmd 0xFFFFFF 0xFF,
      .rdDig 95, .wrDig 0 0, .rdHex 191, .wrHex 0 0, .rdSeed 7, .wrSeed 0 0, .rsvd false 0x058, .rsvd true 0x0FC,
      .rsvd false 0x280, .rsvd true 0x3FC, .rsvd false 0x700, .rsvd true 0xFFC, .accessError 2 false 0x001,
      .accessError 0 true 0x000, .accessError 3 false 0xFFF] : List Instr).all Instr.wellFormed = true := by decide

/-! Words written out from the tables of 30_encoding.md (R101, R103, R106) and the register map of R22. -/

theorem test_decode_commands : (List.range 12).map (decodeTableWord 32) =
    [some .nop, some .chain, some .rngseed, some .gen, some .load, some .chaos, some .entropy, some .diffuse,
      some .walk, some .fold, some .hex, some .latzero] ∧
    decodeTableWord 32 0b00000000000000000000000000001111 = some .digest := by decide

theorem test_decode_illegal_commands :
    [0x0000000C, 0x0000000E, 0x00000010, 0x000000FF, 0x00000105, 0xFFFFFFFF].map (decodeTableWord 32) =
    [some (.illegalCmd 0 0x0C), some (.illegalCmd 0 0x0E), some (.illegalCmd 0 0x10), some (.illegalCmd 0 0xFF),
      some (.illegalCmd 1 0x05), some (.illegalCmd 0xFFFFFF 0xFF)] := by decide

/-- SZ = 10, W = 0, then the offset. -/
theorem test_decode_reads :
    [0b100000000000000, 0b100000000000100, 0b100000000001000, 0b100000000001100, 0b100000000010000, 0b100000000010100,
      0b100000000011000, 0b100000000011100, 0b100000000100000, 0b100000000100100, 0b100000000101000,
      0b100000000101100].map (decodeTableWord 16) =
    [some .rdId, some .rdCtrl, some .rdStatus, some .rdCmd, some .rdInAddrLo, some .rdInAddrHi, some .rdInLenLo,
      some .rdInLenHi, some .rdProgress, some .rdLatIdx, some .rdLatData, some .rdDiglen] := by decide

/-- SZ = 10, W = 1, then the offset; the data value stands from bit 16 on. -/
theorem test_decode_writes :
    [0x000000015000, 0x000000025004, 0x000000035008, 0x00000004500C, 0x000000055010, 0x000000065014, 0x000000075018,
      0x00000008501C, 0x000000095020, 0x0000000A5024, 0x0000000B5028, 0xFFFFFFFF502C].map (decodeTableWord 48) =
    [some (.wrId 1), some (.wrCtrl 2), some (.wrStatus 3), some (.wrCmd 4), some (.wrInAddrLo 5), some (.wrInAddrHi 6),
      some (.wrInLenLo 7), some (.wrInLenHi 8), some (.wrProgress 9), some (.wrLatIdx 10), some (.wrLatData 11),
      some (.wrDiglen 0xFFFFFFFF)] := by decide

theorem test_decode_seed :
    [0x4030, 0x4034, 0x4038, 0x403C, 0x4040, 0x4044, 0x4048, 0x404C].map (decodeTableWord 16) =
    [0, 1, 2, 3, 4, 5, 6, 7].map (fun k => some (.rdSeed k)) ∧
    decodeTableWord 48 0xDA9EA8245030 = some (.wrSeed 0 0xDA9EA824) ∧
    decodeTableWord 48 0xA7518E2B504C = some (.wrSeed 7 0xA7518E2B) := by decide

theorem test_decode_entropy :
    decodeTableWord 16 0x4050 = some .rdEntropyLo ∧ decodeTableWord 16 0x4054 = some .rdEntropyHi ∧
    decodeTableWord 48 0x000000055050 = some (.wrEntropyLo 5) ∧
    decodeTableWord 48 0x000000055054 = some (.wrEntropyHi 5) := by decide

theorem test_decode_windows :
    decodeTableWord 16 0x4100 = some (.rdDig 0) ∧ decodeTableWord 16 0x427C = some (.rdDig 95) ∧
    decodeTableWord 48 0x000000095104 = some (.wrDig 1 9) ∧ decodeTableWord 16 0x4400 = some (.rdHex 0) ∧
    decodeTableWord 16 0x46FC = some (.rdHex 191) ∧ decodeTableWord 48 0x000000095404 = some (.wrHex 1 9) := by decide

theorem test_decode_reserved :
    [0x4058, 0x40FC, 0x4280, 0x43FC, 0x4700, 0x4FFC].map (decodeTableWord 16) =
    [0x058, 0x0FC, 0x280, 0x3FC, 0x700, 0xFFC].map (fun off => some (.rsvd false off)) ∧
    decodeTableWord 48 0x000000015058 = some (.rsvd true 0x058) := by decide

theorem test_decode_access_errors :
    decodeTableWord 16 0x0000 = some (.accessError 0 false 0x000) ∧
    decodeTableWord 16 0x3004 = some (.accessError 1 true 0x004) ∧
    decodeTableWord 16 0x6008 = some (.accessError 3 false 0x008) ∧
    decodeTableWord 16 0x4002 = some (.accessError 2 false 0x002) ∧
    decodeTableWord 16 0x4401 = some (.accessError 2 false 0x401) := by decide

theorem test_decode_refuses_by_name :
    decodeBits 8 0 = .error (.badLength 8) ∧ decodeTableWord 32 0x100000000 = none ∧
    decodeTableWord 16 0x8000 = none := by decide

/-! Known answers (95_test_vectors.md). -/

/-- K2. -/
theorem test_sha256_abc : intBe (sha256 [0x61, 0x62, 0x63]) =
    0xba7816bf8f01cfea414140de5dae2223b00361a396177a9cb410ff61f20015ad := by decide +kernel

/-- K5. -/
theorem test_sha512_abc : intBe (sha512 [0x61, 0x62, 0x63]) =
    0xddaf35a193617abacc417349ae20413112e6fa4e89a97ea20a9eeee64b55d39a2192992a274fc1a836ba3c23a3feebbd454d4423643ce80e2a9ac94fa54ca49f := by
  decide +kernel

/-- K7. -/
theorem test_sha3_512_abc : intBe (sha3_512 [0x61, 0x62, 0x63]) =
    0xb751850b1a57168a5693cd924b6b096e08f621827444f70d884f5d0240d2712e10e116e9192af3c91a7ec57647e3934057340b4cf408d5a56592f8274eec53f0 := by
  decide +kernel

/-- K9. -/
theorem test_shake256_abc : intBe (shake256 [0x61, 0x62, 0x63] 64) =
    0x483366601360a8771c6863080cc4114d8db44530f8f1e1ee4f94ea37e78b5739d5a15bef186a5386c75744c0527e1faa9f8726e462a12a4feb06bd8801e751e4 := by
  decide +kernel

/-- K10: key "Jefe", message "what do ya want for nothing?". -/
theorem test_hmac256 : intBe (hmac256 (beBytes 4 0x4a656665)
    (beBytes 28 0x7768617420646f2079612077616e7420666f72206e6f7468696e673f)) =
    0x5bdcc146bf60754e6a042426089575c75a003f089d2739839dec58b964ec3843 := by decide +kernel

/-- K11's first 32 bytes: password "passwd", salt "salt", one iteration. -/
theorem test_pbkdf2 : intBe (pbkdf2 (beBytes 6 0x706173737764) (beBytes 4 0x73616c74) 1 32) =
    0x55ac046e56e3089fec1691c22544b605f94185216dde0465e68b9d57c20dacbc := by decide +kernel

/-- K13: the first 32 bytes. -/
theorem test_salsa20_8 : intBe ((salsa20_8 (beBytes 64
    0x7e879a214f3ec9867ca940e641718f26baee555b8c61c1b50df846116dcd3b1dee24f319df9b3d8514121e4b5ac5aa3276021d2909c74829edebc68db8b8c25e)).take 32) =
    0xa41f859c6608cc993b81cacb020cef05044b2181a2fd337dfd7b1c6396682f29 := by decide +kernel

/-- V-RG1, V-RG3, V-RG4: the keys of the seeds. -/
theorem test_seed_keys : keyOf 0 = [0] ∧ keyOf (BitVec.twoPow 256 32) = [0, 1] ∧
    keyOf (BitVec.allOnes 256) = List.replicate 8 0xFFFFFFFF := by decide +kernel

/-- V-IX1 to V-IX4. -/
theorem test_lattice_indexes :
    [0, 1, 2, 7, 8, 9, 63, 64, 0o12345670].map ldidx =
      [0x000000, 0x200000, 0x400000, 0xE00000, 0x040000, 0x240000, 0xFC0000, 0x008000, 0x1F58D1] ∧
    [0, 1, 0x200000, 0x123456, 0xD84FA7, 0xFFFFFF].map csum = [0, 1, 1, 22, 40, 56] := by decide

/-- V-CA1 to V-CA16. -/
theorem test_chaos_map :
    [0, 1, 4, 11, 24, 25, 29, 43, 59, 97, 133, 176, 179, 184, 222, 255].map chaosMap =
    [0, 215, 62, 0, 24, 222, 86, 43, 163, 97, 222, 18, 18, 250, 222, 126] := by decide

/-- V-EN1, V-EN2, V-EN3, V-EN5, V-EN7. -/
theorem test_entropy :
    [[], [0x61, 0x61, 0x61, 0x61], [0x61, 0x62], [0x61, 0x61, 0x62], [0x61, 0x62, 0x63, 0x64]].map
      (fun x => (entropyOf x).encode) =
    [0, 0, 0x3ff0000000000000, 0x3fed62adf1ea257c, 0x4000000000000000] := by decide +kernel

/-- V-DF1 to V-DF8. -/
theorem test_diffuse : [0, 1, 31, 32, 97, 128, 222, 255].map diffuseMap = [17, 25, 9, 17, 25, 17, 1, 9] := by decide

/-- V-HX3. -/
theorem test_hex_digits : [0x2E, 0x00, 0xFF, 0x9A].map hexPair =
    [[0x32, 0x65], [0x30, 0x30], [0x66, 0x66], [0x39, 0x61]] := by decide

/-! Single steps. -/

/-- The state after one step; the state itself where the step stops. -/
def next (s : State) : State :=
  match step s with
  | .next t => t
  | .fault _ => s
  | .refused _ => s

/-- V-NP1's second half: with the `NOP` issued, the engine's turn leaves `STATUS = 2`. -/
theorem test_nop_completes :
    (next { State.reset with cur := some ⟨.nop, State.reset.sample, none, []⟩ }).statusWord = 2 := by
  simp [next, step, State.turn, State.reset, State.engineTurn, Op.instr, exec, execNop, State.command,
    State.completeWith, State.complete]
  decide

/-- V-GN2: after reset `RNGSEED` is rejected with `SEQ` (2): `DONE` and `ERR` in `STATUS`. -/
theorem test_rngseed_after_reset_is_seq : (next (State.reset.withFetchWord 32 2)).statusWord = 0x2002 := by
  decide +kernel

/-- An illegal word is rejected with `ILLEGAL` (1) (R341). -/
theorem test_illegal_after_reset : (next (State.reset.withFetchWord 32 0x0C)).statusWord = 0x1002 := by decide +kernel

/-- R312: the reserved bits of `CTRL` are dropped. -/
theorem test_ctrl_write : (next (State.reset.withFetchWord 48 0xFFFFFFFF5004)).ctrlWord = 7 := by decide +kernel

/-- R326: `SEED2` is bits 95:64, and the write sets `SEEDV`. -/
theorem test_seed_write :
    (next (State.reset.withFetchWord 48 0xDEADBEEF5038)).int.seed = BitVec.ofNat 256 0xDEADBEEF0000000000000000 ∧
    (next (State.reset.withFetchWord 48 0xDEADBEEF5038)).statusWord = 0x10 := by decide +kernel

/-- R320, R321: the write goes to the last cell, and the index wraps to 0. -/
theorem test_lat_data_write :
    let t := next ({ State.reset with latIdx := 0xFFFFFF }.withFetchWord 48 0x000001AB5028)
    t.int.lat = [(0xFFFFFF, 0xAB)] ∧ t.latIdx = 0 := by decide +kernel

/-- R310: `ID`. -/
theorem test_id_read : (next (State.reset.withFetchWord 16 0x4000)).resp = .data 0x30720701 := by decide +kernel

/-- R324: a 16-bit read gets the bus error response. -/
theorem test_access_error : (next (State.reset.withFetchWord 16 0x2004)).resp = .busError := by decide +kernel

/-- R382: a host access while the reset input is asserted. -/
theorem test_access_during_reset :
    step { State.reset with inReset := true, inputs := [.host 0x4000 0] } = .fault .accessDuringReset := rfl

/-- V-LD1 on the two cells that it names. -/
theorem test_load_ab : (loadEffect 2 (some [0x61, 0x62])
    { Internal.reset with lat := [(0, 0), (0x200000, 0)], latV := true }).1.lat = [(0, 0x61), (0x200000, 0x62)] := by
  decide +kernel

/-- V-LD6: a bus error leaves the cells of the positions undefined and clears `LATV`. -/
theorem test_load_bus_error :
    let w := (loadEffect 2 none { Internal.reset with lat := [(0, 1), (1, 2), (0x200000, 3)], latV := true }).1
    w.lat = [(1, 2)] ∧ w.latV = false := by decide +kernel

/-- V-CA5, V-CA6, V-CA7 through the 256 passes, and a cell that stays undefined. -/
theorem test_chaos_cells : (chaosEffect { Internal.reset with lat := [(0, 24), (1, 25), (3, 29)] }).1.lat =
    [(0, 24), (1, 222), (3, 0)] := by decide +kernel

/-! Witnesses: for every statement with hypotheses, concrete states and operands that meet them. -/

/-- The values sampled with `IN_LEN = 2` and every other register at its reset value. -/
def twoByteArgs : Operands := { inAddr := 0, inLen := 2, spMode := false, outLen := false, seed := 0 }

/-- A command that was just accepted. -/
def running (op : Op) : Running := ⟨op, twoByteArgs, none, []⟩

/-- The input "ab" at address 0, and a running command, on given internal state. -/
def busyOn (w : Internal) (op : Op) : State :=
  { State.reset with mem := [(0, 0x61), (1, 0x62)], inLenLo := 2, cur := some (running op), int := w }

/-- The same on the internal state after reset. -/
def busy (op : Op) : State := busyOn Internal.reset op

/-- The input "ab". -/
def ab : List Byte := [0x61, 0x62]

/-- Every cell is 0 and `LATV = 1`. -/
def zeroed : Internal := (latzeroEffect Internal.reset).1

/-- After a `FOLD` in the TRUNC64 mode. -/
def folded : Internal := (foldEffect false true zeroed).1

theorem two_le_space : 2 ≤ 2 ^ Config.addrW := by
  have h := Nat.pow_le_pow_right (n := 2) (by decide) addrW_bounds.1
  omega

theorem witness_busy_cur (w : Internal) (op : Op) : (busyOn w op).cur = some (running op) := rfl

theorem witness_stableInput (w : Internal) (op : Op) :
    (busyOn w op).stableInput (running op) ab ∧ ab.length = (running op).args.inLen.toNat ∧
    ab.length = min (running op).args.inLen.toNat (2 ^ 24) := by
  refine ⟨⟨rfl, fun i hi => ?_⟩, rfl, rfl⟩
  have h : i = 0 ∨ i = 1 := by simp [ab] at hi; omega
  rcases h with rfl | rfl <;> rfl

theorem busyOn_inv {w : Internal} (hw : w.Inv) {op : Op} (hs : w.seed = 0) (hf : flagsHold op w = true) :
    (busyOn w op).Inv where
  int := hw
  memForm := rfl
  addrLo := Nat.two_pow_pos _
  addrHi := Nat.two_pow_pos _
  running r hr := by
    cases hr
    refine ⟨?_, hf, ?_, rfl, fun st hst => by simp [running] at hst⟩
    · simp [running, twoByteArgs, State.sample, State.inAddr, State.inLen, busyOn, hs]
    · have h2 := two_le_space
      have hr : regionWraps (running op).args = false := by
        have h1 := addrW_bounds.1
        simp [regionWraps, running, twoByteArgs]
        omega
      have ht : tooLong (running op).args = false := rfl
      have ho : (running op).op = op := rfl
      rw [ho]
      cases op <;> simp [rangeFails, hr, ht]
  reset h := by simp [busyOn] at h

theorem zeroed_inv : zeroed.Inv := latzeroEffect_inv Internal.reset_inv

theorem folded_inv : folded.Inv := foldEffect_inv zeroed_inv _ _

theorem zeroed_latV : zeroed.latV = true := by simp [zeroed]

theorem folded_digV : folded.digV = true := by simp [folded]

/-- EncodeDecodeRoundTrip: see `test_wf_boundaries`; DecodedInstructionsAreWellFormed. -/
theorem witness_DecodedInstructionsAreWellFormed :
    decodeBits 32 0x0F = .ok .digest ∧ decodeBits 16 0x4FFC = .ok (.rsvd false 0xFFC) ∧
    decodeBits 48 0x0000000F500C = .ok (.wrCmd 15) := by decide

theorem witness_StepRunsDecodedInstruction :
    (State.reset.inReset = false ∧ decodeTableWord 32 1 = some .chain ∧ State.reset.cur = none) ∧
    ((busy .walk).inReset = false ∧ decodeTableWord 48 0x25008 = some (.wrStatus 2) ∧ (busy .walk).cur ≠ none) :=
  ⟨⟨rfl, by decide, rfl⟩, rfl, by decide, by simp [busy, busyOn]⟩

theorem witness_EngineTurnRunsCommand :
    ((busy .chaos).inReset = false ∧ (busy .chaos).inputs = [] ∧ (busy .chaos).cur = some (running .chaos)) ∧
    ({ busy .chaos with inputs := [.engine] } : State).inputs = .engine :: [] ∧ State.reset.cur = none :=
  ⟨⟨rfl, rfl, rfl⟩, rfl, rfl⟩

theorem witness_ResetAbandonsCommand :
    ({ busy .walk with inputs := [.resetOn] } : State).inputs = .resetOn :: [] ∧
    ({ State.reset with inReset := true, inputs := [.resetOff] } : State).inputs = .resetOff :: [] := ⟨rfl, rfl⟩

theorem witness_StepKeepsInvariant : (busy .nop).Inv ∧ ∃ t, step (busy .nop) = .next t :=
  ⟨busyOn_inv Internal.reset_inv rfl rfl, _, rfl⟩

/-- The register accesses: an idle and a busy state, and both kinds of lattice cell. -/
theorem witness_register_accesses :
    State.reset.cur = none ∧ (busy .digest).cur ≠ none ∧ State.reset.Inv ∧
    State.reset.int.lat.read State.reset.latIdx.toNat = none ∧
    ({ busy .nop with int := { Internal.reset with lat := [(0xFFFFFF, 7)] }, latIdx := 0xFFFFFF } : State).int.lat.read
      0xFFFFFF = some 7 := by
  refine ⟨rfl, by simp [busy, busyOn], ?_, rfl, by decide⟩
  exact { int := Internal.reset_inv, memForm := rfl, addrLo := Nat.two_pow_pos _, addrHi := Nat.two_pow_pos _
          running := (fun r hr => by cases hr), reset := (fun h => by cases h) }

theorem witness_windows : (0 : BitVec 7).toNat < 96 ∧ (95 : BitVec 7).toNat < 96 ∧
    (0 : BitVec 8).toNat < 192 ∧ (191 : BitVec 8).toNat < 192 := by decide

theorem witness_ReservedAccess : ∀ off ∈ ([0x058, 0x0FC, 0x280, 0x3FC, 0x700, 0xFFC] : List (BitVec 12)),
    off.toNat % 4 = 0 ∧
    ((0x058 ≤ off.toNat ∧ off.toNat ≤ 0x0FF) ∨ (0x280 ≤ off.toNat ∧ off.toNat ≤ 0x3FF) ∨ 0x700 ≤ off.toNat) := by
  simp

theorem witness_AccessErrorAnswer : ∀ had ∈ ([0x0000, 0x3FFC, 0x6000, 0x7FFF, 0x4001, 0x5FFF] : List (BitVec 15)),
    had.toNat / 2 ^ 13 ≠ 2 ∨ had.toNat % 4 ≠ 0 := by simp

/-- CommandIssue: illegal words at the boundaries, and words of legal commands. -/
theorem witness_CommandIssue_words :
    (∀ w ∈ ([0x100, 0xFFFFFF00, 0x0C, 0x0E, 0x10, 0xFF] : List Word),
      w.toNat / 256 ≠ 0 ∨ w.toNat % 256 ∈ [0x0C, 0x0D, 0x0E] ∨ 0x10 ≤ w.toNat % 256) ∧
    (0 : Word).toNat = Op.nop.code.toNat ∧ (0x0B : Word).toNat = Op.latzero.code.toNat ∧
    (0x0F : Word).toNat = Op.digest.code.toNat := by
  simp [Op.code]

/-- CommandIssue: a missing flag of each row of R342. -/
theorem witness_CommandIssue_flags :
    (∀ op ∈ [Op.rngseed, .gen, .load, .chaos, .entropy, .diffuse, .walk, .fold, .hex], flagMissing op State.reset.int) ∧
    flagMissing .walk zeroed ∧ (∀ op ∈ [Op.nop, .chain, .latzero, .digest], ¬ flagMissing op State.reset.int) ∧
    ¬ flagMissing .load zeroed := by
  refine ⟨?_, .inr (.inl ⟨by decide, by simp [zeroed]⟩), ?_, ?_⟩ <;> simp [flagMissing, zeroed_latV]

/-- CommandIssue: the range check of R343 at its boundaries. At the last address of the space one byte is in range and
two are not; 2^61 bytes are too long for `CHAIN` and `DIGEST`. -/
theorem witness_CommandIssue_range :
    (∀ op ∈ [Op.chain, .digest, .load, .entropy], outOfRange op (2 ^ Config.addrW - 1) 2) ∧
    (∀ op ∈ [Op.chain, .digest, .load, .entropy], ¬ outOfRange op (2 ^ Config.addrW - 1) 1) ∧
    ({ State.reset with inAddrLo := 0xFFFFFFFF, inAddrHi := 0xFFFFFFFF, inLenLo := 2 } : State).addrValue =
      2 ^ Config.addrW - 1 ∧
    (∀ op ∈ [Op.chain, .digest], outOfRange op 0 (2 ^ 61)) ∧
    ({ State.reset with inLenHi := 0x20000000 } : State).lenValue = 2 ^ 61 ∧
    (∀ op ∈ [Op.chain, .digest, .load, .entropy], ¬ outOfRange op 0 0) := by
  have h2 := two_le_space
  refine ⟨?_, ?_, ?_, ?_, by decide, ?_⟩
  · intro op hop
    exact .inl ⟨hop, by decide, by omega⟩
  · intro op hop h
    rcases h with ⟨-, -, h⟩ | ⟨-, h⟩
    · omega
    · exact absurd h (by decide)
  · have hs : (0xFFFFFFFF : Word).toNat * 2 ^ 32 + (0xFFFFFFFF : Word).toNat = 2 ^ 64 - 1 := by decide +kernel
    have hd : 2 ^ 64 = 2 ^ Config.addrW * 2 ^ (64 - Config.addrW) := by
      rw [← Nat.pow_add, Nat.add_sub_cancel' addrW_bounds.2]
    have hp := Nat.two_pow_pos (64 - Config.addrW)
    simp only [State.addrValue, hs]
    obtain ⟨k, hk⟩ := Nat.exists_eq_succ_of_ne_zero (Nat.pos_iff_ne_zero.mp hp)
    rw [hd, hk, Nat.mul_succ, Nat.add_sub_assoc (by omega), Nat.mul_add_mod, Nat.mod_eq_of_lt (by omega)]
  · intro op hop
    exact .inr ⟨hop, Nat.le_refl _⟩
  · intro op hop h
    rcases h with ⟨-, h, -⟩ | ⟨-, h⟩
    · exact absurd h (by decide)
    · exact absurd h (by decide)

/-- CommandWordsIssue: an illegal word while idle, and `CHAIN` while a `WALK` runs. -/
theorem witness_CommandWordsIssue :
    State.reset.cur = none ∧ decodeCommand 0x10C = .illegalCmd 1 0x0C ∧
    (busy .walk).cur = some (running .walk) ∧ decodeCommand 1 ≠ (running .walk).op.instr :=
  ⟨rfl, by decide, rfl, by decide⟩

theorem witness_NopLifecycle : (busy .nop).cur = some (running .nop) ∧ (running .nop).op = .nop ∧
    State.reset.cur = none ∧ State.reset.inReset = false ∧ State.reset.inputs = [] := ⟨rfl, rfl, rfl, rfl, rfl⟩

/-- Chain, Gen, Load, Chaos, Entropy, Diffuse, Walk and LatzeroCompletes: the running command, and by
`witness_stableInput` its input. -/
theorem witness_command_completes (op : Op) : (busyOn zeroed op).cur = some (running op) ∧ (running op).op = op :=
  ⟨rfl, rfl⟩

/-- EntropyCompletes: the partial sums of an input, as its hypotheses ask for them. -/
theorem witness_EntropyCompletes (x : List Byte) :
    let S := fun n => (List.range n).foldl (entropyTerm x) ⟨0, 0⟩
    S 0 = ⟨0, 0⟩ ∧
    ∀ b < 256, S (b + 1) =
      let c := x.count (BitVec.ofNat 8 b)
      let p := roundPositive c x.length
      if c = 0 then S b else (S b).add (p.mul p.log2c) :=
  ⟨rfl, fun b _ => by simp only [List.range_succ, List.foldl_append, List.foldl_cons, List.foldl_nil, entropyTerm]⟩

/-- RngseedCompletes: the keys of the seeds 0 and 2^32. -/
theorem witness_RngseedCompletes :
    (∃ r : Running, r.op = .rngseed ∧ [(0 : Word)].foldr (fun k rest => k.toNat + 2 ^ 32 * rest) 0 = r.args.seed.toNat) ∧
    (∃ r : Running, r.op = .rngseed ∧
      [(0 : Word), 1].foldr (fun k rest => k.toNat + 2 ^ 32 * rest) 0 = r.args.seed.toNat ∧
      [(0 : Word), 1].length ≠ 1 ∧ [(0 : Word), 1].getLast? ≠ some 0) :=
  ⟨⟨running .rngseed, rfl, by decide⟩,
    ⟨⟨.rngseed, { twoByteArgs with seed := BitVec.twoPow 256 32 }, none, []⟩, rfl, by decide, by decide, by decide⟩⟩

/-- The absorbed digests of the ABSORB mode, first one first. -/
def absorbed (flatLat : List Byte) : Nat → List (List Byte)
  | 0 => [sha512 flatLat]
  | k + 1 => absorbed flatLat k ++ [sha512 (flatLat ++ (absorbed flatLat k).flatten)]

/-- Round digest k of the ABSORB mode. -/
def absorbDigest (flatLat : List Byte) : Nat → List Byte
  | 0 => sha512 flatLat
  | k + 1 => sha512 (flatLat ++ (absorbed flatLat k).flatten)

theorem absorbed_eq_map (f : List Byte) (k : Nat) : absorbed f k = (List.range (k + 1)).map (absorbDigest f) := by
  induction k with
  | zero => rfl
  | succ k ih =>
    rw [List.range_succ, List.map_append, ← ih]
    rfl

theorem witness_FoldCompletes_state :
    (busyOn zeroed .fold).Inv ∧ (busyOn zeroed .fold).int.latV = true ∧
    (busyOn zeroed .fold).cur = some (running .fold) ∧ (running .fold).op = .fold :=
  ⟨busyOn_inv zeroed_inv (by simp [zeroed]) (by simp [flagsHold, zeroed_latV]), zeroed_latV, rfl, rfl⟩

/-- Digests that meet FoldCompletes's hypotheses, in the ABSORB and in the CHAIN mode. -/
theorem witness_FoldCompletes_digests (f : List Byte) :
    (absorbDigest f 0 = sha512 f ∧
      ∀ k < 6, absorbDigest f (k + 1) = sha512 (f ++ ((List.range (k + 1)).map (absorbDigest f)).flatten)) ∧
    ∃ d : Nat → List Byte, d 0 = sha512 f ∧ ∀ k < 6, d (k + 1) = sha512 (d k) :=
  ⟨⟨rfl, fun k _ => by rw [← absorbed_eq_map]; rfl⟩,
    fun k => sha512^[k] (sha512 f), rfl, fun k _ => Function.iterate_succ_apply' _ _ _⟩

theorem witness_HexCompletes :
    (busyOn folded .hex).Inv ∧ (busyOn folded .hex).cur = some (running .hex) ∧ (running .hex).op = .hex ∧
    63 < (busyOn folded .hex).int.digLen.toNat ∧ 2 * (busyOn folded .hex).int.digLen.toNat ≤ 128 := by
  have hl : (busyOn folded .hex).int.digLen = 64 := by simp [busyOn, folded, digestLength]
  refine ⟨busyOn_inv folded_inv (by simp [folded, zeroed]) (by simp [flagsHold, folded_digV]), rfl, rfl, ?_, ?_⟩ <;>
    rw [hl] <;> decide

/-- DigestTurns: no stage, and the first and the last stage. -/
theorem witness_DigestTurns :
    let order := [Op.chain, .rngseed, .gen, .load, .chaos, .entropy, .diffuse, .walk, .fold, .hex]
    (busy .digest).cur = some (running .digest) ∧ (running .digest).op = .digest ∧ (running .digest).stage = none ∧
    order[0]? = some .chain ∧ order[0 + 1]? = some .rngseed ∧ order[9]? = some .hex ∧
    ({ running .digest with stage := some ⟨.hex, folded⟩ } : Running).stage = some ⟨.hex, folded⟩ :=
  ⟨rfl, rfl, rfl, rfl, rfl, rfl, rfl⟩

/-- DigestTurns: a first stage that ends with `OK`, and one that ends with `BUS`. -/
theorem witness_DigestTurns_outcomes :
    (∃ u, exec Op.chain.instr (busy .chain) = .next u ∧ u.err = .ok) ∧
    ∃ u, exec Op.chain.instr { busy .chain with mem := [] } = .next u ∧ u.err = .bus := by
  constructor
  · refine ⟨_, rfl, ?_⟩
    have h := (busy .chain).input_of_stable (witness_stableInput Internal.reset .chain).1
    have hn : inputCount .chain (running .chain).args = ab.length := by decide
    simp only [State.completeReading_eq, hn]
    rw [h]
    simp
  · exact ⟨_, rfl, rfl⟩

/-- BusErrorEffects: the first and the last byte of two answer with a bus error. -/
theorem witness_BusErrorEffects :
    let s : State := { busy .load with mem := [(0, 0x61)] }
    s.cur = some (running .load) ∧ (running .load).touched = [] ∧ 1 < 2 ∧
    s.mem.read ((running .load).args.inAddr.toNat + 1) = none ∧ 2 = (running .load).args.inLen.toNat ∧
    2 = min (running .load).args.inLen.toNat (2 ^ 24) ∧
    ({ s with mem := [] } : State).mem.read ((running .load).args.inAddr.toNat + 0) = none := by decide

theorem witness_DigestRunsThePipeline :
    (busy .digest).inReset = false ∧ (busy .digest).inputs = [] ∧ (busy .digest).cur = some (running .digest) ∧
    (running .digest).op = .digest ∧ (running .digest).stage = none ∧
    (busy .digest).stableInput (running .digest) ab ∧ ab.length = (running .digest).args.inLen.toNat :=
  ⟨rfl, rfl, rfl, rfl, rfl, (witness_stableInput _ _).1, by decide⟩

/-- StagesMatchDigest: the empty input, and two bytes at address 0. -/
theorem witness_StagesMatchDigest :
    (State.reset.inReset = false ∧ State.reset.cur = none ∧
      ¬ outOfRange .digest State.reset.addrValue State.reset.lenValue ∧ ([] : List Byte).length = State.reset.lenValue) ∧
    (let s : State := { busy .nop with cur := none }
     s.inReset = false ∧ s.cur = none ∧ ¬ outOfRange .digest s.addrValue s.lenValue ∧ ab.length = s.lenValue ∧
      ∀ i < ab.length, s.mem.read (s.addrValue + i) = ab[i]?) := by
  have ha : State.reset.addrValue = 0 := Nat.zero_mod _
  have hb : ({ busy .nop with cur := none } : State).addrValue = 0 := Nat.zero_mod _
  have hl : ({ busy .nop with cur := none } : State).lenValue = 2 := by decide
  have h2 := two_le_space
  refine ⟨⟨rfl, rfl, ?_, by decide⟩, rfl, rfl, ?_, hl.symm, ?_⟩
  · rw [ha]
    exact witness_CommandIssue_range.2.2.2.2.2 .digest (by decide)
  · rw [hb, hl]
    rintro (⟨-, -, h⟩ | ⟨-, h⟩)
    · omega
    · exact absurd h (by decide)
  · rw [hb]
    decide

/-- DigestIgnoresEarlierState: with the state of `witness_DigestRunsThePipeline`, another one that differs from it. -/
theorem witness_DigestIgnoresEarlierState :
    (busyOn folded .digest).inReset = false ∧ (busyOn folded .digest).inputs = [] ∧
    (busyOn folded .digest).cur = some (running .digest) ∧ (busyOn folded .digest).stableInput (running .digest) ab ∧
    busyOn folded .digest ≠ busy .digest := by
  refine ⟨rfl, rfl, rfl, (witness_stableInput _ _).1, fun h => ?_⟩
  have hd := congrArg (fun s : State => s.int.digV) h
  simp [busyOn, busy, folded_digV] at hd

/-- InputBytesAreOldOrNew: a write of an input byte while a command runs and one on an idle engine, a whole input, and an unreadable one. -/
theorem witness_InputBytesAreOldOrNew :
    (let s : State := { busy .chain with inputs := [.memory 1 (some 0x63)] }
     s.inputs = .memory 1 (some 0x63) :: [] ∧ s.cur = some (running .chain)) ∧
    (let s : State := { State.reset with inputs := [.memory 1 none] }
     s.inputs = .memory 1 none :: [] ∧ s.cur = none) ∧
    (busy .chain).input (running .chain) 2 = some ab ∧
    ({ busy .chain with mem := [(0, 0x61)] } : State).input (running .chain) 2 = none :=
  ⟨⟨rfl, rfl⟩, ⟨rfl, rfl⟩, rfl, rfl⟩

theorem witness_EveryCommandCompletes (op : Op) :
    (busy op).inReset = false ∧ (busy op).inputs = [] ∧ (busy op).cur = some (running op) := ⟨rfl, rfl, rfl⟩

theorem witness_HostCannotDisturbRunning : (busy .digest).cur ≠ none := by simp [busy, busyOn]

/-- ValidFlagWriters and InternalStateWriters: every flag rises somewhere, and `LATV` falls. -/
theorem witness_ValidFlagWriters :
    (∃ t, exec (.wrSeed 0 1) State.reset = .next t ∧ t.int.seedV = true ∧ State.reset.int.seedV = false) ∧
    (∃ t, exec .rngseed (busy .rngseed) = .next t ∧ t.int.prngV = true ∧ (busy .rngseed).int.prngV = false) ∧
    (∃ t, exec .latzero (busy .latzero) = .next t ∧ t.int.latV = true ∧ (busy .latzero).int.latV = false) ∧
    (∃ t, exec .load { busyOn zeroed .load with mem := [] } = .next t ∧ t.int.latV = false ∧
      (busyOn zeroed .load).int.latV = true) ∧
    (∃ t, exec .fold (busyOn zeroed .fold) = .next t ∧ t.int.digV = true ∧ zeroed.digV = false) ∧
    (∃ t, exec .hex (busyOn folded .hex) = .next t ∧ t.int.hexV = true ∧ folded.hexV = false) := by
  refine ⟨⟨_, rfl, rfl, rfl⟩, ⟨_, rfl, ?_, rfl⟩, ⟨_, rfl, ?_, rfl⟩, ⟨_, rfl, ?_, zeroed_latV⟩, ⟨_, rfl, ?_, ?_⟩,
    ⟨_, rfl, ?_, ?_⟩⟩
  · simp
  · simp
  · have hi : ({ busyOn zeroed .load with mem := [] } : State).input (running .load) 2 = none := rfl
    have hn : inputCount .load (running .load).args = 2 := by simp [inputCount, running, twoByteArgs, latSize_eq]
    simp only [State.completeReading_eq, hn]
    rw [hi]
    simp
  · simp
  · simp [zeroed]
  · simp
  · simp [folded]

/-- RegisterWriters: writes that change their registers, a rejection that changes `ERR` and `DONE`, an acceptance and a
completion that change `BUSY`, and a write while busy that changes `OVR` with the two acknowledgements. -/
theorem witness_RegisterWriters :
    (∃ t, exec (.wrCtrl 7) State.reset = .next t ∧ t.ie = true ∧ t.spMode = true ∧ t.outLen = true) ∧
    (∃ t, exec (.wrInLenLo 5) State.reset = .next t ∧ t.inLenLo ≠ State.reset.inLenLo) ∧
    (∃ t, exec .rdLatData State.reset = .next t ∧ t.latIdx ≠ State.reset.latIdx) ∧
    (∃ t, exec (.illegalCmd 1 0) State.reset = .next t ∧ t.err ≠ State.reset.err ∧ t.done = true) ∧
    (∃ t, exec (.wrCmd 0) State.reset = .next t ∧ t.busy = true) ∧
    (∃ t, exec .nop (busy .nop) = .next t ∧ t.busy = false ∧ t.done = true) ∧
    (∃ t, exec (.wrSeed 0 1) (busy .nop) = .next t ∧ t.ovr = true ∧ (busy .nop).cur ≠ none) ∧
    (∃ t, exec (.wrStatus 6) { State.reset with done := true, ovr := true } = .next t ∧ t.done = false ∧ t.ovr = false) :=
  ⟨⟨_, rfl, rfl, rfl, rfl⟩, ⟨_, rfl, by decide⟩, ⟨_, rfl, by decide⟩, ⟨_, rfl, by decide, rfl⟩, ⟨_, rfl, rfl⟩,
    ⟨_, rfl, rfl, rfl⟩, ⟨_, rfl, rfl, by simp [busy, busyOn]⟩, ⟨_, rfl, rfl, rfl⟩⟩

/-- InterruptChanges: the output rises at a completion, a rejection and a `CTRL` write, and falls at an acceptance and an
acknowledgement. -/
theorem witness_InterruptChanges :
    (∃ t, exec .nop { busy .nop with ie := true } = .next t ∧ t.irq = true) ∧
    (∃ t, exec (.illegalCmd 1 0) { State.reset with ie := true } = .next t ∧ t.irq = true) ∧
    (∃ t, exec (.wrCtrl 1) { State.reset with done := true } = .next t ∧ t.irq = true) ∧
    (∃ t, exec (.wrCmd 0) { State.reset with ie := true, done := true } = .next t ∧ t.irq = false) ∧
    (∃ t, exec (.wrStatus 2) { State.reset with ie := true, done := true } = .next t ∧ t.irq = false) :=
  ⟨⟨_, rfl, rfl⟩, ⟨_, rfl, rfl⟩, ⟨_, rfl, rfl⟩, ⟨_, rfl, rfl⟩, ⟨_, rfl, rfl⟩⟩

theorem witness_LatticeCoordinates : 2 ^ 24 - 1 < 2 ^ 24 ∧ 7 < 8 := by decide

/-- TwistRecurrence: 624 words, and the first and the last step. -/
theorem witness_TwistRecurrence : Internal.reset.mt.words.length = 624 ∧ 0 < 624 ∧ 623 < 624 :=
  ⟨List.length_replicate, by decide, by decide⟩

/-- DrawIsFirstAccepted: an output accepted at once, and one accepted after a rejected one. -/
theorem witness_DrawIsFirstAccepted :
    let accepts : Generator := ⟨List.replicate 624 0, 0⟩
    let rejects : Generator := ⟨0x80000000 :: List.replicate 623 0, 0⟩
    (0 < drawTries ∧ accepts.u32.1.toNat / 2 ^ 28 < 8) ∧
    (1 < drawTries ∧ 256 ≤ rejects.u32.1.toNat / 2 ^ 23 ∧ rejects.u32.2.u32.1.toNat / 2 ^ 23 < 256) := by
  have h : 1 < drawTries := by
    unfold drawTries
    obtain ⟨n, hn⟩ : ∃ n, 19937 = n + 1 := ⟨19936, rfl⟩
    rw [hn]
    exact Nat.one_lt_two_pow (by omega)
  exact ⟨⟨by omega, by decide +kernel⟩, h, by decide +kernel, by decide +kernel⟩

/-- RoundingIsToNearestEven: an ordinary quotient, one exactly half a unit away, and 2^53 - 0.8 at the lower edge of a
binade, where 2^53 - 1 is nearer than 2^53 (R12). -/
theorem witness_RoundingIsToNearestEven :
    0 < 1 ∧ 0 < 3 ∧ roundPositive 1 3 = ⟨6004799503160661, -54⟩ ∧ roundPositive (2 ^ 53 + 1) 1 = ⟨2 ^ 52, 1⟩ ∧
    roundPositive (5 * 2 ^ 53 - 4) 5 = ⟨2 ^ 53 - 1, 0⟩ := by
  decide +kernel

/-- LogarithmDigitsAreExact: the mantissas 1 and 1.5, and the bounds of a mantissa of 53 bits. -/
theorem witness_LogarithmDigitsAreExact :
    (2 ^ 512 ≤ 2 ^ 512 ∧ 2 ^ 512 < 2 ^ 513 ∧ logDigits 128 (2 ^ 512) (2 ^ 512) 0 = some 0) ∧
    (2 ^ 512 ≤ 3 * 2 ^ 511 ∧ 3 * 2 ^ 511 < 2 ^ 513 ∧ (logDigits 128 (3 * 2 ^ 511) (3 * 2 ^ 511) 0).isSome = true) ∧
    (2 ^ 52 ≤ 2 ^ 52 ∧ 2 ^ 52 ≤ 2 ^ 53 - 1 ∧ 2 ^ 53 - 1 < 2 ^ 53) := by
  decide +kernel

end Sys2Proof.Tests
end

section
/-! SUPPORT. Rounding to nearest, ties to even (R12). A real is scaled by a power of two to a mantissa x and rounded to an
integer; the exponent is such that x has 53 bits before the point, or is the least one. No value of the format lies nearer:
one with an exponent at least as large is an integer in the same unit, and one with a smaller exponent lies below `2^52`,
which is itself an integer no farther from x. -/

namespace Sys2Proof.Machine

/-! Rounding a real to an integer. -/

/-- `n` is the integer nearest to `x`, the even one of two. -/
structure NearestInt (n : ℤ) (x : ℝ) : Prop where
  within : 2 * |x - n| ≤ 1
  even : 2 * |x - n| = 1 → n % 2 = 0

/-- Two different integers are together at least 1 away from any real. -/
theorem one_le_dist_add_dist {n j : ℤ} (hne : j ≠ n) (x : ℝ) : 1 ≤ |x - n| + |x - j| := by
  have hgap : (1 : ℝ) ≤ |(j : ℝ) - n| := by exact_mod_cast Int.one_le_abs (sub_ne_zero.mpr hne)
  calc (1 : ℝ) ≤ |(j : ℝ) - n| := hgap
    _ ≤ |(j : ℝ) - x| + |x - n| := abs_sub_le _ _ _
    _ = |x - n| + |x - j| := by rw [abs_sub_comm (j : ℝ) x, add_comm]

/-- No integer lies nearer than the nearest one. -/
theorem NearestInt.dist_le {n : ℤ} {x : ℝ} (h : NearestInt n x) (j : ℤ) : |x - n| ≤ |x - j| := by
  by_cases hj : j = n
  · rw [hj]
  · linarith [h.within, one_le_dist_add_dist hj x]

/-- Where another integer lies equally near, the nearest one is even. -/
theorem NearestInt.even_of_tie {n : ℤ} {x : ℝ} (h : NearestInt n x) {j : ℤ} (htie : |x - n| = |x - j|) (hj : j ≠ n) :
    n % 2 = 0 :=
  h.even (le_antisymm h.within (by linarith [one_le_dist_add_dist hj x]))

/-- An integer at most `x` is at most the integer nearest to `x`. -/
theorem NearestInt.le_of_le {n j : ℤ} {x : ℝ} (h : NearestInt n x) (hj : (j : ℝ) ≤ x) : j ≤ n := by
  have hx := (abs_le.mp (show |x - n| ≤ 1 / 2 by linarith [h.within])).2
  have hlt : (j : ℝ) < n + 1 := by linarith
  exact Int.lt_add_one_iff.mp (by exact_mod_cast hlt)

/-- An integer above `x` is at least the integer nearest to `x`. -/
theorem NearestInt.le_of_lt {n j : ℤ} {x : ℝ} (h : NearestInt n x) (hj : x < (j : ℝ)) : n ≤ j := by
  have hx := (abs_le.mp (show |x - n| ≤ 1 / 2 by linarith [h.within])).1
  have hlt : (n : ℝ) < j + 1 := by linarith
  exact Int.lt_add_one_iff.mp (by exact_mod_cast hlt)

/-- What `nearestEven` gives: the quotient when the remainder is at most half the divisor, or its successor when the
remainder is at least half, and in a tie the even one. -/
theorem nearestEven_cases (a b : Nat) :
    (nearestEven a b = a / b ∧ 2 * (a % b) ≤ b ∧ (2 * (a % b) = b → a / b % 2 = 0)) ∨
    (nearestEven a b = a / b + 1 ∧ b ≤ 2 * (a % b) ∧ (2 * (a % b) = b → (a / b + 1) % 2 = 0)) := by
  unfold nearestEven
  dsimp only
  split_ifs <;> omega

/-- `nearestEven` is the integer nearest to the quotient. -/
theorem nearestEven_nearestInt (a b : Nat) (hb : 0 < b) : NearestInt (nearestEven a b) ((a : ℝ) / b) := by
  have hb' : (0 : ℝ) < b := by exact_mod_cast hb
  have hdiv : (a : ℝ) / b = (a / b : Nat) + (a % b : Nat) / (b : ℝ) := by
    rw [div_eq_iff hb'.ne', add_mul, div_mul_cancel₀ _ hb'.ne']
    exact_mod_cast (Nat.div_add_mod' a b).symm
  have hmod : ((a % b : Nat) : ℝ) / b < 1 := (div_lt_one hb').mpr (by exact_mod_cast Nat.mod_lt a hb)
  have hmod0 : 0 ≤ ((a % b : Nat) : ℝ) / b := by positivity
  have hhalf (r : ℝ) (hr : 2 * (r / b) = 1) : 2 * r = b := by field_simp at hr; exact hr
  rcases nearestEven_cases a b with ⟨hn, hle, heven⟩ | ⟨hn, hle, heven⟩
  · have hdist : |(a : ℝ) / b - (nearestEven a b : ℤ)| = (a % b : Nat) / (b : ℝ) := by
      rw [hn, hdiv, Int.cast_natCast, add_sub_cancel_left, abs_of_nonneg hmod0]
    have hr : 2 * (((a % b : Nat) : ℝ) / b) ≤ 1 := by
      rw [← mul_div_assoc, div_le_one hb']; exact_mod_cast hle
    refine ⟨by rw [hdist]; exact hr, fun htie => ?_⟩
    have : 2 * (a % b) = b := by rw [hdist] at htie; exact_mod_cast hhalf _ htie
    have := heven this
    omega
  · have hdist : |(a : ℝ) / b - (nearestEven a b : ℤ)| = 1 - (a % b : Nat) / (b : ℝ) := by
      rw [hn, hdiv, Int.cast_natCast, Nat.cast_add_one, abs_sub_comm, add_sub_add_left_eq_sub,
        abs_of_nonneg (sub_nonneg.mpr hmod.le)]
    have hr : 1 ≤ 2 * (((a % b : Nat) : ℝ) / b) := by
      rw [← mul_div_assoc, one_le_div hb']; exact_mod_cast hle
    refine ⟨by rw [hdist]; linarith, fun htie => ?_⟩
    have : 2 * (a % b) = b := by rw [hdist] at htie; exact_mod_cast hhalf (a % b : Nat) (by linarith)
    have := heven this
    omega

/-! Rounding at an exponent. -/

/-- A power of two with a negative exponent, and with one that is not. -/
theorem two_zpow_of_neg {e : Int} (he : e < 0) : (2 : ℝ) ^ e = (2 ^ e.natAbs)⁻¹ := by
  rw [← zpow_natCast, Int.ofNat_natAbs_of_nonpos he.le, zpow_neg, inv_inv]

theorem two_zpow_of_nonneg {e : Int} (he : 0 ≤ e) : (2 : ℝ) ^ e = 2 ^ e.natAbs := by
  rw [← zpow_natCast, Int.natAbs_of_nonneg he]

/-- A mantissa moved to an exponent that is not larger keeps its value. -/
theorem man_shift_mul_zpow (m : ℤ) {e e' : ℤ} (he : e ≤ e') :
    ((m * 2 ^ (e' - e).natAbs : ℤ) : ℝ) * 2 ^ e = m * 2 ^ e' := by
  push_cast
  rw [← two_zpow_of_nonneg (sub_nonneg.mpr he), mul_assoc, ← zpow_add₀ two_ne_zero, sub_add_cancel]

/-- A value with an exponent below `e` lies below `2^52` units of `2^e`. -/
theorem mul_zpow_lt_of_lt {e e' m : ℤ} (he : e' < e) (hm : |m| < 2 ^ 53) : (m : ℝ) * 2 ^ e' < 2 ^ 52 * 2 ^ e := by
  have hm' : (m : ℝ) < 2 ^ 53 := by exact_mod_cast (abs_lt.mp hm).2
  have hpow : (2 : ℝ) ^ e' ≤ 2 ^ (e - 1) := zpow_le_zpow_right₀ one_le_two (by omega)
  calc (m : ℝ) * 2 ^ e' < 2 ^ 53 * 2 ^ e' := by gcongr
    _ ≤ 2 ^ 53 * 2 ^ (e - 1) := by gcongr
    _ = 2 ^ 52 * 2 ^ e := by rw [zpow_sub_one₀ two_ne_zero]; ring

/-- The distance of two values in units of `2^e`. -/
theorem abs_mul_zpow_sub (x y : ℝ) (e : ℤ) : |x * 2 ^ e - y * 2 ^ e| = |x - y| * 2 ^ e := by
  rw [← sub_mul, abs_mul, abs_of_pos (zpow_pos (two_pos : (0 : ℝ) < 2) e)]

/-- `2^53` units are `2^52` units of twice the size. -/
theorem carry_value (e : ℤ) : ((2 ^ 52 : ℤ) : ℝ) * 2 ^ (e + 1) = 2 ^ 53 * 2 ^ e := by
  rw [zpow_add_one₀ two_ne_zero]; push_cast; ring

section
variable {n e : ℤ} {x : ℝ} (h : NearestInt n x) (hx : 2 ^ 52 ≤ x ∨ e ≤ -1074)
include h hx

/-- The integer nearest to a mantissa of 53 bits before the point, or at the least exponent, is nearest among all values of
the format, and even in a tie. -/
theorem NearestInt.mul_zpow_nearest {m e' : ℤ} (hm : |m| < 2 ^ 53) (he' : -1074 ≤ e') :
    |x * 2 ^ e - n * 2 ^ e| ≤ |x * 2 ^ e - m * 2 ^ e'| ∧
    (|x * 2 ^ e - n * 2 ^ e| = |x * 2 ^ e - m * 2 ^ e'| → (m : ℝ) * 2 ^ e' ≠ n * 2 ^ e → n % 2 = 0) := by
  have hu : (0 : ℝ) < 2 ^ e := zpow_pos two_pos e
  rcases le_or_gt e e' with hle | hlt
  · rw [← man_shift_mul_zpow m hle, abs_mul_zpow_sub, abs_mul_zpow_sub]
    refine ⟨mul_le_mul_of_nonneg_right (h.dist_le _) hu.le, fun htie hne => ?_⟩
    exact h.even_of_tie (mul_right_cancel₀ hu.ne' htie) fun hjn => hne (by rw [hjn])
  · have hx52 : (2 : ℝ) ^ 52 ≤ x := hx.resolve_right (by omega)
    have hnear : |x * 2 ^ e - n * 2 ^ e| ≤ |x * 2 ^ e - (2 ^ 52 : ℤ) * 2 ^ e| := by
      rw [abs_mul_zpow_sub, abs_mul_zpow_sub]
      exact mul_le_mul_of_nonneg_right (h.dist_le _) hu.le
    have hfar : |x * 2 ^ e - (2 ^ 52 : ℤ) * 2 ^ e| < |x * 2 ^ e - m * 2 ^ e'| := by
      have hbelow := mul_zpow_lt_of_lt hlt hm
      have hx52' : 2 ^ 52 * 2 ^ e ≤ x * 2 ^ e := mul_le_mul_of_nonneg_right hx52 hu.le
      push_cast
      rw [abs_of_nonneg (by linarith), abs_of_pos (by linarith)]
      linarith
    exact ⟨(hnear.trans_lt hfar).le, fun htie => absurd htie (hnear.trans_lt hfar).ne⟩

/-- A mantissa that stays below `2^53` is the rounded value's own. -/
theorem NearestInt.rounds (he : -1074 ≤ e) (hn0 : 0 ≤ n) (hn : n < 2 ^ 53) : F64.Rounds ⟨n, e⟩ (x * 2 ^ e) where
  exponent := he
  mantissa := by
    rw [abs_of_nonneg hn0]
    refine ⟨hn, .inr (hx.imp (fun hx52 => h.le_of_le (by exact_mod_cast hx52)) fun hle => le_antisymm hle he)⟩
  nearest _ _ hm he' := (h.mul_zpow_nearest hx hm he').1
  even _ _ hm he' := (h.mul_zpow_nearest hx hm he').2

/-- A mantissa that is rounded up to `2^53` is `2^52` at the next exponent. -/
theorem NearestInt.rounds_carry (he : -1074 ≤ e) (hn : n = 2 ^ 53) : F64.Rounds ⟨2 ^ 52, e + 1⟩ (x * 2 ^ e) := by
  have hval : ((2 ^ 52 : ℤ) : ℝ) * 2 ^ (e + 1) = n * 2 ^ e := by
    rw [carry_value, hn, Int.cast_pow, Int.cast_ofNat]
  refine ⟨by dsimp only; omega, by norm_num, fun m e' hm he' => ?_, fun _ _ _ _ _ _ => by norm_num⟩
  dsimp only
  rw [hval]
  exact (h.mul_zpow_nearest hx hm he').1
end

/-! What the model's `roundPositive` computes. -/

/-- `scaledFraction` keeps the denominator positive. -/
theorem scaledFraction_den_pos (a : Nat) {b : Nat} (hb : 0 < b) (e : Int) : 0 < (scaledFraction a b e).2 := by
  unfold scaledFraction
  split
  · exact hb
  · exact Nat.mul_pos hb (Nat.two_pow_pos _)

/-- `scaledFraction` is the quotient in units of `2^e`. -/
theorem scaledFraction_div (a b : Nat) (e : Int) :
    ((scaledFraction a b e).1 : ℝ) / (scaledFraction a b e).2 = (a : ℝ) / b / 2 ^ e := by
  unfold scaledFraction
  split
  next he => rw [two_zpow_of_neg he, div_inv_eq_mul]; push_cast; ring
  next he => rw [two_zpow_of_nonneg (by omega), div_div]; push_cast; rfl

/-- Scaled by `2^e`, a positive quotient has a denominator of at most the numerator exactly from `2^e` on. -/
theorem scaledFraction_den_le_num (a : Nat) {b : Nat} (hb : 0 < b) (e : Int) :
    (scaledFraction a b e).2 ≤ (scaledFraction a b e).1 ↔ (2 : ℝ) ^ e ≤ (a : ℝ) / b := by
  have hden : (0 : ℝ) < (scaledFraction a b e).2 := by exact_mod_cast scaledFraction_den_pos a hb e
  rw [← one_le_div (zpow_pos (two_pos : (0 : ℝ) < 2) e), ← scaledFraction_div, one_le_div hden, Nat.cast_le]

/-- The binary logarithms of a and b bound the quotient. -/
theorem quotient_log2_bounds {a b : Nat} (ha : 0 < a) (hb : 0 < b) :
    (2 : ℝ) ^ ((a.log2 : Int) - b.log2 - 1) < (a : ℝ) / b ∧ (a : ℝ) / b < 2 ^ ((a.log2 : Int) - b.log2 + 1) := by
  have hb' : (0 : ℝ) < b := by exact_mod_cast hb
  have hale : (2 : ℝ) ^ a.log2 ≤ a := by exact_mod_cast Nat.log2_self_le ha.ne'
  have halt : (a : ℝ) < 2 ^ (a.log2 + 1) := by exact_mod_cast Nat.lt_log2_self
  have hble : (2 : ℝ) ^ b.log2 ≤ b := by exact_mod_cast Nat.log2_self_le hb.ne'
  have hblt : (b : ℝ) < 2 ^ (b.log2 + 1) := by exact_mod_cast Nat.lt_log2_self
  constructor
  · rw [lt_div_iff₀ hb']
    calc (2 : ℝ) ^ ((a.log2 : Int) - b.log2 - 1) * b
        < 2 ^ ((a.log2 : Int) - b.log2 - 1) * 2 ^ (b.log2 + 1) := by gcongr
      _ = 2 ^ a.log2 := by rw [← zpow_natCast, ← zpow_natCast, ← zpow_add₀ two_ne_zero]; congr 1; push_cast; ring
      _ ≤ a := hale
  · rw [div_lt_iff₀ hb']
    calc (a : ℝ) < 2 ^ (a.log2 + 1) := halt
      _ = 2 ^ ((a.log2 : Int) - b.log2 + 1) * 2 ^ b.log2 := by
        rw [← zpow_natCast, ← zpow_natCast, ← zpow_add₀ two_ne_zero]; congr 1; push_cast; ring
      _ ≤ 2 ^ ((a.log2 : Int) - b.log2 + 1) * b := by gcongr

/-- The exponent of the quotient's leading bit, as `roundPositive` finds it. -/
def binade (a b : Nat) : Int :=
  let guess : Int := (a.log2 : Int) - b.log2
  if (scaledFraction a b guess).2 ≤ (scaledFraction a b guess).1 then guess else guess - 1

/-- The quotient lies in its binade. -/
theorem binade_bounds {a b : Nat} (ha : 0 < a) (hb : 0 < b) :
    (2 : ℝ) ^ binade a b ≤ (a : ℝ) / b ∧ (a : ℝ) / b < 2 ^ (binade a b + 1) := by
  obtain ⟨hlo, hhi⟩ := quotient_log2_bounds ha hb
  have htop := scaledFraction_den_le_num a hb ((a.log2 : Int) - b.log2)
  unfold binade
  dsimp only
  split
  next hle => exact ⟨htop.mp hle, hhi⟩
  next hgt => exact ⟨hlo.le, by rw [sub_add_cancel]; exact lt_of_not_ge (mt htop.mpr hgt)⟩

/-- The exponent of the last of the 53 mantissa bits, not below the least one. -/
def lastExp (a b : Nat) : Int := max (binade a b - 52) (-1074)

/-- The mantissa before a carry into the next binade. -/
def roundedMan (a b : Nat) : Nat :=
  let frac := scaledFraction a b (lastExp a b)
  nearestEven frac.1 frac.2

/-- `roundPositive` through its exponent and its mantissa. -/
theorem roundPositive_eq (a b : Nat) :
    roundPositive a b = if roundedMan a b = 2 ^ 53 then ⟨2 ^ 52, lastExp a b + 1⟩ else ⟨roundedMan a b, lastExp a b⟩ := rfl

/-- The least exponent bounds the exponent. -/
theorem least_le_lastExp (a b : Nat) : -1074 ≤ lastExp a b := le_max_right _ _

/-- The mantissa is the integer nearest to the quotient in units of the last place. -/
theorem roundedMan_nearestInt (a : Nat) {b : Nat} (hb : 0 < b) :
    NearestInt (roundedMan a b) ((a : ℝ) / b / 2 ^ lastExp a b) := by
  rw [← scaledFraction_div]
  exact nearestEven_nearestInt _ _ (scaledFraction_den_pos a hb _)

/-- In units of the last place the quotient has at most 53 bits before the point. -/
theorem quotient_lt_two_pow {a b : Nat} (ha : 0 < a) (hb : 0 < b) : (a : ℝ) / b / 2 ^ lastExp a b < 2 ^ 53 := by
  have hpow : (2 : ℝ) ^ (binade a b + 1) ≤ 2 ^ (53 + lastExp a b) :=
    zpow_le_zpow_right₀ one_le_two (by have := le_max_left (binade a b - 52) (-1074); unfold lastExp; omega)
  rw [div_lt_iff₀ (zpow_pos two_pos _)]
  calc (a : ℝ) / b < 2 ^ (binade a b + 1) := (binade_bounds ha hb).2
    _ ≤ 2 ^ (53 + lastExp a b) := hpow
    _ = 2 ^ 53 * 2 ^ lastExp a b := by rw [zpow_add₀ two_ne_zero]; norm_num

/-- In units of the last place the quotient has 53 bits before the point, fewer only at the least exponent. -/
theorem two_pow_le_quotient {a b : Nat} (ha : 0 < a) (hb : 0 < b) :
    2 ^ 52 ≤ (a : ℝ) / b / 2 ^ lastExp a b ∨ lastExp a b ≤ -1074 := by
  rcases max_choice (binade a b - 52) (-1074) with hmax | hmax
  · left
    rw [lastExp, hmax, le_div_iff₀ (zpow_pos two_pos _)]
    calc (2 : ℝ) ^ 52 * 2 ^ (binade a b - 52) = 2 ^ binade a b := by
          rw [zpow_sub₀ two_ne_zero, zpow_ofNat, mul_div_cancel₀ _ (by positivity)]
      _ ≤ (a : ℝ) / b := (binade_bounds ha hb).1
  · exact .inr hmax.le

/-! The roundings of the model. -/

/-- `RN` of a quotient of positive integers (R12). -/
theorem roundPositive_rounds {a b : Nat} (ha : 0 < a) (hb : 0 < b) : (roundPositive a b).Rounds ((a : ℝ) / b) := by
  have hn := roundedMan_nearestInt a hb
  have hx := two_pow_le_quotient ha hb
  have hle : (roundedMan a b : ℤ) ≤ 2 ^ 53 := hn.le_of_lt (by exact_mod_cast quotient_lt_two_pow ha hb)
  rw [roundPositive_eq, ← div_mul_cancel₀ ((a : ℝ) / b) (zpow_pos two_pos (lastExp a b)).ne']
  split
  next hcarry => exact hn.rounds_carry hx (least_le_lastExp a b) (by exact_mod_cast hcarry)
  next hcarry => exact hn.rounds hx (least_le_lastExp a b) (by omega) (by omega)

/-- The rounded quotient of positive integers is not negative. -/
theorem roundPositive_man_nonneg (a b : Nat) : 0 ≤ (roundPositive a b).man := by
  rw [roundPositive_eq]
  split
  · norm_num
  · exact Int.natCast_nonneg _

/-- A quotient lies within half a unit of the last place of its rounding, of which a carry makes a larger unit. -/
theorem roundPositive_half_ulp (a : Nat) {b : Nat} (hb : 0 < b) :
    2 * |(a : ℝ) / b - (roundPositive a b).man * 2 ^ (roundPositive a b).exp| ≤ 2 ^ (roundPositive a b).exp := by
  have hu : (0 : ℝ) < 2 ^ lastExp a b := zpow_pos two_pos _
  have hhalf : 2 * |(a : ℝ) / b - roundedMan a b * 2 ^ lastExp a b| ≤ 2 ^ lastExp a b := by
    rw [← div_mul_cancel₀ ((a : ℝ) / b) hu.ne', abs_mul_zpow_sub, ← mul_assoc]
    exact mul_le_of_le_one_left hu.le (by exact_mod_cast (roundedMan_nearestInt a hb).within)
  rw [roundPositive_eq]
  split
  next hcarry =>
    have hval : ((2 ^ 52 : ℤ) : ℝ) * 2 ^ (lastExp a b + 1) = roundedMan a b * 2 ^ lastExp a b := by
      rw [carry_value, hcarry, Nat.cast_pow, Nat.cast_ofNat]
    have hup : (2 : ℝ) ^ lastExp a b ≤ 2 ^ (lastExp a b + 1) := zpow_le_zpow_right₀ one_le_two (by omega)
    dsimp only
    rw [hval]
    exact hhalf.trans hup
  next => exact_mod_cast hhalf

/-- Zero is its own rounding. -/
theorem F64.rounds_zero : F64.Rounds ⟨0, 0⟩ 0 where
  exponent := by norm_num
  mantissa := by norm_num
  nearest m e _ _ := by simpa using abs_nonneg ((m : ℝ) * 2 ^ e)
  even _ _ _ _ _ _ := rfl

/-- Rounding to nearest, ties to even, is symmetric about zero. -/
theorem F64.Rounds.neg {v : F64} {x : ℝ} (h : v.Rounds x) : F64.Rounds ⟨-v.man, v.exp⟩ (-x) := by
  have hflip (y : ℝ) (m e : ℤ) : |-y - m * 2 ^ e| = |y - (-m : ℤ) * 2 ^ e| := by
    rw [← abs_neg]; push_cast; congr 1; ring
  have hown : |-x - (-v.man : ℤ) * 2 ^ v.exp| = |x - v.man * 2 ^ v.exp| := by rw [hflip, neg_neg]
  refine ⟨h.exponent, by simpa using h.mantissa, fun m e hm he => ?_, fun m e hm he htie hne => ?_⟩
  · rw [hown, hflip]
    exact h.nearest (-m) e (by rwa [abs_neg]) he
  · rw [hown, hflip] at htie
    have heven := h.even (-m) e (by rwa [abs_neg]) he htie fun heq =>
      hne (by push_cast at heq ⊢; linarith)
    dsimp only
    omega

/-- `RN` of a quotient with a positive denominator (R12). -/
theorem roundFraction_rounds (a : Int) {b : Nat} (hb : 0 < b) : (roundFraction a b).Rounds ((a : ℝ) / b) := by
  unfold roundFraction
  split_ifs with hzero hneg
  · rw [hzero, Int.cast_zero, zero_div]
    exact F64.rounds_zero
  · have habs : (a : ℝ) = -(a.natAbs : ℝ) := by
      rw [Nat.cast_natAbs, abs_of_neg hneg, Int.cast_neg, neg_neg]
    rw [habs, neg_div]
    exact (roundPositive_rounds (Int.natAbs_pos.mpr hzero) hb).neg
  · have habs : (a : ℝ) = (a.natAbs : ℝ) := by
      rw [Nat.cast_natAbs, abs_of_nonneg (not_lt.mp hneg)]
    rw [habs]
    exact roundPositive_rounds (Int.natAbs_pos.mpr hzero) hb

/-- `RN(man * 2^exp)` (R12). -/
theorem roundDyadic_rounds (man exp : Int) : (roundDyadic man exp).Rounds ((man : ℝ) * 2 ^ exp) := by
  unfold roundDyadic
  split
  next hneg =>
    have h := roundFraction_rounds man (Nat.two_pow_pos exp.natAbs)
    rwa [Nat.cast_pow, Nat.cast_ofNat, div_eq_mul_inv, ← two_zpow_of_neg hneg] at h
  next hpos =>
    have h := roundFraction_rounds (man * 2 ^ exp.natAbs) one_pos
    rw [two_zpow_of_nonneg (not_lt.mp hpos)]
    rwa [Nat.cast_one, div_one, Int.cast_mul, Int.cast_pow, Int.cast_ofNat] at h

/-- `RN(x * y)` (R12). -/
theorem F64.mul_rounds (x y : F64) : (x.mul y).Rounds ((x.man * 2 ^ x.exp) * (y.man * 2 ^ y.exp)) := by
  have hval : (x.man * 2 ^ x.exp : ℝ) * (y.man * 2 ^ y.exp) = (x.man * y.man : ℤ) * 2 ^ (x.exp + y.exp) := by
    rw [zpow_add₀ two_ne_zero]; push_cast; ring
  rw [hval]
  exact roundDyadic_rounds _ _

/-- `RN(x + y)` (R12). -/
theorem F64.add_rounds (x y : F64) : (x.add y).Rounds (x.man * 2 ^ x.exp + y.man * 2 ^ y.exp) := by
  have h := roundDyadic_rounds
    (x.man * 2 ^ (x.exp - min x.exp y.exp).natAbs + y.man * 2 ^ (y.exp - min x.exp y.exp).natAbs) (min x.exp y.exp)
  rwa [Int.cast_add, add_mul, man_shift_mul_zpow _ (min_le_left _ _), man_shift_mul_zpow _ (min_le_right _ _)] at h

/-- `RN(0.0 - x)` (R12). -/
theorem F64.zeroMinus_rounds (x : F64) : x.zeroMinus.Rounds (0 - x.man * 2 ^ x.exp) := by
  have h := roundDyadic_rounds (-x.man) x.exp
  rwa [Int.cast_neg, neg_mul, ← zero_sub (_ * _)] at h

/-- Settles O58: rounding an integer mantissa to nearest is rounding to nearest in the format, because the exponent gives the
quotient 53 bits before the point; products, sums and differences are dyadic quotients. -/
theorem roundingIsToNearestEven : Obligations.RoundingIsToNearestEven :=
  ⟨fun a _ ha hb => ⟨roundPositive_man_nonneg a _, roundPositive_half_ulp a hb, roundPositive_rounds ha hb⟩,
    fun x y => ⟨x.mul_rounds y, x.add_rounds y, x.zeroMinus_rounds⟩⟩

end Sys2Proof.Machine
end

section
/-! SUPPORT. What an instruction can do to the state, said once: an inversion of `exec` from which the invariant and the
writers of each field are read off. -/

namespace Sys2Proof.Machine

/-- The effect of a running command other than `DIGEST`: its sub-command effect on the internal state, except that
`RNGSEED` takes the seed sampled at acceptance (R301). -/
def State.commandEffect (s : State) (r : Running) : Internal × ErrCode :=
  if r.op = .rngseed then rngseedEffect r.args.seed s.int else s.subEffect r r.op s.int

/-- The engine's turn on a running command: a stage of a `DIGEST`, or the completion of any other (R303). -/
def State.commandTurn (s : State) (r : Running) : State :=
  if r.op = .digest then s.digestTurn r else s.completeReading (inputCount r.op r.args) (s.commandEffect r)

/-- The changes of state among which those of instruction `i` from state `s` lie (`exec_transition`). -/
inductive Transition (s : State) : Instr → State → Prop
  /-- An answer, an ignored write, or an acknowledgement: nothing changes but the report flags, the answer, the lattice
  index and the count of free values. -/
  | quiet {i : Instr} (done ovr : Bool) (resp : Response) (fresh : Nat) (latIdx : BitVec 24)
      (hdone : done = true → s.done = true) :
      Transition s i { s with done := done, ovr := ovr, resp := resp, fresh := fresh, latIdx := latIdx }
  /-- A write of `CTRL`, `IN_ADDR` or `IN_LEN` on an idle engine (R312, R317, R318). -/
  | wroteRegister {i : Instr} (ie spMode outLen : Bool) (lo hi lenLo lenHi : Word) (hidle : s.cur = none)
      (hlo : lo = s.inAddrLo ∨ ∃ d, lo = d &&& lowmask Config.addrW)
      (hhi : hi = s.inAddrHi ∨ ∃ d, hi = d &&& lowmask (Config.addrW - 32)) :
      Transition s i { s with ie := ie, spMode := spMode, outLen := outLen, inAddrLo := lo, inAddrHi := hi,
                              inLenLo := lenLo, inLenHi := lenHi, resp := .ack }
  /-- A write of `LAT_DATA` on an idle engine (R321). -/
  | wroteCell (d : Word) (hidle : s.cur = none) : Transition s (.wrLatData d) (s.writeCell (d.setWidth 8)).ack
  /-- A write of `SEEDk` on an idle engine (R326). -/
  | wroteSeed (k : BitVec 3) (d : Word) (hidle : s.cur = none) :
      Transition s (.wrSeed k d)
        { s with int := { s.int with seed := setSeedWord s.int.seed k d, seedV := true }, resp := .ack }
  /-- A rejection (R302). -/
  | rejected {i : Instr} (e : ErrCode) (hidle : s.cur = none) : Transition s i (s.reject e).ack
  /-- An acceptance, after the flag check and the range check (R301). -/
  | accepted {i : Instr} (op : Op) (hidle : s.cur = none) (hflags : flagsHold op s.int = true)
      (hrange : rangeFails op s.sample = false) : Transition s i (s.accept op s.sample).ack
  /-- The engine's turn on the running command (R303). -/
  | turned (r : Running) (hrun : s.cur = some r) : Transition s r.op.instr (s.commandTurn r)

namespace Transition
variable {s : State} {i : Instr}

theorem answer (d : Word) : Transition s i (s.answer d) := .quiet _ _ _ _ _ id

theorem ack : Transition s i s.ack := .quiet _ _ _ _ _ id

theorem overrun : Transition s i s.overrun := .quiet _ _ _ _ _ id

/-- A protected write is ignored with `OVR` or has its effect on an idle engine (R304). -/
theorem writeIdle {effect : State → State} (h : s.cur = none → Transition s i (effect s).ack) :
    Transition s i (s.writeIdle effect) := by
  cases hb : s.busy with
  | true => rw [s.writeIdle_busy effect hb]; exact overrun
  | false => rw [s.writeIdle_idle effect hb]; exact h (s.busy_eq_false_iff.mp hb)

/-- The issue of a legal command is overrun, rejected or accepted (R301, R304). -/
theorem issue (op : Op) : Transition s i (s.issue op) := by
  rcases s.issue_cases op with ⟨-, h⟩ | ⟨hb, -, h⟩ | ⟨hb, -, -, h⟩ | ⟨hb, hflags, hrange, h⟩ <;> rw [h]
  · exact overrun
  · exact .rejected _ (s.busy_eq_false_iff.mp hb)
  · exact .rejected _ (s.busy_eq_false_iff.mp hb)
  · exact .accepted op (s.busy_eq_false_iff.mp hb) hflags hrange

/-- The issue of an illegal word is overrun or rejected (R304, R341). -/
theorem issueIllegal : Transition s i s.issueIllegal := by
  rcases s.issueIllegal_cases with ⟨-, h⟩ | ⟨hb, h⟩ <;> rw [h]
  · exact overrun
  · exact .rejected _ (s.busy_eq_false_iff.mp hb)

/-- A write of `CMD` issues what its word names (R301). -/
theorem issueWord (w : Word) : Transition s i (s.issueWord w) := by
  rcases s.issueWord_cases w with ⟨op, -, h⟩ | ⟨-, h⟩ <;> rw [h]
  · exact issue op
  · exact issueIllegal

theorem readCell : Transition s i s.readCell := by
  unfold State.readCell
  split <;> exact .quiet _ _ _ _ _ id

theorem acknowledge (d : Word) : Transition s i (s.acknowledge d).ack :=
  .quiet _ _ _ _ _ fun h => (Bool.and_eq_true_iff.mp h).1

end Transition

/-! The command words. -/

@[simp] theorem State.tick_zero (s : State) : s.tick 0 = s := rfl

/-- Commands with the same turn on the running command are the same. -/
theorem State.command_congr {s : State} {op : Op} {turn turn' : Running → State}
    (h : ∀ r, r.op = op → turn r = turn' r) : s.command op turn = s.command op turn' := by
  unfold State.command
  cases s.cur with
  | none => rfl
  | some r =>
    by_cases ho : r.op = op
    · simp only [ho, if_true, h r ho]
    · simp only [ho, if_false]

/-- A command word is its operation's issue, its operation's turn, or ignored (R301, R303, R304). -/
theorem exec_instr (op : Op) (s : State) : exec op.instr s = s.command op s.commandTurn := by
  cases op <;> refine State.command_congr fun r hop => ?_ <;>
    simp [State.commandTurn, State.commandEffect, State.subEffect, inputCount, hop]

theorem exec_instr_transition {op : Op} {s t : State} (h : exec op.instr s = .next t) : Transition s op.instr t := by
  rw [exec_instr] at h
  rcases s.command_cases op s.commandTurn with ⟨-, hc⟩ | ⟨r, hrun, rfl, hc⟩ | ⟨r, -, -, hc⟩ <;>
    rw [hc] at h <;> cases h
  · exact .issue op
  · exact .turned r hrun
  · exact .overrun

/-! The host accesses and the illegal word. -/

/-- An instruction that is no legal command word answers, is ignored, writes a register, or issues a command. -/
theorem exec_access_transition {i : Instr} {s t : State} (hop : commandOp i = none) (h : exec i s = .next t) :
    Transition s i t := by
  cases i
  case nop | chain | rngseed | gen | load | chaos | entropy | diffuse | walk | fold | hex | latzero | digest =>
    cases hop
  case rdProgress =>
    simp only [exec, execRdProgress] at h
    split at h <;> cases h <;> exact .quiet _ _ _ _ _ id
  case rdLatData =>
    simp only [exec, execRdLatData] at h
    split at h <;> cases h
    · exact .answer 0
    · exact .readCell
  case rsvd w off =>
    cases w <;> cases h
    · exact .answer 0
    · exact .ack
  all_goals obtain rfl := Host.Outcome.next.inj h
  case illegalCmd => exact .issueIllegal
  case wrCmd d => exact .issueWord d
  case wrStatus d => exact .acknowledge d
  case wrCtrl | wrInLenLo | wrInLenHi =>
    exact .writeIdle fun hidle => .wroteRegister _ _ _ _ _ _ _ hidle (.inl rfl) (.inl rfl)
  case wrInAddrLo d => exact .writeIdle fun hidle => .wroteRegister _ _ _ _ _ _ _ hidle (.inr ⟨d, rfl⟩) (.inl rfl)
  case wrInAddrHi d => exact .writeIdle fun hidle => .wroteRegister _ _ _ _ _ _ _ hidle (.inl rfl) (.inr ⟨d, rfl⟩)
  case wrLatIdx => exact .writeIdle fun _ => .quiet _ _ _ _ _ id
  case wrLatData d => exact .writeIdle fun hidle => .wroteCell d hidle
  case wrSeed k d => exact .writeIdle fun hidle => .wroteSeed k d hidle
  case rdId | rdCtrl | rdStatus | rdCmd | rdInAddrLo | rdInAddrHi | rdInLenLo | rdInLenHi | rdLatIdx | rdDiglen | rdSeed
      | rdEntropyLo | rdEntropyHi | rdDig | rdHex =>
    exact .answer _
  case wrId | wrProgress | wrDiglen | wrEntropyLo | wrEntropyHi | wrDig | wrHex => exact .ack
  case accessError => exact .quiet _ _ _ _ _ id

/-- Every instruction is one of the transitions. -/
theorem exec_transition {i : Instr} {s t : State} (h : exec i s = .next t) : Transition s i t := by
  cases hop : commandOp i with
  | none => exact exec_access_transition hop h
  | some op =>
    obtain rfl := instr_of_commandOp hop
    exact exec_instr_transition h

end Sys2Proof.Machine
end

section
/-! SUPPORT. Every step keeps the invariant: what happens outside the engine, then each transition of an instruction. -/

namespace Sys2Proof.Machine

/-! The registers. -/

theorem lowmask_toNat_lt (n : Nat) : (lowmask n).toNat < 2 ^ min n 32 := by
  have hpow : 2 ^ min n 32 ≤ 2 ^ 32 := Nat.pow_le_pow_right (by decide) (Nat.min_le_right n 32)
  have hpos := Nat.two_pow_pos (min n 32)
  rw [lowmask, BitVec.toNat_ofNat, Nat.mod_eq_of_lt (by omega)]
  omega

/-- A masked register has no bit at or above the mask (R29). -/
theorem and_lowmask_toNat_lt (d : Word) (n : Nat) : (d &&& lowmask n).toNat < 2 ^ min n 32 := by
  rw [BitVec.toNat_and]
  exact Nat.and_le_right.trans_lt (lowmask_toNat_lt n)

/-! States that meet the invariant. -/

/-- An idle state outside reset needs the invariant of its data only. -/
theorem State.Inv.of_idle {t : State} (hint : t.int.Inv) (hmem : t.mem.wf = true)
    (hlo : t.inAddrLo.toNat < 2 ^ min Config.addrW 32) (hhi : t.inAddrHi.toNat < 2 ^ min (Config.addrW - 32) 32)
    (hcur : t.cur = none) (hreset : t.inReset = false) : t.Inv where
  int := hint
  memForm := hmem
  addrLo := hlo
  addrHi := hhi
  running r hr := by rw [hcur] at hr; cases hr
  reset h := by rw [hreset] at h; cases h

/-- The invariant of a running command reads only the sampled registers, the internal state and `DONE`. -/
theorem Running.Inv.of_eq {r : Running} {s t : State} (h : r.Inv s) (hsample : t.sample = s.sample)
    (hint : t.int = s.int) (hdone : t.done = true → s.done = true) : r.Inv t where
  sampled := h.sampled.trans hsample.symm
  flags := hint ▸ h.flags
  range := h.range
  notDone := Bool.eq_false_iff.mpr fun ht => Bool.eq_false_iff.mp h.notDone (hdone ht)
  stages := h.stages

/-- The events to come are no part of the invariant. -/
theorem State.Inv.with_inputs {s : State} (h : s.Inv) (rest : List Event) : ({ s with inputs := rest } : State).Inv where
  int := h.int
  memForm := h.memForm
  addrLo := h.addrLo
  addrHi := h.addrHi
  running r hr := (h.running r hr).of_eq rfl rfl id
  reset hr := congrArg (fun u : State => { u with inputs := rest }) (h.reset hr)

/-- Another agent's write keeps the invariant; a running command only remembers it (R85). -/
theorem State.Inv.platformWrite {s : State} (h : s.Inv) (a : BitVec 64) (v : Option Byte) :
    (s.platformWrite a v).Inv where
  int := h.int
  memForm := Memory.wf_put h.memForm _ _
  addrLo := h.addrLo
  addrHi := h.addrHi
  running r hr := by
    obtain ⟨r, hrun, rfl⟩ := Option.map_eq_some_iff.mp hr
    obtain ⟨hsampled, hflags, hrange, hnotDone, hstages⟩ := h.running r hrun
    exact ⟨hsampled, hflags, hrange, hnotDone, hstages⟩
  reset hr := congrArg (fun u : State => u.platformWrite a v) (h.reset hr)

/-- The reset state meets the invariant (R380). -/
theorem State.Inv.assertReset {s : State} (h : s.Inv) : s.assertReset.Inv where
  int := Internal.reset_inv
  memForm := h.memForm
  addrLo := Nat.two_pow_pos _
  addrHi := Nat.two_pow_pos _
  running _ hr := by cases hr
  reset _ := rfl

theorem State.Inv.releaseReset {s : State} (h : s.Inv) : s.releaseReset.Inv where
  int := h.int
  memForm := h.memForm
  addrLo := h.addrLo
  addrHi := h.addrHi
  running r hr := (h.running r hr).of_eq rfl rfl id
  reset hr := by cases hr

/-! Effects. -/

/-- A write of a lattice cell keeps the lattice what `LATV` says (R33, R321). -/
theorem Internal.Inv.write_lat {w : Internal} (h : w.Inv) (idx : BitVec 24) (b : Byte) :
    ({ w with lat := w.lat.write idx.toNat b } : Internal).Inv := by
  refine h.update h.legal (Memory.wf_write h.latForm _ _) (fun c hc => ?_) (fun hv x hx => ?_)
  · rcases Memory.mem_write hc with rfl | hc
    · exact latSize_eq ▸ idx.isLt
    · exact h.latKeys c hc
  · rw [Memory.read_write]
    split
    · simp
    · exact h.latDefined hv x hx

theorem Internal.Inv.write_seed {w : Internal} (h : w.Inv) (seed : BitVec 256) :
    ({ w with seed := seed, seedV := true } : Internal).Inv :=
  h.update h.legal h.latForm h.latKeys h.latDefined

/-- Every sub-command keeps the invariant; `HEX` needs a digest (R285). -/
theorem State.subEffect_inv (s : State) (r : Running) {sub : Op} {w : Internal} (h : w.Inv)
    (hdig : sub = .hex → w.digV = true) : (s.subEffect r sub w).1.Inv := by
  cases sub with
  | chain => exact chainEffect_inv h _
  | rngseed => exact rngseedEffect_inv h _
  | gen => exact genEffect_inv h
  | load => exact loadEffect_inv h _ _
  | chaos => exact chaosEffect_inv h
  | entropy => exact entropyEffect_inv h _
  | diffuse => exact diffuseEffect_inv h
  | walk => exact walkEffect_inv h
  | fold => exact foldEffect_inv h _ _
  | hex => exact hexEffect_inv h (hdig rfl)
  | latzero => exact latzeroEffect_inv h
  | nop | digest => exact h

theorem State.commandEffect_inv {s : State} {r : Running} (h : s.int.Inv) (hflags : flagsHold r.op s.int = true) :
    (s.commandEffect r).1.Inv := by
  unfold State.commandEffect
  split
  · exact rngseedEffect_inv h _
  · exact s.subEffect_inv r h fun hop => by rwa [hop] at hflags

/-- A sub-command that ends with `OK` makes the next one ready (R288). -/
theorem stageReady_next (s : State) (r : Running) {sub next : Op} {w : Internal} (hready : stageReady sub w = true)
    (hok : (s.subEffect r sub w).2 = .ok) (hnext : nextSub sub = some next) :
    stageReady next (s.subEffect r sub w).1 = true := by
  cases sub <;> cases hnext <;> simp only [State.subEffect] at hok ⊢
  case chain | load | entropy =>
    generalize s.input r _ = input at hok ⊢
    cases input with
    | none => simp at hok
    | some x => simp_all [stageReady]
  case rngseed | fold => simp [stageReady]
  case gen | chaos | diffuse => simpa [stageReady] using hready
  case walk =>
    simp only [stageReady, Bool.and_eq_true] at hready
    simp [stageReady, hready]

/-! The engine's turn. -/

/-- A completion that leaves the invariant of the internal state meets the invariant (R303). -/
theorem State.Inv.complete {s : State} (h : s.Inv) (hreset : s.inReset = false) {w : Internal} (hw : w.Inv)
    (e : ErrCode) (n : Nat) : ((s.complete w e).tick n).Inv :=
  .of_idle hw h.memForm h.addrLo h.addrHi rfl hreset

/-- Another stage of a running `DIGEST` that is ready keeps the invariant (R288). -/
theorem State.Inv.setStage {s : State} (h : s.Inv) (hreset : s.inReset = false) {r : Running} (hrun : s.cur = some r)
    (hop : r.op = .digest) {stage : Stage} (hwork : stage.work.Inv) (hready : stageReady stage.sub stage.work = true)
    (n : Nat) : ((s.tick n).setStage r stage).Inv where
  int := h.int
  memForm := h.memForm
  addrLo := h.addrLo
  addrHi := h.addrHi
  running r' hr' := by
    obtain rfl := Option.some.inj hr'
    obtain ⟨hsampled, hflags, hrange, hnotDone, -⟩ := h.running r hrun
    refine ⟨hsampled, hflags, hrange, hnotDone, fun st hst => ?_⟩
    obtain rfl := Option.some.inj hst
    exact ⟨hop, hwork, hready⟩
  reset hr := by cases hreset.symm.trans hr

theorem State.Inv.digestTurn {s : State} (h : s.Inv) (hreset : s.inReset = false) {r : Running} (hrun : s.cur = some r)
    (hop : r.op = .digest) : (s.digestTurn r).Inv := by
  have hr := h.running r hrun
  rcases s.digestTurn_cases r with ⟨-, ht⟩ | ⟨st, sub, hst, hok, hnext, ht⟩ | ⟨st, hst, -, ht⟩ <;> rw [ht]
  · exact h.setStage hreset hrun hop h.int rfl 0
  all_goals
    obtain ⟨-, hwork, hready⟩ := hr.stages st hst
    have heffect := s.subEffect_inv r hwork fun (hhex : st.sub = .hex) => by rwa [hhex] at hready
  · exact h.setStage hreset hrun hop heffect (stageReady_next s r hready hok hnext) _
  · exact h.complete hreset heffect _ _

theorem State.Inv.commandTurn {s : State} (h : s.Inv) (hreset : s.inReset = false) {r : Running}
    (hrun : s.cur = some r) : (s.commandTurn r).Inv := by
  unfold State.commandTurn
  split
  next hop => exact h.digestTurn hreset hrun hop
  next => exact h.complete hreset (s.commandEffect_inv h.int (h.running r hrun).flags) _ _

/-! Instructions and steps. -/

/-- An accepted command passed its checks on the values that it sampled (R301). -/
theorem State.Inv.accept {s : State} (h : s.Inv) (hreset : s.inReset = false) {op : Op}
    (hflags : flagsHold op s.int = true) (hrange : rangeFails op s.sample = false) : (s.accept op s.sample).ack.Inv where
  int := h.int
  memForm := h.memForm
  addrLo := h.addrLo
  addrHi := h.addrHi
  running r hr := by
    obtain rfl := Option.some.inj hr
    exact ⟨rfl, hflags, hrange, rfl, nofun⟩
  reset hr := by cases hreset.symm.trans hr

/-- Every transition outside reset keeps the invariant. -/
theorem Transition.inv {s t : State} {i : Instr} (ht : Transition s i t) (h : s.Inv) (hreset : s.inReset = false) :
    t.Inv := by
  cases ht with
  | quiet done ovr resp fresh latIdx hdone =>
    exact ⟨h.int, h.memForm, h.addrLo, h.addrHi, fun r hr => (h.running r hr).of_eq rfl rfl hdone,
      fun hr => by cases hreset.symm.trans hr⟩
  | wroteRegister ie spMode outLen lo hi lenLo lenHi hidle hlo hhi =>
    refine .of_idle h.int h.memForm ?_ ?_ hidle hreset
    · rcases hlo with rfl | ⟨d, rfl⟩
      · exact h.addrLo
      · exact and_lowmask_toNat_lt d _
    · rcases hhi with rfl | ⟨d, rfl⟩
      · exact h.addrHi
      · exact and_lowmask_toNat_lt d _
  | wroteCell d hidle => exact .of_idle (h.int.write_lat _ _) h.memForm h.addrLo h.addrHi hidle hreset
  | wroteSeed k d hidle => exact .of_idle (h.int.write_seed _) h.memForm h.addrLo h.addrHi hidle hreset
  | rejected e hidle => exact .of_idle h.int h.memForm h.addrLo h.addrHi hidle hreset
  | accepted op hidle hflags hrange => exact h.accept hreset hflags hrange
  | turned r hrun => exact h.commandTurn hreset hrun

/-- Settles O12: a step is a transition of an instruction outside reset, or a change from outside the engine. -/
theorem stepKeepsInvariant : Obligations.StepKeepsInvariant := by
  intro s t hs hstep
  obtain ⟨s', heq, hturn⟩ := s.turn_cases
  have h : s'.Inv := by
    rcases heq with rfl | ⟨e, -, heq⟩
    · exact hs
    · rw [heq]; exact hs.with_inputs _
  rcases hturn with ⟨had, d, hreset, ht⟩ | ⟨r, hreset, -, ht⟩ | ht | ht | ht | ⟨a, v, ht⟩ | ht
  · rw [step_of_run ht] at hstep; exact (exec_transition hstep).inv h hreset
  · rw [step_of_run ht] at hstep; exact (exec_transition hstep).inv h hreset
  · rw [step_of_pass ht] at hstep; cases hstep; exact h
  · rw [step_of_pass ht] at hstep; cases hstep; exact h.assertReset
  · rw [step_of_pass ht] at hstep; cases hstep; exact h.releaseReset
  · rw [step_of_pass ht] at hstep; cases hstep; exact h.platformWrite a v
  · rw [step_of_stop ht] at hstep; cases hstep

end Sys2Proof.Machine
end

section
/-! SUPPORT. Who writes the internal state: what each command's effect changes, and that nothing else changes it but the
writes of `SEEDk` and `LAT_DATA`. -/

namespace Sys2Proof.Machine

/-- The effect of a command on each valid flag (R27). -/
theorem commandEffect_flags (s : State) (r : Running) (hdigest : r.op ≠ .digest) :
    let p := s.commandEffect r
    (p.1.seedV ≠ s.int.seedV → p.1.seedV = true ∧ r.op.instr = .chain ∧ p.2 = .ok) ∧
    (p.1.prngV ≠ s.int.prngV → p.1.prngV = true ∧ r.op.instr = .rngseed ∧ p.2 = .ok) ∧
    (p.1.latV ≠ s.int.latV →
      (p.1.latV = true ∧ (r.op.instr = .gen ∨ r.op.instr = .latzero) ∧ p.2 = .ok) ∨
      (p.1.latV = false ∧ ((r.op.instr = .chain ∧ p.2 = .ok) ∨ (r.op.instr = .load ∧ p.2 = .bus)))) ∧
    (p.1.digV ≠ s.int.digV → p.1.digV = true ∧ r.op.instr = .fold ∧ p.2 = .ok) ∧
    (p.1.hexV ≠ s.int.hexV →
      (p.1.hexV = true ∧ r.op.instr = .hex ∧ p.2 = .ok) ∨ (p.1.hexV = false ∧ r.op.instr = .fold ∧ p.2 = .ok)) := by
  obtain ⟨op, args, stage, touched⟩ := r
  dsimp only at hdigest
  cases op <;> simp only [State.commandEffect, State.subEffect, Op.instr]
  case digest => exact absurd rfl hdigest
  case chain | load | entropy =>
    generalize s.input _ _ = input
    cases input <;> simp
  all_goals simp

/-- The commands that change each other piece of the internal state (R40 to R45, R207). -/
theorem commandEffect_fields (s : State) (r : Running) (hdigest : r.op ≠ .digest) :
    let w := (s.commandEffect r).1
    (w.seed ≠ s.int.seed → r.op.instr = .chain) ∧
    (w.mt ≠ s.int.mt → r.op.instr ∈ [Instr.rngseed, .gen, .walk]) ∧
    (w.lat ≠ s.int.lat → r.op.instr ∈ [Instr.chain, .gen, .load, .chaos, .entropy, .diffuse, .walk, .latzero]) ∧
    (w.ent ≠ s.int.ent → r.op.instr = .entropy) ∧
    (w.dig ≠ s.int.dig ∨ w.digLen ≠ s.int.digLen → r.op.instr = .fold) ∧
    (w.hexb ≠ s.int.hexb → r.op.instr = .hex) := by
  obtain ⟨op, args, stage, touched⟩ := r
  dsimp only at hdigest
  cases op <;> simp only [State.commandEffect, State.subEffect, Op.instr]
  case digest => exact absurd rfl hdigest
  case chain | load | entropy =>
    generalize s.input _ _ = input
    cases input <;> simp
  all_goals simp

/-- Everything an instruction but `DIGEST` can do to the internal state: nothing, a write of a word of the seed or of a
cell, or the effect of the running command, which completes. -/
theorem exec_int_cases {i : Instr} {s t : State} (h : exec i s = .next t) (hi : i ≠ .digest) :
    t.int = s.int ∨
    (∃ k d, i = .wrSeed k d ∧ t.int = { s.int with seed := setSeedWord s.int.seed k d, seedV := true }) ∨
    (∃ d, i = .wrLatData d ∧ t.int = { s.int with lat := s.int.lat.write s.latIdx.toNat (d.setWidth 8) }) ∨
    (∃ r, i = r.op.instr ∧ r.op ≠ .digest ∧ s.cur ≠ none ∧ t.cur = none ∧
      t.int = (s.commandEffect r).1 ∧ t.err = (s.commandEffect r).2) := by
  cases exec_transition h with
  | quiet | wroteRegister | rejected | accepted => exact .inl rfl
  | wroteCell d => exact .inr (.inr (.inl ⟨d, rfl, rfl⟩))
  | wroteSeed k d => exact .inr (.inl ⟨k, d, rfl, rfl⟩)
  | turned r hrun =>
    have hop : r.op ≠ .digest := fun hop => hi (by rw [hop]; rfl)
    refine .inr (.inr (.inr ⟨r, rfl, hop, by simp [hrun], ?_⟩))
    simp [State.commandTurn, hop]

/-- Settles O51: only `SEEDk` writes raise a flag outside a completion, and each command's effect moves its own flags. -/
theorem validFlagWriters : Obligations.ValidFlagWriters := by
  intro i s t h hi
  rcases exec_int_cases h hi with ht | ⟨k, d, rfl, ht⟩ | ⟨d, rfl, ht⟩ | ⟨r, rfl, hop, hrun, hcur, ht, herr⟩
  · simp [ht]
  · simp [ht]
  · simp [ht]
  · obtain ⟨hseed, hothers⟩ := commandEffect_flags s r hop
    simp only [ht, herr, hcur, hrun, ne_eq, not_false_eq_true, true_and]
    exact ⟨fun hne => (hseed hne).imp_right .inl, hothers⟩

/-- Settles O52: a command's effect writes its own pieces, and two host writes write the seed and a cell. -/
theorem internalStateWriters : Obligations.InternalStateWriters := by
  intro i s t h hi
  rcases exec_int_cases h hi with ht | ⟨k, d, rfl, ht⟩ | ⟨d, rfl, ht⟩ | ⟨r, rfl, hop, -, -, ht, -⟩
  · simp [ht]
  · simp [ht]
  · simp [ht]
  · obtain ⟨hseed, hmt, hlat, hent, hdig, hhexb⟩ := commandEffect_fields s r hop
    rw [ht]
    exact ⟨fun hne => .inl (hseed hne), hmt, fun hne => .inl (hlat hne), hent, hdig, hhexb⟩

end Sys2Proof.Machine
end

section
/-! SUPPORT. The byte windows: the decode of their descriptors and the word that a read answers. -/

namespace Sys2Proof.Machine

/-! Descriptors (R106). -/

/-- A descriptor with `SZ = 2` and an aligned offset reads or writes the register at that offset, as its bit `W` says. -/
theorem decodeAccess_aligned (write : Bool) {off : Nat} (hoff : off < 0x1000) (haligned : off % 4 = 0) (d : Word) :
    decodeAccess (.ofNat 15 (0x4000 + 0x1000 * write.toNat + off)) d = decodeOffset write (.ofNat 12 off) d := by
  have hwrite := write.toNat_lt
  have hsz : (BitVec.ofNat 15 (0x4000 + 0x1000 * write.toNat + off)).extractLsb' 13 2 = 2#2 := by
    apply BitVec.eq_of_toNat_eq
    rw [BitVec.extractLsb'_toNat, BitVec.toNat_ofNat, Nat.shiftRight_eq_div_pow, BitVec.toNat_ofNat]
    omega
  have hw : (BitVec.ofNat 15 (0x4000 + 0x1000 * write.toNat + off)).getLsbD 12 = write := by
    rw [BitVec.getLsbD_ofNat, Nat.testBit_eq_decide_div_mod_eq,
      show (0x4000 + 0x1000 * write.toNat + off) / 2 ^ 12 % 2 = write.toNat by omega]
    cases write <;> rfl
  have hfield : (BitVec.ofNat 15 (0x4000 + 0x1000 * write.toNat + off)).extractLsb' 0 12 = .ofNat 12 off := by
    apply BitVec.eq_of_toNat_eq
    rw [BitVec.extractLsb'_toNat, BitVec.toNat_ofNat, Nat.shiftRight_zero, BitVec.toNat_ofNat]
    omega
  have hmod : (BitVec.ofNat 12 off).toNat % 4 = 0 := by
    rw [BitVec.toNat_ofNat]
    omega
  simp only [decodeAccess, hsz, hw, hfield, hmod, and_self, if_true]

/-- The offsets of the HEX window name its words (R22, R329). -/
theorem decodeOffset_hex (write : Bool) {w : BitVec 8} (hw : w.toNat < 192) (d : Word) :
    decodeOffset write (hexOffset w) d = byDirection write (.rdHex w) (.wrHex w d) := by
  have hoff : (hexOffset w).toNat = 0x400 + 4 * w.toNat := by
    rw [hexOffset, BitVec.toNat_ofNat, Nat.mod_eq_of_lt (by omega)]
  have hword : BitVec.ofNat 8 ((0x400 + 4 * w.toNat - 0x400) / 4) = w := by
    rw [Nat.add_sub_cancel_left, Nat.mul_div_cancel_left _ (by decide), BitVec.ofNat_toNat, BitVec.setWidth_eq]
  unfold decodeOffset
  simp only [hoff, hword]
  rw [if_neg (by omega), if_neg (by omega), if_neg (by omega), if_neg (by omega), if_neg (by omega), if_neg (by omega),
    if_neg (by omega), if_pos (by omega)]

/-! Words of a window (R37, R38). -/

/-- A byte in the lane from bit `k` on. -/
theorem lane_toNat (b : Byte) {k : Nat} (hk : k ≤ 24) : (b.setWidth 32 <<< k).toNat = 2 ^ k * b.toNat := by
  have hpow : 2 ^ k ≤ 2 ^ 24 := Nat.pow_le_pow_right (by decide) hk
  have hlt : 2 ^ k * b.toNat < 2 ^ 32 :=
    calc 2 ^ k * b.toNat ≤ 2 ^ 24 * b.toNat := Nat.mul_le_mul_right _ hpow
      _ < 2 ^ 32 := by have := b.isLt; omega
  rw [BitVec.toNat_shiftLeft, BitVec.toNat_setWidth, Nat.mod_eq_of_lt (b.isLt.trans (by decide)), Nat.shiftLeft_eq,
    Nat.mul_comm, Nat.mod_eq_of_lt hlt]

/-- Four bytes or-ed into their lanes are their little-endian sum. -/
theorem lanes_eq_ofNat (a b c d : Byte) :
    a.setWidth 32 ||| (b.setWidth 32 <<< 8) ||| (c.setWidth 32 <<< 16) ||| (d.setWidth 32 <<< 24) =
      BitVec.ofNat 32 (a.toNat + 2 ^ 8 * b.toNat + 2 ^ 16 * c.toNat + 2 ^ 24 * d.toNat) := by
  have ha := a.isLt
  have hb := b.isLt
  have hc := c.isLt
  have hd := d.isLt
  have hor (x y : Nat) {k : Nat} (hx : x < 2 ^ k) : x ||| 2 ^ k * y = x + 2 ^ k * y := by
    rw [Nat.or_comm, Nat.add_comm, Nat.two_pow_add_eq_or_of_lt hx]
  apply BitVec.eq_of_toNat_eq
  rw [BitVec.toNat_or, BitVec.toNat_or, BitVec.toNat_or, lane_toNat b (by decide), lane_toNat c (by decide),
    lane_toNat d (by decide), BitVec.toNat_setWidth, Nat.mod_eq_of_lt (by omega), hor a.toNat b.toNat (by omega),
    hor _ c.toNat (by omega), hor _ d.toNat (by omega), BitVec.toNat_ofNat, Nat.mod_eq_of_lt (by omega)]

/-- Word `w` of a window is the little-endian number of its four bytes. -/
theorem windowWord_eq_ofNat (buffer : List Byte) (w : Nat) :
    windowWord buffer w = .ofNat 32 ((buffer.getD (4 * w) 0).toNat + 2 ^ 8 * (buffer.getD (4 * w + 1) 0).toNat +
      2 ^ 16 * (buffer.getD (4 * w + 2) 0).toNat + 2 ^ 24 * (buffer.getD (4 * w + 3) 0).toNat) :=
  lanes_eq_ofNat _ _ _ _

/-- Settles O26: the descriptors lie at the window's offsets, and a read answers the word of the buffer. -/
theorem hexWindowAccess : Obligations.HexWindowAccess := by
  intro s w d hw byte
  refine ⟨?_, ?_, fun hidle => ?_, fun hbusy => ?_, rfl⟩
  · rw [show 0x4400 + 4 * w.toNat = 0x4000 + 0x1000 * false.toNat + (0x400 + 4 * w.toNat) by simp; omega,
      decodeAccess_aligned false (by omega) (by omega)]
    exact decodeOffset_hex false hw d
  · rw [show 0x5400 + 4 * w.toNat = 0x4000 + 0x1000 * true.toNat + (0x400 + 4 * w.toNat) by simp; omega,
      decodeAccess_aligned true (by omega) (by omega)]
    exact decodeOffset_hex true hw d
  · have hread := s.readIdle_idle (windowWord s.int.hexb w.toNat) (s.busy_eq_false_iff.mpr hidle)
    exact congrArg Host.Outcome.next (hread.trans (congrArg s.answer (windowWord_eq_ofNat _ _)))
  · have hread := s.readIdle_busy (windowWord s.int.hexb w.toNat) (Option.isSome_iff_ne_none.mpr hbusy)
    exact congrArg Host.Outcome.next hread

end Sys2Proof.Machine
end

section
/-! SUPPORT. The input race: the values that a read of an input byte may return (R85). -/

namespace Sys2Proof.Machine

/-- A platform write on an idle engine changes system memory alone. -/
theorem State.platformWrite_idle {s : State} (h : s.cur = none) (a : BitVec 64) (v : Option Byte) :
    s.platformWrite a v = { s with mem := s.mem.put a.toNat v } := by
  simp [State.platformWrite, h]

/-- A platform write while a command runs is remembered with the value that the byte had. -/
theorem State.platformWrite_running {s : State} {r : Running} (h : s.cur = some r) (a : BitVec 64) (v : Option Byte) :
    s.platformWrite a v = { s with mem := s.mem.put a.toNat v, cur := some (r.touch a.toNat (s.mem.read a.toNat)) } := by
  simp [State.platformWrite, h]

theorem mem_inputValues {mem : Memory} {touched : List (Nat × Option Byte)} {a : Nat} {v : Option Byte} :
    v ∈ inputValues mem touched a ↔ v = mem.read a ∨ (a, v) ∈ touched := by
  simp [inputValues]

/-- Whatever the free choice, the byte read is one of the values that it may have. -/
theorem readInputByte_mem_inputValues (mem : Memory) (touched : List (Nat × Option Byte)) (a k : Nat) :
    readInputByte mem touched a k ∈ inputValues mem touched a := by
  have hpos : 0 < (inputValues mem touched a).length := by simp [inputValues]
  unfold readInputByte
  split
  next v h => simp [h]
  next =>
    rw [List.getD_eq_getElem _ _ (Nat.mod_lt _ hpos)]
    exact List.getElem_mem _

/-- A byte is read as memory holds it, or as it was before one of the changes since acceptance (R85). -/
theorem readInputByte_old_or_new (mem : Memory) (touched : List (Nat × Option Byte)) (a k : Nat) :
    readInputByte mem touched a k = mem.read a ∨ (a, readInputByte mem touched a k) ∈ touched :=
  mem_inputValues.mp (readInputByte_mem_inputValues mem touched a k)

/-- Settles O48: the event is a `platformWrite`, and each byte of the input is a `readInputByte`. -/
theorem inputBytesAreOldOrNew : Obligations.InputBytesAreOldOrNew := by
  refine ⟨fun s a v rest hinputs => ?_, fun s r n => ⟨fun x hx => ⟨readInput_length hx, fun i hi => ?_⟩, fun hx => ?_⟩⟩
  · refine ⟨_, step_of_pass (State.turn_cons hinputs), fun b => Memory.read_put _ _ _ _, fun hidle => ?_,
      fun r hrun => ?_⟩
    · exact State.platformWrite_idle (s := { s with inputs := rest }) hidle a v
    · exact State.platformWrite_running (s := { s with inputs := rest }) hrun a v
  · rw [← readInput_getElem hx hi]
    exact readInputByte_old_or_new _ _ _ _
  · obtain ⟨i, hi, hread⟩ := readInput_eq_none.mp hx
    refine ⟨i, hi, ?_⟩
    rw [← hread]
    exact readInputByte_old_or_new _ _ _ _

end Sys2Proof.Machine
end

section
/-! SUPPORT. Every change of state that an instruction makes, with the instruction and the condition that it needs, which
`Transition` does not keep: from it the writers of each register are read off, and that a running command is protected
from the host. -/

namespace Sys2Proof.Machine

/-- The changes of state by the instruction that makes them; every instruction makes one of them (`exec_change`). -/
inductive Change (s : State) : Instr → State → Prop
  /-- An answer to the host, which may use up free values, and nothing else. -/
  | answered {i : Instr} (resp : Response) (fresh : Nat) (hresp : resp ≠ .none) :
      Change s i { s with resp := resp, fresh := fresh }
  /-- A write that a running command blocks (R304). -/
  | blocked {i : Instr} (hwrite : protectedWrite i) (hbusy : s.cur ≠ none) : Change s i s.overrun
  /-- The host acknowledges reports (R315). -/
  | acknowledged (d : Word) : Change s (.wrStatus d) (s.acknowledge d).ack
  /-- A write of `CTRL` (R312). -/
  | wroteCtrl (d : Word) (hidle : s.cur = none) : Change s (.wrCtrl d)
      { s with ie := d.getLsbD 0, spMode := d.getLsbD 1, outLen := d.getLsbD 2, resp := .ack }
  /-- A write of the lower address word (R317). -/
  | wroteInAddrLo (d : Word) (hidle : s.cur = none) :
      Change s (.wrInAddrLo d) { s with inAddrLo := d &&& lowmask Config.addrW, resp := .ack }
  /-- A write of the upper address word (R317). -/
  | wroteInAddrHi (d : Word) (hidle : s.cur = none) :
      Change s (.wrInAddrHi d) { s with inAddrHi := d &&& lowmask (Config.addrW - 32), resp := .ack }
  /-- A write of the lower length word (R318). -/
  | wroteInLenLo (d : Word) (hidle : s.cur = none) : Change s (.wrInLenLo d) { s with inLenLo := d, resp := .ack }
  /-- A write of the upper length word (R318). -/
  | wroteInLenHi (d : Word) (hidle : s.cur = none) : Change s (.wrInLenHi d) { s with inLenHi := d, resp := .ack }
  /-- A write of `LAT_IDX` (R320). -/
  | wroteLatIdx (d : Word) (hidle : s.cur = none) :
      Change s (.wrLatIdx d) { s with latIdx := d.setWidth 24, resp := .ack }
  /-- A read of `LAT_DATA` (R321). -/
  | readCell (resp : Response) (fresh : Nat) (hidle : s.cur = none) :
      Change s .rdLatData { s with latIdx := s.latIdx + 1, resp := resp, fresh := fresh }
  /-- A write of `LAT_DATA` (R321). -/
  | wroteCell (d : Word) (hidle : s.cur = none) : Change s (.wrLatData d) (s.writeCell (d.setWidth 8)).ack
  /-- A write of `SEEDk` (R326). -/
  | wroteSeed (k : BitVec 3) (d : Word) (hidle : s.cur = none) : Change s (.wrSeed k d)
      { s with int := { s.int with seed := setSeedWord s.int.seed k d, seedV := true }, resp := .ack }
  /-- A rejection (R302). -/
  | rejected {i : Instr} (e : ErrCode) (hissue : issuesCommand i) (hidle : s.cur = none) (he : e ≠ .ok) :
      Change s i (s.reject e).ack
  /-- An acceptance (R301). -/
  | accepted {i : Instr} (op : Op) (hissue : issuesCommand i) (hidle : s.cur = none) :
      Change s i (s.accept op s.sample).ack
  /-- The running command goes on to a stage of its `DIGEST` (R288). -/
  | staged (r : Running) (stage : Stage) (n : Nat) (hrun : s.cur = some r) :
      Change s r.op.instr ((s.tick n).setStage r stage)
  /-- The running command completes (R303). -/
  | completed (r : Running) (w : Internal) (e : ErrCode) (n : Nat) (hrun : s.cur = some r) :
      Change s r.op.instr ((s.complete w e).tick n)

namespace Change
variable {s : State} {i : Instr}

theorem answer (d : Word) : Change s i (s.answer d) := .answered (.data d) s.fresh nofun

theorem ack : Change s i s.ack := .answered .ack s.fresh nofun

/-- A protected write is blocked, or has its effect on an idle engine (R304). -/
theorem writeIdle {effect : State → State} (hwrite : protectedWrite i)
    (h : s.cur = none → Change s i (effect s).ack) : Change s i (s.writeIdle effect) := by
  cases hcur : s.cur with
  | none => rw [s.writeIdle_idle effect (s.busy_eq_false_iff.mpr hcur)]; exact h hcur
  | some r => rw [s.writeIdle_busy effect (s.busy_eq_true_iff.mpr ⟨r, hcur⟩)]; exact .blocked hwrite (by simp [hcur])

/-- The issue of a legal command is a protected write; on an idle engine it is rejected or accepted (R301). -/
theorem issue (hissue : issuesCommand i) (op : Op) : Change s i (s.issue op) := by
  rcases s.issue_cases op with ⟨hb, h⟩ | ⟨hb, -, h⟩ | ⟨hb, -, -, h⟩ | ⟨hb, -, -, h⟩ <;> rw [h]
  · exact .blocked (.inl hissue) (Option.isSome_iff_ne_none.mp hb)
  · exact .rejected _ hissue (s.busy_eq_false_iff.mp hb) nofun
  · exact .rejected _ hissue (s.busy_eq_false_iff.mp hb) nofun
  · exact .accepted op hissue (s.busy_eq_false_iff.mp hb)

/-- The issue of an illegal word is a protected write; on an idle engine it is rejected (R341). -/
theorem issueIllegal (hissue : issuesCommand i) : Change s i s.issueIllegal :=
  writeIdle (effect := (·.reject .illegal)) (.inl hissue) fun hidle => .rejected _ hissue hidle nofun

theorem readIdle (d : Word) : Change s i (s.readIdle d) := answer _

/-- The engine's turn goes on to a stage or completes (R288, R303). -/
theorem commandTurn {r : Running} (hrun : s.cur = some r) : Change s r.op.instr (s.commandTurn r) := by
  unfold State.commandTurn
  split
  next =>
    rcases s.digestTurn_cases r with ⟨-, h⟩ | ⟨st, sub, -, -, -, h⟩ | ⟨st, -, -, h⟩ <;> rw [h]
    · exact .staged r _ 0 hrun
    · exact .staged r _ _ hrun
    · exact .completed r _ _ (inputCount st.sub r.args) hrun
  next => exact .completed r _ _ _ hrun

end Change

/-- A legal command word answers with its issue, its turn, or blocked. -/
theorem exec_instr_change (op : Op) (s : State) : ∃ t, exec op.instr s = .next t ∧ Change s op.instr t := by
  have hissue : issuesCommand op.instr := .inr (.inr ⟨op, commandOp_instr op⟩)
  rw [exec_instr]
  rcases s.command_cases op s.commandTurn with ⟨-, h⟩ | ⟨r, hrun, rfl, h⟩ | ⟨r, hrun, -, h⟩
  · exact ⟨_, h, .issue hissue op⟩
  · exact ⟨_, h, .commandTurn hrun⟩
  · exact ⟨_, h, .blocked (.inl hissue) (by simp [hrun])⟩

/-- A read of `LAT_DATA` answers 0 while a command runs, else with a cell's byte (R321). -/
theorem execRdLatData_change (s : State) : ∃ t, execRdLatData s = .next t ∧ Change s .rdLatData t := by
  refine ⟨_, rfl, ?_⟩
  cases hb : s.busy with
  | true => exact .answer 0
  | false =>
    have hidle := s.busy_eq_false_iff.mp hb
    rw [if_neg (by simp), State.readCell]
    split
    · exact .readCell _ s.fresh hidle
    · exact .readCell _ (s.fresh + 1) hidle

/-- A read of `PROGRESS` answers 0 on an idle engine, else with the running command and a free count (R319). -/
theorem execRdProgress_change (s : State) : ∃ t, execRdProgress s = .next t ∧ Change s .rdProgress t := by
  unfold execRdProgress
  split
  next => exact ⟨_, rfl, .answer 0⟩
  next r _ => exact ⟨_, rfl, .answered (.data (r.progressWord (Config.freeCount s.fresh))) (s.fresh + 1) nofun⟩

/-- An instruction that is no legal command word answers, and makes one of the changes. -/
theorem exec_access_change {i : Instr} (hop : commandOp i = none) (s : State) :
    ∃ t, exec i s = .next t ∧ Change s i t := by
  cases i
  case nop | chain | rngseed | gen | load | chaos | entropy | diffuse | walk | fold | hex | latzero | digest =>
    cases hop
  case rdLatData => exact execRdLatData_change s
  case rdProgress => exact execRdProgress_change s
  all_goals refine ⟨_, rfl, ?_⟩
  case illegalCmd => exact .issueIllegal (.inr (.inl ⟨_, _, rfl⟩))
  case wrCmd d =>
    have hissue : issuesCommand (.wrCmd d) := .inl ⟨d, rfl⟩
    rcases s.issueWord_cases d with ⟨op, -, h⟩ | ⟨-, h⟩ <;> rw [h]
    · exact .issue hissue op
    · exact .issueIllegal hissue
  case wrStatus d => exact .acknowledged d
  case wrCtrl d => exact .writeIdle (.inr (.inl ⟨d, by simp⟩)) (.wroteCtrl d)
  case wrInAddrLo d => exact .writeIdle (.inr (.inl ⟨d, by simp⟩)) (.wroteInAddrLo d)
  case wrInAddrHi d => exact .writeIdle (.inr (.inl ⟨d, by simp⟩)) (.wroteInAddrHi d)
  case wrInLenLo d => exact .writeIdle (.inr (.inl ⟨d, by simp⟩)) (.wroteInLenLo d)
  case wrInLenHi d => exact .writeIdle (.inr (.inl ⟨d, by simp⟩)) (.wroteInLenHi d)
  case wrLatIdx d => exact .writeIdle (.inr (.inl ⟨d, by simp⟩)) (.wroteLatIdx d)
  case wrLatData d => exact .writeIdle (.inr (.inl ⟨d, by simp⟩)) (.wroteCell d)
  case wrSeed k d => exact .writeIdle (.inr (.inr ⟨k, d, rfl⟩)) (.wroteSeed k d)
  case rdId | rdCtrl | rdStatus | rdCmd | rdInAddrLo | rdInAddrHi | rdInLenLo | rdInLenHi | rdLatIdx | rdDiglen =>
    exact .answer _
  case rdSeed | rdEntropyLo | rdEntropyHi | rdDig | rdHex => exact .readIdle _
  case wrId | wrProgress | wrDiglen | wrEntropyLo | wrEntropyHi | wrDig | wrHex => exact .ack
  case rsvd w off =>
    cases w
    · exact .answer 0
    · exact .ack
  case accessError => exact .answered .busError s.fresh nofun

/-- Every instruction answers, and makes one of the changes. -/
theorem exec_change (i : Instr) (s : State) : ∃ t, exec i s = .next t ∧ Change s i t := by
  cases hop : commandOp i with
  | none => exact exec_access_change hop s
  | some op =>
    obtain rfl := instr_of_commandOp hop
    exact exec_instr_change op s

theorem change_of_exec {i : Instr} {s t : State} (h : exec i s = .next t) : Change s i t := by
  obtain ⟨t', h', hchange⟩ := exec_change i s
  obtain rfl := Host.Outcome.next.inj (h'.symm.trans h)
  exact hchange

/-! A running command and the host. -/

/-- Other instructions than the running command's own change the reports, the answer and the count of free values. -/
theorem Change.of_busy {s t : State} {i : Instr} (hchange : Change s i t) (hop : commandOp i = none)
    (hbusy : s.cur ≠ none) : ∃ done ovr resp fresh, t = { s with done := done, ovr := ovr, resp := resp, fresh := fresh } ∧
      (done = true → s.done = true) ∧ resp ≠ .none := by
  cases hchange with
  | answered resp fresh hresp => exact ⟨s.done, s.ovr, resp, fresh, rfl, id, hresp⟩
  | blocked => exact ⟨s.done, true, .ack, s.fresh, rfl, id, nofun⟩
  | acknowledged d =>
    exact ⟨s.done && !d.getLsbD 1, s.ovr && !d.getLsbD 2, .ack, s.fresh, rfl,
      fun h => (Bool.and_eq_true_iff.mp h).1, nofun⟩
  | staged r | completed r => rw [commandOp_instr] at hop; cases hop
  | wroteCtrl | wroteInAddrLo | wroteInAddrHi | wroteInLenLo | wroteInLenHi | wroteLatIdx | readCell | wroteCell
      | wroteSeed | rejected | accepted => contradiction

/-- Settles O50: a host access is never the running command's turn, so it is answered, blocked, or an acknowledgement. -/
theorem hostCannotDisturbRunning : Obligations.HostCannotDisturbRunning := by
  intro s had d hbusy
  obtain ⟨t, hexec, hchange⟩ := exec_change (decodeAccess had d) s
  obtain ⟨done, ovr, resp, fresh, rfl, hdone, hresp⟩ := hchange.of_busy (commandOp_decodeAccess had d) hbusy
  exact ⟨done, ovr, resp, fresh, hexec, hdone, hresp⟩

/-! The events of the command lifecycle. -/

theorem rejects_reject {s : State} {i : Instr} {e : ErrCode} (hissue : issuesCommand i) (hidle : s.cur = none)
    (he : e ≠ .ok) : rejects i s (s.reject e).ack := ⟨hissue, hidle, hidle, rfl, he⟩

theorem accepts_accept {s : State} {i : Instr} (op : Op) (args : Operands) (hissue : issuesCommand i)
    (hidle : s.cur = none) : accepts i s (s.accept op args).ack := ⟨hissue, hidle, nofun, rfl⟩

theorem completes_complete {s : State} {r : Running} (w : Internal) (e : ErrCode) (n : Nat) (hrun : s.cur = some r) :
    completes r.op.instr s ((s.complete w e).tick n) := ⟨r, hrun, rfl, rfl, rfl⟩

/-- A flag that its acknowledgement changes was acknowledged, and falls (R315). -/
theorem cleared_of_and_not_ne {flag ackBit : Bool} (h : (flag && !ackBit) ≠ flag) :
    ackBit = true ∧ (flag && !ackBit) = false := by
  cases ackBit <;> simp at h ⊢

/-- Settles O53: each change names its instruction, and the changes of the reports are the events of the lifecycle. -/
theorem registerWriters : Obligations.RegisterWriters := by
  intro i s t h
  cases change_of_exec h with
  | answered | wroteCtrl | wroteInAddrLo | wroteInAddrHi | wroteInLenLo | wroteInLenHi | wroteLatIdx | readCell
      | wroteSeed =>
    simp [State.busy]
  | wroteCell d => simp [State.busy, State.writeCell]
  | blocked hwrite hbusy => simp [hwrite, hbusy]
  | acknowledged d =>
    have hdone := cleared_of_and_not_ne (flag := s.done) (ackBit := d.getLsbD 1)
    have hovr := cleared_of_and_not_ne (flag := s.ovr) (ackBit := d.getLsbD 2)
    exact ⟨rfl, rfl, rfl, by simp, by simp, by simp, by simp, by simp, by simp, by simp, by simp [State.busy],
      fun hne => .inr (.inr (.inr ⟨d, rfl, hdone hne⟩)), fun hne => .inr ⟨d, rfl, hovr hne⟩⟩
  | rejected e hissue hidle he => simp [rejects_reject hissue hidle he]
  | accepted op hissue hidle => simp [accepts_accept op s.sample hissue hidle]
  | staged r stage n hrun => simp [State.busy, hrun]
  | completed r w e n hrun => simp [completes_complete w e n hrun]

end Sys2Proof.Machine
end

section
/-! SUPPORT. The step on the host's next access: what its bits decode to, and the two ways in which they reach the
engine. -/

namespace Sys2Proof.Machine

/-- A command word that names no operation is the illegal word of its two fields (R102). -/
theorem decodeCommand_of_commandOp_none {w : Word} :
    commandOp (decodeCommand w) = none →
      decodeCommand w = .illegalCmd (w.extractLsb' 8 24) (w.extractLsb' 0 8) := by
  unfold decodeCommand
  split
  case h_14 => exact fun _ => rfl
  all_goals exact nofun

/-- On an idle engine a write of `CMD` is the instruction that its data names (R301). -/
theorem exec_wrCmd_idle {s : State} (hidle : s.cur = none) (w : Word) :
    exec (.wrCmd w) s = exec (decodeCommand w) s := by
  change Host.Outcome.next (s.issueWord w) = _
  rcases s.issueWord_cases w with ⟨op, hdecode, hissue⟩ | ⟨hnone, hissue⟩
  · rw [hissue, hdecode, exec_instr, State.command_idle hidle]
  · rw [hissue, decodeCommand_of_commandOp_none hnone]
    rfl

theorem decodeAccessBits_ok {bits : Nat} {i : Instr} (h : decodeAccessBits bits = .ok i) :
    i = decodeAccess (.ofNat 15 bits) (.ofNat 32 (bits / 2 ^ 16)) := by
  unfold decodeAccessBits at h
  split at h <;> cases h
  rfl

/-- What a bit string decodes to: at 32 bits a command word, at every other length a host access (R100, R107). -/
theorem decodeBits_ok {nbits bits : Nat} {i : Instr} (h : decodeBits nbits bits = .ok i) :
    (nbits = 32 ∧ i = decodeCommand (.ofNat 32 bits)) ∨
    (nbits ≠ 32 ∧ i = decodeAccess (.ofNat 15 bits) (.ofNat 32 (bits / 2 ^ 16))) := by
  unfold decodeBits at h
  split_ifs at h with h32
  · cases h; exact .inl ⟨h32, rfl⟩
  · exact .inr ⟨h32, decodeAccessBits_ok h⟩
  · exact .inr ⟨h32, decodeAccessBits_ok h⟩

theorem decodeBits_of_decodeTableWord {nbits w : Nat} {i : Instr} (h : decodeTableWord nbits w = some i) :
    decodeBits nbits w = .ok i := by
  unfold decodeTableWord at h
  split at h
  next hdecode => cases h; exact hdecode
  next => cases h

theorem State.eventTurn_host {s : State} (hreset : s.inReset = false) (had : BitVec 15) (d : Word) :
    s.eventTurn (.host had d) = .run (decodeAccess had d) s := by
  simp [State.eventTurn, hreset]

/-- A pending access outside reset is decoded and run on the state without it (R91, R300). -/
theorem step_host {s : State} {had : BitVec 15} {d : Word} {rest : List Event} (hinputs : s.inputs = .host had d :: rest)
    (hreset : s.inReset = false) : step s = exec (decodeAccess had d) { s with inputs := rest } :=
  step_of_run ((State.turn_cons hinputs).trans (State.eventTurn_host (s := { s with inputs := rest }) hreset had d))

/-- Settles O6: the access is a write of `CMD` with the word, or the access that the bits describe. -/
theorem stepRunsDecodedInstruction : Obligations.StepRunsDecodedInstruction := by
  intro s nbits w i hreset hdecode hcommand
  rcases decodeBits_ok (decodeBits_of_decodeTableWord hdecode) with ⟨rfl, rfl⟩ | ⟨hnbits, rfl⟩
  · calc step (s.withFetchWord 32 w)
      _ = exec (.wrCmd (.ofNat 32 w)) s := step_host (s := s.withFetchWord 32 w) (had := 0x500C) rfl hreset
      _ = exec (decodeCommand (.ofNat 32 w)) s := exec_wrCmd_idle (hcommand rfl) _
  · have haccess : (s.withFetchWord nbits w).inputs = .host (.ofNat 15 w) (.ofNat 32 (w / 2 ^ 16)) :: s.inputs := by
      simp [State.withFetchWord, accessOfBits, hnbits]
    exact step_host haccess hreset

end Sys2Proof.Machine
end

section
/-! SUPPORT. The encoding of the command words (30_encoding.md rules R100 to R103): what a word decodes to, said once, and
what each instruction so decoded encodes to. -/

namespace Sys2Proof.Machine

/-! Command words (R101 to R103). -/

/-- A command word is an operation's opcode, or it is none of the thirteen and decodes to the illegal word of its
fields. -/
theorem decodeCommand_cases (w : Word) :
    (∃ op : Op, w = op.code.setWidth 32) ∨
    (decodeCommand w = .illegalCmd (w.extractLsb' 8 24) (w.extractLsb' 0 8) ∧ 0x0B < w.toNat ∧ w.toNat ≠ 0x0F) := by
  unfold decodeCommand
  split
  case h_1 h => exact .inl ⟨.nop, BitVec.eq_of_toNat_eq h⟩
  case h_2 h => exact .inl ⟨.chain, BitVec.eq_of_toNat_eq h⟩
  case h_3 h => exact .inl ⟨.rngseed, BitVec.eq_of_toNat_eq h⟩
  case h_4 h => exact .inl ⟨.gen, BitVec.eq_of_toNat_eq h⟩
  case h_5 h => exact .inl ⟨.load, BitVec.eq_of_toNat_eq h⟩
  case h_6 h => exact .inl ⟨.chaos, BitVec.eq_of_toNat_eq h⟩
  case h_7 h => exact .inl ⟨.entropy, BitVec.eq_of_toNat_eq h⟩
  case h_8 h => exact .inl ⟨.diffuse, BitVec.eq_of_toNat_eq h⟩
  case h_9 h => exact .inl ⟨.walk, BitVec.eq_of_toNat_eq h⟩
  case h_10 h => exact .inl ⟨.fold, BitVec.eq_of_toNat_eq h⟩
  case h_11 h => exact .inl ⟨.hex, BitVec.eq_of_toNat_eq h⟩
  case h_12 h => exact .inl ⟨.latzero, BitVec.eq_of_toNat_eq h⟩
  case h_13 h => exact .inl ⟨.digest, BitVec.eq_of_toNat_eq h⟩
  case h_14 =>
    refine .inr ⟨rfl, ?_⟩
    simp only [imp_false] at *
    omega

/-- The legal opcodes of R101. -/
theorem Op.code_legal (op : Op) : (op.code.setWidth 32).toNat ≤ 0x0B ∨ (op.code.setWidth 32).toNat = 0x0F := by
  cases op <;> decide

theorem encode_instr (op : Op) : encode op.instr = encodeCommand (op.code.setWidth 32) := by cases op <;> rfl

theorem Op.instr_wellFormed (op : Op) : op.instr.wellFormed = true := by cases op <;> rfl

theorem Op.instr_ne_illegalCmd (op : Op) (hi : BitVec 24) (lo : BitVec 8) : op.instr ≠ .illegalCmd hi lo := by
  cases op <;> nofun

/-- The value of a string of bits is that of its high part shifted over its low part. -/
theorem toNat_append_eq_add {m n : Nat} (hi : BitVec m) (lo : BitVec n) :
    (hi ++ lo).toNat = hi.toNat * 2 ^ n + lo.toNat := by
  rw [BitVec.toNat_append, ← Nat.shiftLeft_add_eq_or_of_lt lo.isLt, Nat.shiftLeft_eq]

/-- A command word is its fields `RSVD` and `OP` (R100). -/
theorem commandFields_append (w : Word) : w.extractLsb' 8 24 ++ w.extractLsb' 0 8 = w :=
  (BitVec.extractLsb'_append_extractLsb'_eq_extractLsb' rfl).trans BitVec.extractLsb'_eq_self

/-- The illegal words are those of no legal opcode with `RSVD` zero (R102). -/
theorem illegalCmd_wellFormed_iff (hi : BitVec 24) (lo : BitVec 8) :
    (Instr.illegalCmd hi lo).wellFormed = true ↔ 0x0B < (hi ++ lo).toNat ∧ (hi ++ lo).toNat ≠ 0x0F := by
  have hlo := lo.isLt
  have hzero : hi = 0 ↔ hi.toNat = 0 := BitVec.toNat_inj.symm
  simp only [Instr.wellFormed, legalOpcode, toNat_append_eq_add, bne_iff_ne, Bool.or_eq_true, Bool.not_eq_true',
    Bool.or_eq_false_iff, decide_eq_false_iff_not, beq_eq_false_iff_ne, ne_eq, hzero]
  omega

theorem decodeCommand_wellFormed (w : Word) : (decodeCommand w).wellFormed = true := by
  rcases decodeCommand_cases w with ⟨op, rfl⟩ | ⟨h, hillegal⟩
  · rw [decodeCommand_code]
    exact op.instr_wellFormed
  · rwa [h, illegalCmd_wellFormed_iff, commandFields_append]

/-- The instruction of a command word encodes to that word alone (R103). -/
theorem encode_decodeCommand (w : Word) : encode (decodeCommand w) = encodeCommand w := by
  rcases decodeCommand_cases w with ⟨op, rfl⟩ | ⟨h, -⟩
  · rw [decodeCommand_code, encode_instr]
  · rw [h, encode, commandFields_append]

theorem decodeCommand_illegal_iff (w : Word) :
    (∃ rsvd op, decodeCommand w = .illegalCmd rsvd op) ↔ 0x0B < w.toNat ∧ w.toNat ≠ 0x0F := by
  rcases decodeCommand_cases w with ⟨op, rfl⟩ | ⟨h, hillegal⟩
  · have hlegal := op.code_legal
    rw [decodeCommand_code]
    exact ⟨fun ⟨_, _, heq⟩ => absurd heq (op.instr_ne_illegalCmd _ _), by omega⟩
  · exact ⟨fun _ => hillegal, fun _ => ⟨_, _, h⟩⟩

/-- An illegal word decodes to its own fields. -/
theorem decodeCommand_append {hi : BitVec 24} {lo : BitVec 8} (hwf : (Instr.illegalCmd hi lo).wellFormed = true) :
    decodeCommand (hi ++ lo) = .illegalCmd hi lo := by
  have hillegal := (illegalCmd_wellFormed_iff hi lo).mp hwf
  rcases decodeCommand_cases (hi ++ lo) with ⟨op, heq⟩ | ⟨h, -⟩
  · have hlegal := op.code_legal
    rw [← heq] at hlegal
    omega
  · rw [h, BitVec.extractLsb'_append_eq_left, BitVec.extractLsb'_append_eq_right]

theorem decodeBits_encodeCommand (w : Word) :
    decodeBits (encodeCommand w).nbits (encodeCommand w).bits = .ok (decodeCommand w) := by
  simp [decodeBits, encodeCommand, w.isLt]

/-- Settles O3: a word is legal or illegal by `decodeCommand_cases`, and its fields are read off its value. -/
theorem commandWordsHaveOneMeaning : Obligations.CommandWordsHaveOneMeaning := by
  refine fun w => ⟨encode_decodeCommand w, (decodeCommand_illegal_iff w).trans ?_⟩
  simp only [List.mem_cons, List.not_mem_nil, or_false]
  omega

end Sys2Proof.Machine
end

section
/-! SUPPORT. The encoding of the host accesses: the fields of a descriptor (R106), the register map of R22 as a relation
between an offset and the two instructions of its register, and from it the three meanings of a descriptor (R107). -/

namespace Sys2Proof.Machine

/-! Descriptors (R106). -/

theorem descriptor_toNat (sz : BitVec 2) (w : Bool) (off : BitVec 12) :
    (descriptor sz w off).toNat = sz.toNat * 2 ^ 13 + w.toNat * 2 ^ 12 + off.toNat := by
  rw [descriptor, toNat_append_eq_add, toNat_append_eq_add, BitVec.toNat_ofBool]
  omega

/-- A descriptor's value gives its three fields. -/
theorem descriptor_fields (sz : BitVec 2) (w : Bool) (off : BitVec 12) :
    (descriptor sz w off).toNat / 2 ^ 13 = sz.toNat ∧ (descriptor sz w off).toNat / 2 ^ 12 % 2 = w.toNat ∧
    (descriptor sz w off).toNat % 2 ^ 12 = off.toNat := by
  have hw := w.toNat_lt
  have hoff := off.isLt
  rw [descriptor_toNat]
  omega

/-- Every descriptor is made of its three fields. -/
theorem exists_descriptor (had : BitVec 15) : ∃ sz w off, had = descriptor sz w off := by
  refine ⟨had.extractLsb' 13 2, had.getLsbD 12, had.extractLsb' 0 12, BitVec.eq_of_toNat_eq ?_⟩
  have hhad := had.isLt
  have hw : (had.getLsbD 12).toNat = had.toNat / 2 ^ 12 % 2 := Nat.toNat_testBit _ _
  rw [descriptor_toNat, hw, BitVec.extractLsb'_toNat, BitVec.extractLsb'_toNat, Nat.shiftRight_eq_div_pow,
    Nat.shiftRight_zero]
  omega

/-- What the decoder does with the three fields (R107). -/
theorem decodeAccess_descriptor (sz : BitVec 2) (w : Bool) (off : BitVec 12) (d : Word) :
    decodeAccess (descriptor sz w off) d =
      if sz = 2 ∧ off.toNat % 4 = 0 then decodeOffset w off d else .accessError sz w off := by
  have hsz : (descriptor sz w off).extractLsb' 13 2 = sz := by
    rw [descriptor, BitVec.extractLsb'_append_eq_of_le (by decide)]
    exact BitVec.extractLsb'_append_eq_left
  have hw : (descriptor sz w off).getLsbD 12 = w := by
    rw [descriptor, BitVec.getLsbD_append, BitVec.getLsbD_append]
    simp
  have hoff : (descriptor sz w off).extractLsb' 0 12 = off := BitVec.extractLsb'_append_eq_right
  simp only [decodeAccess, hsz, hw, hoff]
  rfl

/-! The register map (R22). -/

theorem alignedOffset_iff (off : BitVec 12) : alignedOffset off = true ↔ off.toNat % 4 = 0 := by simp [alignedOffset]

/-- The three reserved ranges of R39. -/
theorem reservedOffset_iff (off : BitVec 12) : reservedOffset off = true ↔
    (0x058 ≤ off.toNat ∧ off.toNat ≤ 0x0FF) ∨ (0x280 ≤ off.toNat ∧ off.toNat ≤ 0x3FF) ∨ 0x700 ≤ off.toNat := by
  simp [reservedOffset, or_assoc]

theorem seedOffset_toNat (k : BitVec 3) : (seedOffset k).toNat = 0x030 + 4 * k.toNat := by
  rw [seedOffset, BitVec.toNat_ofNat]
  omega

theorem digOffset_toNat (w : BitVec 7) : (digOffset w).toNat = 0x100 + 4 * w.toNat := by
  rw [digOffset, BitVec.toNat_ofNat]
  omega

theorem hexOffset_toNat (w : BitVec 8) : (hexOffset w).toNat = 0x400 + 4 * w.toNat := by
  rw [hexOffset, BitVec.toNat_ofNat]
  omega

/-- The register map: the offset of a register, its read, and its write of a data value. -/
inductive RegisterAt : BitVec 12 → Instr → (Word → Instr) → Prop
  | id : RegisterAt 0x000 .rdId .wrId
  | ctrl : RegisterAt 0x004 .rdCtrl .wrCtrl
  | status : RegisterAt 0x008 .rdStatus .wrStatus
  | cmd : RegisterAt 0x00C .rdCmd .wrCmd
  | inAddrLo : RegisterAt 0x010 .rdInAddrLo .wrInAddrLo
  | inAddrHi : RegisterAt 0x014 .rdInAddrHi .wrInAddrHi
  | inLenLo : RegisterAt 0x018 .rdInLenLo .wrInLenLo
  | inLenHi : RegisterAt 0x01C .rdInLenHi .wrInLenHi
  | progress : RegisterAt 0x020 .rdProgress .wrProgress
  | latIdx : RegisterAt 0x024 .rdLatIdx .wrLatIdx
  | latData : RegisterAt 0x028 .rdLatData .wrLatData
  | diglen : RegisterAt 0x02C .rdDiglen .wrDiglen
  | seed (k : BitVec 3) : RegisterAt (seedOffset k) (.rdSeed k) (.wrSeed k)
  | entropyLo : RegisterAt 0x050 .rdEntropyLo .wrEntropyLo
  | entropyHi : RegisterAt 0x054 .rdEntropyHi .wrEntropyHi
  | dig (w : BitVec 7) (hw : w.toNat < 96) : RegisterAt (digOffset w) (.rdDig w) (.wrDig w)
  | hex (w : BitVec 8) (hw : w.toNat < 192) : RegisterAt (hexOffset w) (.rdHex w) (.wrHex w)

/-- A word's number is read back off its offset in a window that begins at `base`. -/
theorem ofNat_index {n : Nat} (base : Nat) (k : BitVec n) : BitVec.ofNat n ((base + 4 * k.toNat - base) / 4) = k := by
  rw [Nat.add_sub_cancel_left, Nat.mul_div_cancel_left _ (by decide), BitVec.ofNat_toNat, BitVec.setWidth_eq]

theorem decodeOffset_seed (write : Bool) (k : BitVec 3) (d : Word) :
    decodeOffset write (seedOffset k) d = byDirection write (.rdSeed k) (.wrSeed k d) := by
  simp only [decodeOffset, seedOffset_toNat, ofNat_index]
  simp (disch := omega) only [if_neg, if_pos]

theorem decodeOffset_dig (write : Bool) {w : BitVec 7} (hw : w.toNat < 96) (d : Word) :
    decodeOffset write (digOffset w) d = byDirection write (.rdDig w) (.wrDig w d) := by
  simp only [decodeOffset, digOffset_toNat, ofNat_index]
  simp (disch := omega) only [if_neg, if_pos]

namespace RegisterAt
variable {off : BitVec 12} {read : Instr} {write : Word → Instr}

/-- The decoder follows the register map. -/
theorem decodeOffset_eq (h : RegisterAt off read write) (w : Bool) (d : Word) :
    decodeOffset w off d = byDirection w read (write d) := by
  cases h
  case seed k => exact decodeOffset_seed w k d
  case dig hw => exact decodeOffset_dig w hw d
  case hex hw => exact decodeOffset_hex w hw d
  all_goals rfl

/-- A register's offset is a multiple of 4, and is not reserved (R39, R79). -/
theorem aligned_not_reserved (h : RegisterAt off read write) :
    off.toNat % 4 = 0 ∧ ¬ reservedOffset off = true := by
  rw [reservedOffset_iff]
  cases h
  case seed k => rw [seedOffset_toNat]; omega
  case dig w hw => rw [digOffset_toNat]; omega
  case hex w hw => rw [hexOffset_toNat]; omega
  all_goals decide

theorem encode_read (h : RegisterAt off read write) : encode read = encodeRead off := by cases h <;> rfl

theorem encode_write (h : RegisterAt off read write) (d : Word) : encode (write d) = encodeWrite off d := by
  cases h <;> rfl

theorem wellFormed (h : RegisterAt off read write) (w : Bool) (d : Word) :
    (byDirection w read (write d)).wellFormed = true := by
  cases h
  case dig hw => cases w <;> exact decide_eq_true hw
  case hex hw => cases w <;> exact decide_eq_true hw
  all_goals cases w <;> rfl

/-- The accesses of a register are neither reserved accesses nor access errors. -/
theorem ne_rsvd (h : RegisterAt off read write) (w v : Bool) (d : Word) (o : BitVec 12) :
    byDirection w read (write d) ≠ .rsvd v o := by cases h <;> cases w <;> nofun

theorem ne_accessError (h : RegisterAt off read write) (w v : Bool) (d : Word) (z : BitVec 2) (o : BitVec 12) :
    byDirection w read (write d) ≠ .accessError z v o := by cases h <;> cases w <;> nofun

end RegisterAt

/-- The twelve registers below the `SEED` words, one at each word. -/
theorem exists_registerAt_of_lt {q : Nat} (hq : q < 12) : ∃ read write, RegisterAt (.ofNat 12 (4 * q)) read write := by
  match q with
  | 0 => exact ⟨_, _, .id⟩
  | 1 => exact ⟨_, _, .ctrl⟩
  | 2 => exact ⟨_, _, .status⟩
  | 3 => exact ⟨_, _, .cmd⟩
  | 4 => exact ⟨_, _, .inAddrLo⟩
  | 5 => exact ⟨_, _, .inAddrHi⟩
  | 6 => exact ⟨_, _, .inLenLo⟩
  | 7 => exact ⟨_, _, .inLenHi⟩
  | 8 => exact ⟨_, _, .progress⟩
  | 9 => exact ⟨_, _, .latIdx⟩
  | 10 => exact ⟨_, _, .latData⟩
  | 11 => exact ⟨_, _, .diglen⟩
  | _ + 12 => omega

/-- An aligned offset is reserved or a register's (R22, R39). -/
theorem reservedOffset_or_registerAt {off : BitVec 12} (haligned : off.toNat % 4 = 0) :
    reservedOffset off = true ∨ ∃ read write, RegisterAt off read write := by
  have hoff := off.isLt
  rw [reservedOffset_iff, or_iff_not_imp_left]
  intro hreserved
  by_cases hlow : off.toNat < 0x030
  · have heq : off = .ofNat 12 (4 * (off.toNat / 4)) :=
      BitVec.eq_of_toNat_eq (by rw [BitVec.toNat_ofNat]; omega)
    exact heq ▸ exists_registerAt_of_lt (by omega)
  by_cases hseed : off.toNat < 0x050
  · have heq : off = seedOffset (.ofNat 3 ((off.toNat - 0x030) / 4)) :=
      BitVec.eq_of_toNat_eq (by rw [seedOffset_toNat, BitVec.toNat_ofNat]; omega)
    exact heq ▸ ⟨_, _, .seed _⟩
  by_cases hentropyLo : off.toNat = 0x050
  · obtain rfl : off = 0x050 := BitVec.eq_of_toNat_eq hentropyLo
    exact ⟨_, _, .entropyLo⟩
  by_cases hentropyHi : off.toNat = 0x054
  · obtain rfl : off = 0x054 := BitVec.eq_of_toNat_eq hentropyHi
    exact ⟨_, _, .entropyHi⟩
  by_cases hdig : off.toNat < 0x280
  · have heq : off = digOffset (.ofNat 7 ((off.toNat - 0x100) / 4)) :=
      BitVec.eq_of_toNat_eq (by rw [digOffset_toNat, BitVec.toNat_ofNat]; omega)
    exact heq ▸ ⟨_, _, .dig _ (by rw [BitVec.toNat_ofNat]; omega)⟩
  · have heq : off = hexOffset (.ofNat 8 ((off.toNat - 0x400) / 4)) :=
      BitVec.eq_of_toNat_eq (by rw [hexOffset_toNat, BitVec.toNat_ofNat]; omega)
    exact heq ▸ ⟨_, _, .hex _ (by rw [BitVec.toNat_ofNat]; omega)⟩

/-- A reserved offset has no register (R323). -/
theorem decodeOffset_reserved (w : Bool) {off : BitVec 12} (hreserved : reservedOffset off = true) (d : Word) :
    decodeOffset w off d = .rsvd w off := by
  rw [reservedOffset_iff] at hreserved
  rcases hreserved with h | h | h <;> simp (disch := omega) only [decodeOffset, if_neg, if_pos]

/-! The meanings of a descriptor (R107). -/

/-- A descriptor is an access error, a reserved access, or an access of a register. -/
theorem decodeAccess_cases (sz : BitVec 2) (w : Bool) (off : BitVec 12) (d : Word) :
    (¬ (sz = 2 ∧ off.toNat % 4 = 0) ∧ decodeAccess (descriptor sz w off) d = .accessError sz w off) ∨
    ((sz = 2 ∧ off.toNat % 4 = 0) ∧ reservedOffset off = true ∧ decodeAccess (descriptor sz w off) d = .rsvd w off) ∨
    (sz = 2 ∧ ∃ read write, RegisterAt off read write ∧
      decodeAccess (descriptor sz w off) d = byDirection w read (write d)) := by
  rw [decodeAccess_descriptor]
  by_cases haligned : sz = 2 ∧ off.toNat % 4 = 0
  · rw [if_pos haligned]
    rcases reservedOffset_or_registerAt haligned.2 with hreserved | ⟨read, write, hreg⟩
    · exact .inr (.inl ⟨haligned, hreserved, decodeOffset_reserved w hreserved d⟩)
    · exact .inr (.inr ⟨haligned.1, read, write, hreg, hreg.decodeOffset_eq w d⟩)
  · exact .inl ⟨haligned, if_neg haligned⟩

theorem RegisterAt.decodeAccess_eq {off : BitVec 12} {read : Instr} {write : Word → Instr}
    (h : RegisterAt off read write) (w : Bool) (d : Word) :
    decodeAccess (descriptor 2 w off) d = byDirection w read (write d) := by
  rw [decodeAccess_descriptor, if_pos ⟨rfl, h.aligned_not_reserved.1⟩, h.decodeOffset_eq]

theorem decodeAccess_rsvd {w : Bool} {off : BitVec 12} (hwf : (Instr.rsvd w off).wellFormed = true) (d : Word) :
    decodeAccess (descriptor 2 w off) d = .rsvd w off := by
  obtain ⟨haligned, hreserved⟩ := Bool.and_eq_true_iff.mp hwf
  rw [decodeAccess_descriptor, if_pos ⟨rfl, (alignedOffset_iff off).mp haligned⟩, decodeOffset_reserved w hreserved]

theorem accessError_wellFormed_iff (sz : BitVec 2) (w : Bool) (off : BitVec 12) :
    (Instr.accessError sz w off).wellFormed = true ↔ ¬ (sz = 2 ∧ off.toNat % 4 = 0) := by
  rw [← alignedOffset_iff, not_and, Instr.wellFormed, Bool.or_eq_true, bne_iff_ne, Bool.not_eq_true', ne_eq,
    ← imp_iff_not_or, Bool.not_eq_true]

theorem decodeAccess_accessError {sz : BitVec 2} {w : Bool} {off : BitVec 12}
    (hwf : (Instr.accessError sz w off).wellFormed = true) (d : Word) :
    decodeAccess (descriptor sz w off) d = .accessError sz w off := by
  rw [decodeAccess_descriptor, if_neg ((accessError_wellFormed_iff sz w off).mp hwf)]

theorem decodeAccess_wellFormed (had : BitVec 15) (d : Word) : (decodeAccess had d).wellFormed = true := by
  obtain ⟨sz, w, off, rfl⟩ := exists_descriptor had
  rcases decodeAccess_cases sz w off d with ⟨herror, h⟩ | ⟨⟨-, haligned⟩, hreserved, h⟩ | ⟨-, read, write, hreg, h⟩ <;>
    rw [h]
  · exact (accessError_wellFormed_iff sz w off).mpr herror
  · exact Bool.and_eq_true_iff.mpr ⟨(alignedOffset_iff off).mpr haligned, hreserved⟩
  · exact hreg.wellFormed w d

/-! Bit strings. -/

/-- An access as a bit string: its descriptor in the low 16 bits and its data value above them. -/
theorem encodeAccess_fields (had : BitVec 15) (d : Word) : (encodeAccess had d).nbits = 48 ∧
    (encodeAccess had d).bits % 2 ^ 16 = had.toNat ∧ (encodeAccess had d).bits / 2 ^ 16 = d.toNat := by
  have hhad := had.isLt
  refine ⟨rfl, ?_, ?_⟩ <;> simp only [encodeAccess] <;> omega

theorem decodeBits_encodeAccess (had : BitVec 15) (d : Word) :
    decodeBits (encodeAccess had d).nbits (encodeAccess had d).bits = .ok (decodeAccess had d) := by
  obtain ⟨hlen, hlt, hbit⟩ := Laws.EncodingFits.of_access had d
  obtain ⟨-, hlow, hhigh⟩ := encodeAccess_fields had d
  have hhad : BitVec.ofNat 15 (encodeAccess had d).bits = had :=
    BitVec.eq_of_toNat_eq (by rw [BitVec.toNat_ofNat]; omega)
  have hd : BitVec.ofNat 32 ((encodeAccess had d).bits / 2 ^ 16) = d := by
    rw [hhigh, BitVec.ofNat_toNat, BitVec.setWidth_eq]
  rw [decodeBits, if_neg (by omega), if_neg (by omega), if_pos hlen, if_pos hlt, decodeAccessBits, if_neg (by omega),
    hhad, hd]

theorem decodeBits_encode_read {off : BitVec 12} {read : Instr} {write : Word → Instr}
    (h : RegisterAt off read write) : decodeBits (encode read).nbits (encode read).bits = .ok read := by
  rw [h.encode_read, encodeRead, decodeBits_encodeAccess, h.decodeAccess_eq]
  rfl

theorem decodeBits_encode_write {off : BitVec 12} {read : Instr} {write : Word → Instr}
    (h : RegisterAt off read write) (d : Word) :
    decodeBits (encode (write d)).nbits (encode (write d)).bits = .ok (write d) := by
  rw [h.encode_write, encodeWrite, decodeBits_encodeAccess, h.decodeAccess_eq]
  rfl

theorem decodeBits_encode_instr (op : Op) :
    decodeBits (encode op.instr).nbits (encode op.instr).bits = .ok op.instr := by
  rw [encode_instr, decodeBits_encodeCommand, decodeCommand_code]

/-- Settles O1: a legal command by its opcode, a register's access by the register map, and the other three by the
well-formedness of their operands. -/
theorem encodeDecodeRoundTrip : Obligations.EncodeDecodeRoundTrip := by
  intro i hwf
  cases hop : commandOp i with
  | some op =>
    obtain rfl := instr_of_commandOp hop
    exact decodeBits_encode_instr op
  | none =>
    cases i
    case nop | chain | rngseed | gen | load | chaos | entropy | diffuse | walk | fold | hex | latzero | digest =>
      cases hop
    case illegalCmd hi lo => rw [encode, decodeBits_encodeCommand, decodeCommand_append hwf]
    case rsvd w off => rw [encode, decodeBits_encodeAccess, decodeAccess_rsvd hwf]
    case accessError sz w off => rw [encode, decodeBits_encodeAccess, decodeAccess_accessError hwf]
    case rdDig w => exact decodeBits_encode_read (.dig w (of_decide_eq_true hwf))
    case wrDig w d => exact decodeBits_encode_write (.dig w (of_decide_eq_true hwf)) d
    case rdHex w => exact decodeBits_encode_read (.hex w (of_decide_eq_true hwf))
    case wrHex w d => exact decodeBits_encode_write (.hex w (of_decide_eq_true hwf)) d
    case rdId | rdCtrl | rdStatus | rdCmd | rdInAddrLo | rdInAddrHi | rdInLenLo | rdInLenHi | rdProgress | rdLatIdx
        | rdLatData | rdDiglen | rdSeed | rdEntropyLo | rdEntropyHi =>
      exact decodeBits_encode_read (by constructor)
    case wrId d | wrCtrl d | wrStatus d | wrCmd d | wrInAddrLo d | wrInAddrHi d | wrInLenLo d | wrInLenHi d
        | wrProgress d | wrLatIdx d | wrLatData d | wrDiglen d | wrSeed _ d | wrEntropyLo d | wrEntropyHi d =>
      exact decodeBits_encode_write (by constructor) d

/-- Settles O2: a decoded bit string is a command word's instruction or a descriptor's. -/
theorem decodedInstructionsAreWellFormed : Obligations.DecodedInstructionsAreWellFormed := by
  intro nbits bits i h
  rcases decodeBits_ok h with ⟨-, rfl⟩ | ⟨-, rfl⟩
  · exact decodeCommand_wellFormed _
  · exact decodeAccess_wellFormed _ _

/-- A decoded access encodes to its descriptor, with some data value above it. -/
theorem exists_encode_decodeAccess (had : BitVec 15) (d : Word) :
    ∃ d', encode (decodeAccess had d) = encodeAccess had d' := by
  obtain ⟨sz, w, off, rfl⟩ := exists_descriptor had
  rcases decodeAccess_cases sz w off d with ⟨-, h⟩ | ⟨⟨rfl, -⟩, -, h⟩ | ⟨rfl, read, write, hreg, h⟩ <;> rw [h]
  · exact ⟨0, rfl⟩
  · exact ⟨0, rfl⟩
  · cases w
    · exact ⟨0, hreg.encode_read⟩
    · exact ⟨d, hreg.encode_write d⟩

theorem decodeAccess_accessError_iff (sz : BitVec 2) (w : Bool) (off : BitVec 12) (d : Word) :
    (∃ z v o, decodeAccess (descriptor sz w off) d = .accessError z v o) ↔ ¬ (sz = 2 ∧ off.toNat % 4 = 0) := by
  rcases decodeAccess_cases sz w off d with ⟨herror, h⟩ | ⟨haligned, -, h⟩ | ⟨hsz, read, write, hreg, h⟩ <;> rw [h]
  · exact ⟨fun _ => herror, fun _ => ⟨_, _, _, rfl⟩⟩
  · exact ⟨nofun, fun hn => absurd haligned hn⟩
  · exact ⟨fun ⟨_, _, _, heq⟩ => absurd heq (hreg.ne_accessError _ _ _ _ _),
      fun hn => absurd ⟨hsz, hreg.aligned_not_reserved.1⟩ hn⟩

theorem decodeAccess_rsvd_iff (sz : BitVec 2) (w : Bool) (off : BitVec 12) (d : Word) :
    (∃ v o, decodeAccess (descriptor sz w off) d = .rsvd v o) ↔
      (sz = 2 ∧ off.toNat % 4 = 0) ∧ reservedOffset off = true := by
  rcases decodeAccess_cases sz w off d with ⟨herror, h⟩ | ⟨haligned, hres, h⟩ | ⟨-, read, write, hreg, h⟩ <;> rw [h]
  · exact ⟨nofun, fun hr => absurd hr.1 herror⟩
  · exact ⟨fun _ => ⟨haligned, hres⟩, fun _ => ⟨_, _, rfl⟩⟩
  · exact ⟨fun ⟨_, _, heq⟩ => absurd heq (hreg.ne_rsvd _ _ _ _),
      fun hr => absurd hr.2 hreg.aligned_not_reserved.2⟩

/-- A write of a register keeps its data value. -/
theorem encode_decodeAccess_write {off : BitVec 12} (haligned : off.toNat % 4 = 0)
    (hres : ¬ reservedOffset off = true) (d : Word) :
    encode (decodeAccess (descriptor 2 true off) d) = encodeAccess (descriptor 2 true off) d := by
  obtain ⟨read, write, hreg⟩ := (reservedOffset_or_registerAt haligned).resolve_left hres
  rw [hreg.decodeAccess_eq]
  exact hreg.encode_write d

/-- Settles O4: the descriptor is taken apart into its fields, and each clause is one of the meanings. -/
theorem accessDescriptorsHaveOneMeaning : Obligations.AccessDescriptorsHaveOneMeaning := by
  intro had d
  obtain ⟨d', hencode⟩ := exists_encode_decodeAccess had d
  obtain ⟨hlen, hlow, -⟩ := encodeAccess_fields had d'
  rw [← hencode] at hlen hlow
  obtain ⟨sz, w, off, rfl⟩ := exists_descriptor had
  obtain ⟨hsz, hw, hoff⟩ := descriptor_fields sz w off
  have hsz2 : sz.toNat = 2 ↔ sz = 2 := BitVec.toNat_inj (y := 2)
  simp only [hsz, hw, hoff, hsz2, ← reservedOffset_iff]
  refine ⟨hlen, hlow, decodeAccess_accessError_iff sz w off d, decodeAccess_rsvd_iff sz w off d, ?_⟩
  rintro ⟨rfl, haligned⟩ hres hwrite
  obtain rfl : w = true := Bool.toNat_eq_one.mp hwrite
  rw [encode_decodeAccess_write haligned hres]
  exact (encodeAccess_fields _ d).2.2

/-- Settles O5: the decoder runs on each of the ten words. -/
theorem encodedWordsDecode : Obligations.EncodedWordsDecode := by
  refine ⟨?_, ?_, ?_, ?_, ?_, ?_, ?_, ?_, ?_, ?_⟩ <;> decide

end Sys2Proof.Machine
end

section
/-! SUPPORT and O32. The big-endian reading of a byte string taken apart into its bytes again (R11), and the completion of
`CHAIN` (R180 to R182). -/

namespace Sys2Proof.Machine

/-! Bytes of a big-endian number (R11). -/

theorem intBe_concat (b : List Byte) (x : Byte) : intBe (b ++ [x]) = intBe b * 256 + x.toNat := by
  rw [intBe, List.foldl_append, List.foldl_cons, List.foldl_nil, intBe]

/-- The digit of weight `256 ^ k` is the byte that `k` others follow. -/
theorem intBe_digit (b : List Byte) {j k : Nat} (h : j + k + 1 = b.length) :
    intBe b / 2 ^ (8 * k) % 2 ^ 8 = (b[j]'(by omega)).toNat := by
  induction b using List.reverseRecOn generalizing k with
  | nil => simp at h
  | append_singleton b x ih =>
    rw [List.length_append, List.length_singleton] at h
    have hx := x.isLt
    rw [intBe_concat]
    cases k with
    | zero =>
      obtain rfl : j = b.length := by omega
      rw [List.getElem_concat_length rfl]
      omega
    | succ k =>
      have hpow : 2 ^ (8 * (k + 1)) = 2 ^ 8 * 2 ^ (8 * k) := by rw [← Nat.pow_add, Nat.mul_succ, Nat.add_comm]
      have hhead : (intBe b * 256 + x.toNat) / 2 ^ 8 = intBe b := by omega
      rw [List.getElem_append_left (by omega), hpow, ← Nat.div_div_eq_div_mul, hhead]
      exact ih (by omega)

/-- A byte of a big-endian number that fits its register, read as a field of that register. -/
theorem extractLsb'_intBe {w : Nat} (b : List Byte) (hw : 8 * b.length ≤ w) {j k : Nat} (h : j + k + 1 = b.length) :
    (BitVec.ofNat w (intBe b)).extractLsb' (8 * k) 8 = b[j]'(by omega) := by
  have hfield : (BitVec.ofNat w (intBe b)).extractLsb' (8 * k) 8 = .ofNat 8 (intBe b >>> (8 * k)) := by
    refine BitVec.eq_of_getLsbD_eq fun i hi => ?_
    simp only [BitVec.getLsbD_extractLsb', BitVec.getLsbD_ofNat, Nat.testBit_shiftRight]
    rw [decide_eq_true (p := 8 * k + i < w) (by omega), Bool.true_and]
  rw [hfield, ← BitVec.toNat_inj, BitVec.toNat_ofNat, Nat.shiftRight_eq_div_pow, intBe_digit b h]

/-! The seed of a chain. -/

/-- The digest as the seven primitives in order, with the parameters of the spec (R180, R167, R168). -/
theorem chainDigest_eq (saltScrypt saltPbkdf2 x : List Byte) :
    chainDigest saltScrypt saltPbkdf2 x =
      sha256 (sha512 (pbkdf2
        (scrypt (shake256 (sha3_512 ((fun y => sha512 (sha256 y))^[16] x)) 64) saltScrypt (2 ^ 14) 8 1 64)
        saltPbkdf2 100000 32)) := by
  rw [chainDigest, hashPairs_eq_iterate, kdfMem, kdfPw]

@[simp] theorem chainDigest_length (saltScrypt saltPbkdf2 x : List Byte) :
    (chainDigest saltScrypt saltPbkdf2 x).length = 32 := by
  rw [chainDigest_eq, sha256_length]

/-- Byte j of the digest is byte j of the seed from the top (R181). -/
theorem chainDigest_getElem? (x : List Byte) {j : Nat} (hj : j < 32) :
    (chainDigest Config.saltScrypt Config.saltPbkdf2 x)[j]? =
      some ((chainSeed x).extractLsb' (8 * (31 - j)) 8) := by
  have hlen := chainDigest_length Config.saltScrypt Config.saltPbkdf2 x
  rw [chainSeed, extractLsb'_intBe _ (by omega) (j := j) (by omega)]
  exact List.getElem?_eq_getElem _

/-! The completion. -/

/-- A running `CHAIN` that reads its whole input completes with the effect on that input (R303). -/
theorem exec_chain_stable {s : State} {r : Running} {x : List Byte} (hrun : s.cur = some r) (hop : r.op = .chain)
    (hstable : s.stableInput r x) (hlen : x.length = r.args.inLen.toNat) :
    exec .chain s = .next { s with
      int := { s.int with seed := chainSeed x, seedV := true, lat := [], latV := false }
      cur := none, done := true, err := .ok, fresh := s.fresh + x.length } := by
  have hcount : inputCount .chain r.args = x.length := hlen.symm
  have hexec : exec .chain s = s.command .chain fun r =>
    s.completeReading (inputCount .chain r.args) (chainEffect (s.input r (inputCount .chain r.args)) s.int) := rfl
  rw [hexec, State.command_running hrun hop, hcount, State.input_of_stable hstable, chainEffect_ok_eq x s.int rfl]
  rfl

/-- Settles O32: the seed is `chainSeed x`, whose bytes are those of the chain's digest. -/
theorem chainCompletes : Obligations.ChainCompletes := by
  intro s r x hrun hop hstable hlen
  refine ⟨chainSeed x, fun j hj => ?_, exec_chain_stable hrun hop hstable hlen⟩
  rw [← chainDigest_eq]
  exact chainDigest_getElem? x hj

end Sys2Proof.Machine
end

section
/-! SUPPORT, O34, O56 and O57. The twist word by word (R204), the first accepted output of a draw (R206), and the
completion of `GEN` (R211). -/

namespace Sys2Proof.Machine

/-! The twist. -/

/-- Word k after its step of the twist: its top bit and the low bits of the next word, shifted, on a word 397 further. -/
def twistWord (w next far : Word) : Word :=
  let y := (w &&& 0x80000000) ||| (next &&& 0x7FFFFFFF)
  far ^^^ y >>> 1 ^^^ (if y.getLsbD 0 then 0x9908B0DF else 0)

theorem and_one_eq_one_iff (y : Word) : y &&& 1 = 1 ↔ y.getLsbD 0 = true := by
  rw [← BitVec.toNat_inj, BitVec.toNat_and, BitVec.getLsbD, Nat.testBit_zero, decide_eq_true_iff]
  exact Eq.congr_left (Nat.and_one_is_mod _)

/-- A step of the twist writes its word and leaves the others. -/
theorem getD_twistStep (mt : List Word) (k i : Nat) (hk : k < mt.length) :
    (twistStep mt k).getD i 0 = if k = i then
      twistWord (mt.getD k 0) (mt.getD ((k + 1) % 624) 0) (mt.getD ((k + 397) % 624) 0) else mt.getD i 0 := by
  simp only [twistStep, twistWord, and_one_eq_one_iff, List.getD_eq_getElem?_getD, List.getElem?_set]
  by_cases h : k = i
  · rw [if_pos h, if_pos h, if_pos hk, Option.getD_some]
  · rw [if_neg h, if_neg h]

/-- The words after the first `n` steps of the twist. -/
def twistedTo (mt : List Word) (n : Nat) : List Word := (List.range n).foldl twistStep mt

theorem Generator.twist_words (g : Generator) : g.twist.words = twistedTo g.words 624 := by
  unfold Generator.twist
  dsimp only
  rw [twistedTo]

theorem twistedTo_succ (mt : List Word) (n : Nat) : twistedTo mt (n + 1) = twistStep (twistedTo mt n) n := by
  rw [twistedTo, List.range_succ, List.foldl_append, List.foldl_cons, List.foldl_nil, twistedTo]

@[simp] theorem twistedTo_length (mt : List Word) (n : Nat) : (twistedTo mt n).length = mt.length :=
  foldl_twistStep_length _ _

/-- A word whose step is still to come is the old one. -/
theorem getD_twistedTo_of_le {mt : List Word} {n i : Nat} (hn : n ≤ mt.length) (hi : n ≤ i) :
    (twistedTo mt n).getD i 0 = mt.getD i 0 := by
  induction n with
  | zero => rfl
  | succ n ih =>
    rw [twistedTo_succ, getD_twistStep _ _ _ (by rw [twistedTo_length]; omega), if_neg (by omega),
      ih (by omega) (by omega)]

/-- A word whose step is over stays. -/
theorem getD_twistedTo_of_lt {mt : List Word} {n i : Nat} (hn : n ≤ mt.length) (hi : i < n) :
    (twistedTo mt n).getD i 0 = (twistedTo mt (i + 1)).getD i 0 := by
  induction n, hi using Nat.le_induction with
  | base => rfl
  | succ n hle ih =>
    rw [twistedTo_succ, getD_twistStep _ _ _ (by rw [twistedTo_length]; omega), if_neg (by omega), ih (by omega)]

/-- Step k reads old words from k on and new words below k. -/
theorem getD_twistedTo_self {mt : List Word} (hmt : mt.length = 624) {k : Nat} (hk : k < 624) :
    (twistedTo mt 624).getD k 0 = twistWord (mt.getD k 0)
      (if k = 623 then (twistedTo mt 624).getD 0 0 else mt.getD (k + 1) 0)
      (if k < 227 then mt.getD (k + 397) 0 else (twistedTo mt 624).getD (k - 227) 0) := by
  have hold : ∀ i, k ≤ i → (twistedTo mt k).getD i 0 = mt.getD i 0 := fun i hi =>
    getD_twistedTo_of_le (by omega) hi
  have hnew : ∀ i, i < k → (twistedTo mt k).getD i 0 = (twistedTo mt 624).getD i 0 := fun i hi =>
    (getD_twistedTo_of_lt (by omega) hi).trans (getD_twistedTo_of_lt hmt.ge (by omega)).symm
  rw [getD_twistedTo_of_lt hmt.ge hk, twistedTo_succ, getD_twistStep _ _ _ (by rw [twistedTo_length]; omega),
    if_pos rfl, hold k le_rfl]
  congr 1
  · split
    · next h => rw [h, ← hnew 0 (by omega), h]
    · next h => rw [Nat.mod_eq_of_lt (by omega), hold _ (by omega)]
  · split
    · next h => rw [Nat.mod_eq_of_lt (by omega), hold _ (by omega)]
    · next h => rw [show (k + 397) % 624 = k - 227 by omega, hnew _ (by omega)]

/-- Settles O56: the steps run in ascending order, so step k finds the words below k new and the others old. -/
theorem twistRecurrence : Obligations.TwistRecurrence := by
  intro g hg
  refine ⟨g.twist_length.trans hg, g.twist_index, fun k hk => ?_⟩
  rw [g.twist_words]
  exact getD_twistedTo_self hg hk

/-! A bounded draw. -/

/-- The bits that a draw keeps are a quotient: `32 - bitlen n` is 28 for draws of 8 and 23 for draws of 256 (R206). -/
theorem topBits_eq_div (x : Word) {n shift : Nat} (h : (n, shift) ∈ [(8, 28), (256, 23)]) :
    (x >>> (32 - bitlen n)).toNat = x.toNat / 2 ^ shift := by
  have hshift : 32 - bitlen n = shift := by
    simp only [List.mem_cons, Prod.mk.injEq, List.not_mem_nil, or_false] at h
    obtain ⟨rfl, rfl⟩ | ⟨rfl, rfl⟩ := h <;> decide +kernel
  rw [hshift, BitVec.toNat_ushiftRight, Nat.shiftRight_eq_div_pow]

/-- One try of a draw (R206). -/
theorem Generator.drawWithin_succ {n shift : Nat} (hn : (n, shift) ∈ [(8, 28), (256, 23)]) (tries : Nat) (g : Generator) :
    g.drawWithin n (tries + 1) = if g.u32.1.toNat / 2 ^ shift < n then (g.u32.1.toNat / 2 ^ shift, g.u32.2)
      else g.u32.2.drawWithin n tries := by
  simp only [Generator.drawWithin, topBits_eq_div _ hn]

/-- `k` rejected outputs and an accepted one, within any sufficient number of tries. -/
theorem Generator.drawWithin_first_accepted {n shift k tries : Nat} (hn : (n, shift) ∈ [(8, 28), (256, 23)])
    (htries : k < tries) (g : Generator)
    (hrejected : ∀ j < k, n ≤ ((fun h : Generator => h.u32.2)^[j] g).u32.1.toNat / 2 ^ shift)
    (haccepted : ((fun h : Generator => h.u32.2)^[k] g).u32.1.toNat / 2 ^ shift < n) :
    g.drawWithin n tries = (((fun h : Generator => h.u32.2)^[k] g).u32.1.toNat / 2 ^ shift,
      (fun h : Generator => h.u32.2)^[k + 1] g) := by
  induction k generalizing g tries with
  | zero =>
    obtain ⟨tries, rfl⟩ := Nat.exists_eq_add_of_lt htries
    rw [Nat.zero_add, drawWithin_succ hn]
    exact if_pos haccepted
  | succ k ih =>
    obtain ⟨tries, rfl⟩ := Nat.exists_eq_add_one_of_ne_zero (Nat.ne_zero_of_lt htries)
    have hfirst : ¬ g.u32.1.toNat / 2 ^ shift < n := Nat.not_lt.mpr (hrejected 0 k.succ_pos)
    rw [drawWithin_succ hn, if_neg hfirst]
    exact ih (by omega) g.u32.2 (fun j hj => hrejected (j + 1) (by omega)) haccepted

/-- Settles O57: the draw is the first accepted output, since the tries of the model suffice. -/
theorem drawIsFirstAccepted : Obligations.DrawIsFirstAccepted :=
  fun g _ _ _ hn hk hrejected haccepted => Generator.drawWithin_first_accepted hn hk g hrejected haccepted

/-! The completion of `GEN`. -/

theorem exec_gen_running {s : State} {r : Running} (hrun : s.cur = some r) (hop : r.op = .gen) :
    exec .gen s = .next { s with
      int := { s.int with
        lat := (drawCells latSize 0 s.int.mt).1, mt := (fun g : Generator => (g.draw 256).2)^[latSize] s.int.mt
        latV := true }
      cur := none, done := true, err := .ok } := by
  have hexec : exec .gen s = s.command .gen fun _ => s.completeWith (genEffect s.int) := rfl
  rw [hexec, State.command_running hrun hop, genEffect_eq s.int rfl (drawCells_generator latSize 0 s.int.mt)]
  rfl

/-- Settles O34: the fill is `drawCells`, whose cells are the draws in order. -/
theorem genCompletes : Obligations.GenCompletes := by
  intro s r hrun hop after
  refine ⟨(drawCells latSize 0 s.int.mt).1, fun x => ?_, ?_⟩
  · rw [read_drawCells, Nat.zero_add, Nat.sub_zero, latSize_eq]
    simp only [Nat.zero_le, true_and, after]
  · rw [exec_gen_running hrun hop, ← latSize_eq]

end Sys2Proof.Machine
end

section
/-! SUPPORT and O33. The key of a seed as its digits (R202), the seeding of the generator as recurrences (R201, R203), and
the completion of `RNGSEED` (R210). -/

namespace Sys2Proof.Machine

/-! The key. -/

/-- The number that a key reads as, least significant word first (R202). -/
def keyValue (key : List Word) : Nat := key.foldr (fun k rest => k.toNat + 2 ^ 32 * rest) 0

theorem keyValue_eq_ofDigits (key : List Word) : keyValue key = Nat.ofDigits (2 ^ 32) (key.map BitVec.toNat) := by
  rw [Nat.ofDigits_eq_foldr, List.foldr_map]
  rfl

/-- A key without a leading zero word is the digits of its value. -/
theorem digits_keyValue {key : List Word} (hlast : key.getLast? ≠ some 0) :
    Nat.digits (2 ^ 32) (keyValue key) = key.map BitVec.toNat := by
  rw [keyValue_eq_ofDigits]
  refine Nat.digits_ofDigits _ (by omega) _ ?_ fun hne hzero => hlast ?_
  · simpa using fun w _ => w.isLt
  · rw [List.getLast_map] at hzero
    rw [List.getLast?_eq_some_getLast (by simpa using hne), BitVec.eq_of_toNat_eq (y := 0) hzero]

/-- A word of a key is a field of its value. -/
theorem key_getElem_toNat {key : List Word} (hlast : key.getLast? ≠ some 0) {j : Nat} (hj : j < key.length) :
    key[j].toNat = keyValue key / 2 ^ (32 * j) % 2 ^ 32 := by
  rw [Nat.pow_mul, ← Nat.getD_digits _ _ (by omega), digits_keyValue hlast,
    List.getD_eq_getElem _ _ (by simpa using hj), List.getElem_map]

theorem log_two_pow (k n : Nat) (hk : 0 < k) (hn : n ≠ 0) : Nat.log (2 ^ k) n = n.log2 / k := by
  have hdiv : k * (n.log2 / k) ≤ n.log2 := Nat.mul_div_le _ _
  have hlt : n.log2 + 1 ≤ k * (n.log2 / k + 1) := Nat.lt_mul_div_succ _ hk
  rw [Nat.log_eq_iff (.inr ⟨Nat.one_lt_two_pow hk.ne', hn⟩), ← Nat.pow_mul, ← Nat.pow_mul]
  exact ⟨(Nat.pow_le_pow_right (by omega) hdiv).trans (Nat.log2_self_le hn),
    Nat.lt_log2_self.trans_le (Nat.pow_le_pow_right (by omega) hlt)⟩

theorem keyValue_ne_zero {key : List Word} (hne : key ≠ []) (hlast : key.getLast? ≠ some 0) : keyValue key ≠ 0 := by
  intro hzero
  have hdigits := digits_keyValue hlast
  rw [hzero, Nat.digits_zero] at hdigits
  exact hne (List.map_eq_nil_iff.mp hdigits.symm)

/-- The number of words of a key, by the bits of its value. -/
theorem key_length {key : List Word} (hne : key ≠ []) (hlast : key.getLast? ≠ some 0) :
    key.length = (keyValue key).log2 / 32 + 1 := by
  have hzero := keyValue_ne_zero hne hlast
  have hlen := congrArg List.length (digits_keyValue hlast)
  rwa [List.length_map, Nat.length_digits _ _ (by omega) hzero, log_two_pow 32 _ (by omega) hzero, eq_comm] at hlen

/-- The words of a seed, least significant first and without leading zero words, are its key (R202). -/
theorem keyOf_eq {seed : BitVec 256} {key : List Word} (hvalue : keyValue key = seed.toNat) (hne : key ≠ [])
    (hlast : key.length ≠ 1 → key.getLast? ≠ some 0) : keyOf seed = key := by
  by_cases h : key.getLast? = some 0
  · obtain ⟨w, rfl⟩ := List.length_eq_one_iff.mp (not_imp_comm.mp hlast (not_not.mpr h))
    obtain rfl : w = 0 := by simpa using h
    obtain rfl : seed = 0 := BitVec.eq_of_toNat_eq hvalue.symm
    decide +kernel
  · have hzero := keyValue_ne_zero hne h
    have hseed : seed ≠ 0 := fun h0 => hzero (by rw [hvalue, h0]; rfl)
    have hcount : (bitlen seed.toNat - 1) / 32 + 1 = key.length := by
      rw [key_length hne h, bitlen, ← hvalue, if_neg hzero, Nat.add_sub_cancel]
    rw [keyOf, if_neg hseed, hcount]
    refine List.ext_getElem (by simp) fun j hj hj' => BitVec.eq_of_toNat_eq ?_
    rw [List.getElem_map, List.getElem_range, BitVec.extractLsb'_toNat, Nat.shiftRight_eq_div_pow, ← hvalue,
      key_getElem_toNat h hj']

/-- A seed of 256 bits has at most 8 words. -/
theorem keyOf_length_le (seed : BitVec 256) : (keyOf seed).length ≤ 8 := by
  rw [keyOf, List.length_map, List.length_range]
  split
  · decide
  · next h =>
    have hzero : seed.toNat ≠ 0 := fun h0 => h (BitVec.eq_of_toNat_eq h0)
    have hlog : seed.toNat.log2 < 256 := (Nat.log2_lt hzero).mpr seed.isLt
    rw [bitlen, if_neg hzero]
    omega

/-! Tables of words. -/

/-- The 624 words of a generator, by their indices (R42). -/
def wordTable (w : Nat → Word) : List Word := (List.range 624).map w

theorem getD_wordTable (w : Nat → Word) {i : Nat} (hi : i < 624) : (wordTable w).getD i 0 = w i := by
  rw [wordTable, List.getD_eq_getElem _ _ (by simpa using hi), List.getElem_map, List.getElem_range]

theorem set_wordTable (w : Nat → Word) (i : Nat) (x : Word) :
    (wordTable w).set i x = wordTable (Function.update w i x) := by
  refine List.ext_getElem (by simp [wordTable]) fun j hj hj' => ?_
  simp only [wordTable, List.getElem_set, List.getElem_map, List.getElem_range, Function.update_apply, eq_comm (a := i)]

/-- A pass over the words 1 to 623, before its round at index i: new words below i, old ones from i on. -/
def passTable (i : Nat) (new old : Nat → Word) : List Word := wordTable fun p => if p < i then new p else old p

theorem passTable_one (new old : Nat → Word) : passTable 1 new old = wordTable (Function.update old 0 (new 0)) := by
  rw [passTable]
  congr 1
  funext p
  by_cases hp : p = 0
  · rw [hp, Function.update_self, if_pos Nat.zero_lt_one]
  · rw [Function.update_of_ne hp, if_neg (by omega)]

theorem set_passTable {i : Nat} (new old : Nat → Word) :
    (passTable i new old).set i (new i) = passTable (i + 1) new old := by
  rw [passTable, set_wordTable, passTable]
  congr 1
  funext p
  by_cases hp : p = i
  · rw [hp, Function.update_self, if_pos (Nat.lt_succ_self i)]
  · rw [Function.update_of_ne hp]
    exact if_congr (by omega) rfl rfl

theorem passTable_last (new old : Nat → Word) : passTable 624 new old = wordTable new :=
  List.map_congr_left fun _ hp => if_pos (List.mem_range.mp hp)

/-! The rounds of the seeding. -/

/-- What both loops do at index `i`: a new word from the word there and the word before it, then the next index (R203). -/
def seedRound (f : Word → Word → Word) (mt : List Word) (i : Nat) : List Word × Nat :=
  wrapIndex (mt.set i (f (mt.getD i 0) (mt.getD (i - 1) 0))) (i + 1)

/-- The word of round `m` of the first loop (R203). -/
def keyWord (key : List Word) (m : Nat) (w prev : Word) : Word :=
  (w ^^^ (prev ^^^ prev >>> 30) * 1664525) + (key.getD (m % key.length) 0 + .ofNat 32 (m % key.length))

/-- The word of the second loop at index `i` (R203). -/
def indexWord (i : Nat) (w prev : Word) : Word := (w ^^^ (prev ^^^ prev >>> 30) * 1566083941) - .ofNat 32 i

/-- A round inside a pass. -/
theorem seedRound_passTable {f : Word → Word → Word} {i : Nat} {new old : Nat → Word} (hpos : 0 < i) (hi : i < 624)
    (hnew : new i = f (old i) (new (i - 1))) :
    seedRound f (passTable i new old) i = wrapIndex (passTable (i + 1) new old) (i + 1) := by
  rw [seedRound, passTable, getD_wordTable _ hi, getD_wordTable _ (by omega), if_neg (lt_irrefl i),
    if_pos (by omega), ← hnew, ← passTable, set_passTable]

theorem wrapIndex_passTable_lt {i : Nat} (hi : i < 624) (new old : Nat → Word) :
    wrapIndex (passTable i new old) i = (passTable i new old, i) := if_neg (by omega)

/-- The wrap begins the next pass, whose word 0 is the last word of this one. -/
theorem wrapIndex_passTable_last {new old next : Nat → Word} (hnext : next 0 = new 623) :
    wrapIndex (passTable 624 new old) 624 = (passTable 1 next new, 1) := by
  rw [wrapIndex, if_pos le_rfl, passTable_last, getD_wordTable _ (by omega), set_wordTable, passTable_one, hnext]

/-- The counter of the key's words goes round the key (R203). -/
theorem keyCounter_succ {l : Nat} (hl : 0 < l) (m : Nat) :
    (if l ≤ m % l + 1 then 0 else m % l + 1) = (m + 1) % l := by
  have hm := Nat.mod_lt m hl
  rw [← Nat.mod_add_mod]
  split
  · next h => rw [show m % l + 1 = l by omega, Nat.mod_self]
  · next h => rw [Nat.mod_eq_of_lt (a := m % l + 1) (by omega)]

theorem mixKey_succ {key : List Word} (hkey : key ≠ []) (n m : Nat) (mt : List Word) (i : Nat) :
    mixKey key (n + 1) mt i (m % key.length) =
      mixKey key n (seedRound (keyWord key m) mt i).1 (seedRound (keyWord key m) mt i).2 ((m + 1) % key.length) := by
  rw [← keyCounter_succ (List.length_pos_of_ne_nil hkey)]
  simp only [mixKey, seedRound, keyWord, BitVec.add_assoc]

theorem mixIndex_succ (n : Nat) (mt : List Word) (i : Nat) :
    mixIndex (n + 1) mt i = mixIndex n (seedRound (indexWord i) mt i).1 (seedRound (indexWord i) mt i).2 := rfl

/-- Rounds of the first loop inside a pass. -/
theorem mixKey_passTable {key : List Word} (hkey : key ≠ []) {new old : Nat → Word} (n : Nat) {k : Nat} (hk : k < 623)
    (hnew : ∀ i < k, new (i + 1) = keyWord key i (old (i + 1)) (new i)) :
    mixKey key (n + k) (passTable 1 new old) 1 0 =
      mixKey key n (passTable (k + 1) new old) (k + 1) (k % key.length) := by
  induction k generalizing n with
  | zero => rw [Nat.zero_mod]; rfl
  | succ k ih =>
    rw [← Nat.add_assoc, Nat.add_right_comm, ih (n + 1) (by omega) fun i hi => hnew i (by omega), mixKey_succ hkey,
      seedRound_passTable k.succ_pos (by omega) (hnew k k.lt_succ_self), wrapIndex_passTable_lt (by omega)]

/-- Rounds of the second loop inside a pass that begins at word 2. -/
theorem mixIndex_passTable {new old : Nat → Word} (n : Nat) {k : Nat} (hk : k < 622)
    (hnew : ∀ i < k, new (i + 2) = indexWord (i + 2) (old (i + 2)) (new (i + 1))) :
    mixIndex (n + k) (passTable 2 new old) 2 = mixIndex n (passTable (k + 2) new old) (k + 2) := by
  induction k generalizing n with
  | zero => rfl
  | succ k ih =>
    rw [← Nat.add_assoc, Nat.add_right_comm n, ih (n + 1) (by omega) fun i hi => hnew i (by omega), mixIndex_succ,
      seedRound_passTable (by omega) (by omega) (hnew k k.lt_succ_self), wrapIndex_passTable_lt (by omega)]

/-! The seeding. -/

/-- The words of `init_by_array` as recurrences: g those of `init_genrand`, a those of the first pass of the first loop,
and c those of its last round and of the second loop (R201, R203). Word 0 of c is the wrap's. -/
structure SeedWords (key : List Word) (g a c : Nat → Word) : Prop where
  genrand_zero : g 0 = 19650218
  genrand_succ : ∀ i, g (i + 1) = 1812433253 * (g i ^^^ g i >>> 30) + .ofNat 32 (i + 1)
  first_zero : a 0 = g 0
  first_succ : ∀ i, a (i + 1) = keyWord key i (g (i + 1)) (a i)
  second_zero : c 0 = a 623
  second_one : c 1 = keyWord key 623 (a 1) (c 0)
  second_succ : ∀ i, 1 ≤ i → c (i + 1) = indexWord (i + 1) (a (i + 1)) (c i)

theorem exists_recurrence (w : Word) (f : Nat → Word → Word) :
    ∃ u : Nat → Word, u 0 = w ∧ ∀ i, u (i + 1) = f i (u i) :=
  ⟨fun n => n.rec w f, rfl, fun _ => rfl⟩

theorem exists_seedWords (key : List Word) : ∃ g a c, SeedWords key g a c := by
  obtain ⟨g, hg0, hg⟩ := exists_recurrence 19650218 fun i w => 1812433253 * (w ^^^ w >>> 30) + .ofNat 32 (i + 1)
  obtain ⟨a, ha0, ha⟩ := exists_recurrence (g 0) fun i => keyWord key i (g (i + 1))
  obtain ⟨c, hc0, hc⟩ := exists_recurrence (a 623) fun i =>
    if i = 0 then keyWord key 623 (a 1) else indexWord (i + 1) (a (i + 1))
  refine ⟨g, a, c, hg0, hg, ha0, ha, hc0, hc 0, fun i hi => ?_⟩
  rw [hc, if_neg (by omega)]

/-- `n` words of `init_genrand` after word `i` (R201). -/
theorem genrandWords_eq_map {g : Nat → Word} (hg : ∀ i, g (i + 1) = 1812433253 * (g i ^^^ g i >>> 30) + .ofNat 32 (i + 1))
    (n i : Nat) : genrandWords n (i + 1) (g i) = (List.range' (i + 1) n).map g := by
  induction n generalizing i with
  | zero => rfl
  | succ n ih => rw [genrandWords, ← hg, ih, List.range'_succ, List.map_cons]

namespace SeedWords

variable {key : List Word} {g a c : Nat → Word}

theorem initGenrand_eq (h : SeedWords key g a c) : initGenrand 19650218 = passTable 1 a g := by
  rw [passTable_one, h.first_zero, Function.update_eq_self, initGenrand, ← h.genrand_zero,
    genrandWords_eq_map h.genrand_succ, wordTable, List.range_eq_range', List.range'_succ (s := 0) (n := 623), List.map_cons]

/-- The first loop: a pass, the wrap, and a round on word 1. -/
theorem mixKey_eq (h : SeedWords key g a c) (hkey : key ≠ []) :
    mixKey key 624 (initGenrand 19650218) 1 0 = (passTable 2 c a, 2) := by
  rw [h.initGenrand_eq, mixKey_passTable hkey 2 (k := 622) (by omega) fun i _ => h.first_succ i, mixKey_succ hkey,
    seedRound_passTable (by omega) (by omega) (h.first_succ 622), wrapIndex_passTable_last h.second_zero,
    mixKey_succ hkey, seedRound_passTable (by omega) (by omega) h.second_one, wrapIndex_passTable_lt (by omega),
    mixKey]

/-- The second loop: the rest of the pass, the wrap, and a round on word 1 again. -/
theorem mixIndex_eq (h : SeedWords key g a c) {d : Nat → Word} (hd0 : d 0 = c 623) (hd1 : d 1 = indexWord 1 (c 1) (d 0)) :
    mixIndex 623 (passTable 2 c a) 2 = passTable 2 d c := by
  rw [mixIndex_passTable 2 (k := 621) (by omega) fun i _ => h.second_succ (i + 1) (by omega), mixIndex_succ,
    seedRound_passTable (by omega) (by omega) (h.second_succ 622 (by omega)), wrapIndex_passTable_last hd0,
    mixIndex_succ, seedRound_passTable (by omega) (by omega) hd1, wrapIndex_passTable_lt (by omega), mixIndex]

theorem set_zero_passTable_two (x : Word) (new old : Nat → Word) :
    (passTable 2 new old).set 0 x = x :: new 1 :: (List.range' 2 622).map old := by
  rw [passTable, wordTable, List.range_eq_range', List.range'_succ, List.range'_succ, List.map_cons, List.map_cons,
    List.set_cons_zero, List.map_congr_left fun p hp => if_neg (by have := List.mem_range'_1.mp hp; omega)]
  rfl

/-- The generator of a key of at most 624 words (R203). -/
theorem initByArray_eq (h : SeedWords key g a c) (hkey : key ≠ []) (hlen : key.length ≤ 624) :
    initByArray key =
      ⟨0x80000000 :: indexWord 1 (c 1) (c 623) :: (List.range' 2 622).map c, 624⟩ := by
  have hmix := h.mixIndex_eq (d := fun p => if p = 0 then c 623 else indexWord 1 (c 1) (c 623)) rfl rfl
  unfold initByArray
  dsimp only
  rw [Nat.max_eq_left hlen, h.mixKey_eq hkey, hmix, set_zero_passTable_two]
  rfl

end SeedWords

/-! The completion of `RNGSEED`. -/

theorem exec_rngseed_running {s : State} {r : Running} (hrun : s.cur = some r) (hop : r.op = .rngseed) {mt : Generator}
    (hmt : initByArray (keyOf r.args.seed) = mt) :
    exec .rngseed s = .next { s with
      int := { s.int with mt := mt, prngV := true }, cur := none, done := true, err := .ok } := by
  have hexec : exec .rngseed s = s.command .rngseed fun r => s.completeWith (rngseedEffect r.args.seed s.int) := rfl
  rw [hexec, State.command_running hrun hop, rngseedEffect_eq _ _ hmt]
  rfl

/-- Settles O33: the key is the seed's, and the words are those of the recurrences pass by pass. -/
theorem rngseedCompletes : Obligations.RngseedCompletes := by
  intro s r key hrun hop hvalue hne hlast mix keyTerm
  obtain ⟨g, a, c, h⟩ := exists_seedWords key
  have hkey : keyOf r.args.seed = key := keyOf_eq hvalue hne hlast
  have hlen : key.length ≤ 8 := hkey ▸ keyOf_length_le _
  refine ⟨g, a, c, h.genrand_zero, fun i _ => h.genrand_succ i, h.first_zero, fun i _ => h.first_succ i, ?_,
    fun i _ => h.second_succ i, exec_rngseed_running hrun hop ?_⟩
  · rw [h.second_one, h.second_zero]
    rfl
  · rw [hkey, h.initByArray_eq hne (by omega)]
    rfl

end Sys2Proof.Machine
end

section
/-! SUPPORT, O35, O42 and O55. The flat index as a base-8 number whose digits are the coordinates (R230 to R232), and
the completions of `LOAD` and `LATZERO` (R235, R236). -/

namespace Sys2Proof.Machine

/-! The flat index of any number of coordinates (R230). -/

theorem flat_concat (l : List Nat) (x : Nat) : flat (l ++ [x]) = flat l * 8 + x := by
  rw [flat, List.foldl_append, List.foldl_cons, List.foldl_nil, flat]

theorem flat_lt {l : List Nat} (hl : ∀ x ∈ l, x < 8) : flat l < 8 ^ l.length := by
  induction l using List.reverseRecOn with
  | nil => exact Nat.one_pos
  | append_singleton l x ih =>
    have hx : x < 8 := hl x (by simp)
    have hhead := ih fun y hy => hl y (List.mem_append_left _ hy)
    rw [flat_concat, List.length_append, List.length_singleton, Nat.pow_succ]
    omega

/-- The base-8 digit of weight `8 ^ k` is the coordinate that `k` others follow. -/
theorem flat_digit {l : List Nat} (hl : ∀ x ∈ l, x < 8) {j k : Nat} (h : j + k + 1 = l.length) :
    flat l / 8 ^ k % 8 = l[j]'(by omega) := by
  induction l using List.reverseRecOn generalizing k with
  | nil => simp at h
  | append_singleton l x ih =>
    rw [List.length_append, List.length_singleton] at h
    have hx : x < 8 := hl x (by simp)
    rw [flat_concat]
    cases k with
    | zero =>
      obtain rfl : j = l.length := by omega
      rw [List.getElem_concat_length rfl]
      omega
    | succ k =>
      have hhead : (flat l * 8 + x) / 8 = flat l := by omega
      rw [List.getElem_append_left (by omega), Nat.pow_succ', ← Nat.div_div_eq_div_mul, hhead]
      exact ih (fun y hy => hl y (List.mem_append_left _ hy)) (by omega)

/-- The last `n` base-8 digits of a number, most significant first. -/
theorem flat_digits (n x : Nat) : flat ((List.range n).map fun d => x / 8 ^ (n - 1 - d) % 8) = x % 8 ^ n := by
  induction n generalizing x with
  | zero => exact (Nat.mod_one x).symm
  | succ n ih =>
    have hhead : ((List.range n).map fun d => x / 8 ^ (n - d) % 8) =
        (List.range n).map fun d => x / 8 / 8 ^ (n - 1 - d) % 8 := by
      refine List.map_congr_left fun d hd => ?_
      have hexp : n - d = n - 1 - d + 1 := by have := List.mem_range.mp hd; omega
      rw [hexp, Nat.pow_succ', Nat.div_div_eq_div_mul]
    rw [List.range_succ, List.map_append, List.map_singleton, flat_concat, Nat.add_sub_cancel, hhead, ih, Nat.sub_self,
      Nat.pow_zero, Nat.div_one, Nat.pow_succ', Nat.mod_mul]
    omega

theorem flat_ofFn (n : Nat) (a : Fin n → Nat) : flat (List.ofFn a) = ∑ d : Fin n, a d * 8 ^ (n - 1 - d.val) := by
  induction n with
  | zero => rfl
  | succ n ih =>
    have hterm (d : Fin n) : a d.castSucc * 8 ^ (n - d.val) = a d.castSucc * 8 ^ (n - 1 - d.val) * 8 := by
      have hexp : n - d.val = n - 1 - d.val + 1 := by omega
      rw [hexp, Nat.pow_succ, Nat.mul_assoc]
    rw [List.ofFn_succ', List.concat_eq_append, flat_concat, ih, Finset.sum_mul, Fin.sum_univ_castSucc]
    simp only [Nat.add_sub_cancel, Fin.val_castSucc, Fin.val_last, Nat.sub_self, Nat.pow_zero, Nat.mul_one, hterm]

/-! Eight coordinates (R230). -/

theorem coord_lt (x d : Nat) : coord x d < 8 := Nat.mod_lt _ (by decide)

theorem coord_flat {l : List Nat} (hl : ∀ x ∈ l, x < 8) (hlen : l.length = 8) {d : Nat} (hd : d < 8) :
    coord (flat l) d = l[d] :=
  flat_digit hl (by omega)

theorem flat_coord {x : Nat} (hx : x < 2 ^ 24) : flat ((List.range 8).map (coord x)) = x :=
  (flat_digits 8 x).trans (Nat.mod_eq_of_lt hx)

/-- A coordinate is three bits of the index. -/
theorem coord_eq_bits (x d : Nat) : coord x d = (x >>> (3 * (7 - d))) &&& 7 := by
  rw [coord, Nat.shiftRight_eq_div_pow, Nat.pow_mul]
  exact (Nat.and_two_pow_sub_one_eq_mod _ 3).symm

/-- The coordinate sum over the axes (R231). -/
theorem csum_eq_sum_coord (x : Nat) : csum x = ∑ d : Fin 8, coord x d := by
  rw [← Finset.sum_range (n := 8) (coord x)]
  rfl

/-! The loader's map (R232). -/

theorem mem_reversedDigits_lt (i : Nat) : ∀ x ∈ (List.range 8).map fun d => i / 8 ^ d % 8, x < 8 := by
  intro x hx
  obtain ⟨d, -, rfl⟩ := List.mem_map.mp hx
  exact Nat.mod_lt _ (by decide)

theorem coord_ldidx (i : Nat) {d : Nat} (hd : d < 8) : coord (ldidx i) d = i / 8 ^ d % 8 := by
  rw [ldidx, coord_flat (mem_reversedDigits_lt i) (by simp) hd, List.getElem_map, List.getElem_range]

theorem ldidx_lt (i : Nat) : ldidx i < 2 ^ 24 := by
  have hlt := flat_lt (mem_reversedDigits_lt i)
  rwa [List.length_map, List.length_range, ← ldidx] at hlt

/-- Reversing the digits twice gives the position back. -/
theorem ldidx_ldidx {i : Nat} (hi : i < 2 ^ 24) : ldidx (ldidx i) = i := by
  have hcoord : (List.range 8).map (coord (ldidx (ldidx i))) = (List.range 8).map (coord i) := by
    refine List.map_congr_left fun d hd => ?_
    have hd8 : d < 8 := List.mem_range.mp hd
    calc coord (ldidx (ldidx i)) d = ldidx i / 8 ^ d % 8 := coord_ldidx _ hd8
      _ = coord (ldidx i) (7 - d) := by rw [coord, Nat.sub_sub_self (by omega)]
      _ = coord i d := coord_ldidx i (by omega)
  rw [← flat_coord (ldidx_lt _), hcoord, flat_coord hi]

/-- Settles O55: an index below 2^24 is the base-8 number of its eight coordinates. -/
theorem latticeCoordinates : Obligations.LatticeCoordinates := by
  constructor
  · intro a x
    have hdigit : ∀ y ∈ List.ofFn fun d => (a d).val, y < 8 := by
      intro y hy
      obtain ⟨d, rfl⟩ := List.mem_ofFn.mp hy
      exact (a d).isLt
    refine ⟨flat_ofFn 8 _, ?_, fun d => ?_⟩
    · have hlt := flat_lt hdigit
      rwa [List.length_ofFn] at hlt
    · rw [coord_flat hdigit List.length_ofFn d.isLt, List.getElem_ofFn]
  · intro x hx
    exact ⟨flat_coord hx, fun d _ => coord_eq_bits x d, csum_eq_sum_coord x, csum_le x, fun d hd => coord_ldidx x hd,
      ldidx_lt x, ldidx_ldidx hx⟩

/-! The completions. -/

/-- A running `LOAD` that reads all of its input completes with the effect on that input (R303). -/
theorem exec_load_stable {s : State} {r : Running} {x : List Byte} (hrun : s.cur = some r) (hop : r.op = .load)
    (hstable : s.stableInput r x) (hlen : x.length = min r.args.inLen.toNat (2 ^ 24)) :
    exec .load s = .next { s with
      int := { s.int with lat := loadBytes x 0 s.int.lat }
      cur := none, done := true, err := .ok, fresh := s.fresh + x.length } := by
  have hcount : inputCount .load r.args = x.length := by rw [hlen, ← latSize_eq]; rfl
  have hexec : exec .load s = s.command .load fun r =>
    s.completeReading (inputCount .load r.args) (loadEffect (inputCount .load r.args)
      (s.input r (inputCount .load r.args)) s.int) := rfl
  rw [hexec, State.command_running hrun hop, hcount, State.input_of_stable hstable, loadEffect_ok_eq _ x s.int rfl]
  rfl

/-- Settles O35: the loop is `loadBytes`, and position i's cell is `ldidx i`. -/
theorem loadCompletes : Obligations.LoadCompletes := by
  intro s r x hrun hop hstable hlen cell
  have hcell : ∀ i, cell i = ldidx i := fun i => (ldidx_eq_sum i).symm
  refine ⟨loadBytes x 0 s.int.lat, fun i b hb => ?_, fun a ha => ?_, exec_load_stable hrun hop hstable hlen⟩
  · have hread := read_loadBytes_at x 0 s.int.lat (by omega) i b hb
    rwa [Nat.zero_add, ← hcell] at hread
  · refine read_loadBytes_other x 0 s.int.lat a fun i hi => ?_
    rw [Nat.zero_add, ← hcell]
    exact ha i hi

theorem exec_latzero_running {s : State} {r : Running} (hrun : s.cur = some r) (hop : r.op = .latzero) :
    exec .latzero s = .next { s with
      int := { s.int with lat := Memory.tabulate (fun _ => 0) latSize 0, latV := true }
      cur := none, done := true, err := .ok } := by
  have hexec : exec .latzero s = s.command .latzero fun _ => s.completeWith (latzeroEffect s.int) := rfl
  rw [hexec, State.command_running hrun hop, latzeroEffect_eq s.int rfl]
  rfl

/-- Settles O42: the new lattice tabulates 0 over all 2^24 cells. -/
theorem latzeroCompletes : Obligations.LatzeroCompletes := by
  intro s r hrun hop
  refine ⟨Memory.tabulate (fun _ => 0) latSize 0, fun x => ?_, exec_latzero_running hrun hop⟩
  rw [Memory.read_tabulate, latSize_eq, Nat.zero_add]
  simp only [Nat.zero_le, true_and]

end Sys2Proof.Machine
end

section
/-! SUPPORT, O36 to O39. The completions of `CHAOS`, `ENTROPY`, `DIFFUSE` and `WALK` (R252 to R263): each lattice after
them cell by cell. -/

namespace Sys2Proof.Machine

/-! Chaos. -/

theorem chaosRepetitions_eq : chaosRepetitions = 256 := by unfold chaosRepetitions; rfl

theorem chaosRepeat_add (m n : Nat) (v : Byte) : chaosRepeat (m + n) v = chaosRepeat n (chaosRepeat m v) := by
  induction m generalizing v with
  | zero => rw [Nat.zero_add, chaosRepeat]
  | succ m ih => rw [Nat.succ_add, chaosRepeat, ih, chaosRepeat]

theorem chaosRepeat_fixed {v : Byte} (h : chaosMap v = v) (n : Nat) : chaosRepeat n v = v := by
  induction n with
  | zero => rfl
  | succ n ih => rw [chaosRepeat, h, ih]

/-- Where repeated application of the chaos map leads (R252). -/
def chaosLimit (v : Byte) : Byte := if v ∈ [24, 43, 97] then v else if v ∈ [25, 133, 222] then 222 else 0

theorem chaosMap_chaosLimit (v : Byte) : chaosMap (chaosLimit v) = chaosLimit v := by
  revert v; decide +kernel

/-- No byte value is further than 20 applications from its fixed point. -/
theorem chaosRepeat_transient (v : Byte) : chaosRepeat 20 v = chaosLimit v := by
  revert v; decide +kernel

theorem chaosRepeat_chaosRepetitions (v : Byte) : chaosRepeat chaosRepetitions v = chaosLimit v := by
  rw [chaosRepetitions_eq, chaosRepeat_add 20 236, chaosRepeat_transient, chaosRepeat_fixed (chaosMap_chaosLimit v)]

theorem exec_chaos_running {s : State} {r : Running} (hrun : s.cur = some r) (hop : r.op = .chaos) :
    exec .chaos s = .next { s with
      int := { s.int with lat := s.int.lat.mapCells fun _ v => chaosRepeat chaosRepetitions v }
      cur := none, done := true, err := .ok } := by
  have hexec : exec .chaos s = s.command .chaos fun _ => s.completeWith (chaosEffect s.int) := rfl
  rw [hexec, State.command_running hrun hop, chaosEffect_eq s.int rfl]
  rfl

/-- Settles O36: every byte value has reached its fixed point of the map before the 256 applications are over. -/
theorem chaosCompletes : Obligations.ChaosCompletes := by
  intro s r hrun hop
  refine ⟨_, fun x => ?_, exec_chaos_running hrun hop⟩
  rw [Memory.read_mapCells, funext chaosRepeat_chaosRepetitions]
  rfl

/-! Entropy. -/

/-- A sum that starts at zero and adds a term a byte value is the entropy's, in ascending order (R255). -/
theorem entropySum_eq {x : List Byte} {S : Nat → F64} (hzero : S 0 = ⟨0, 0⟩)
    (hsucc : ∀ b < 256, S (b + 1) = entropyTerm x (S b) b) {n : Nat} (hn : n ≤ 256) :
    S n = (List.range n).foldl (entropyTerm x) ⟨0, 0⟩ := by
  induction n with
  | zero => exact hzero
  | succ n ih => rw [hsucc n (by omega), ih (by omega), entropySum_succ]

/-- The table of injections covers every coordinate sum (R231, R256). -/
theorem injections_getD_csum (e : F64) (a : Nat) : (injections e).getD (csum a) 0 = injection e (csum a) := by
  have hlt : csum a < 57 := Nat.lt_succ_of_le (csum_le a)
  rw [injections, List.getD_eq_getElem _ _ (by simpa using hlt), List.getElem_map, List.getElem_range]

/-- A running `ENTROPY` that reads its whole input completes with the effect on that input (R303). -/
theorem exec_entropy_stable {s : State} {r : Running} {x : List Byte} (hrun : s.cur = some r) (hop : r.op = .entropy)
    (hstable : s.stableInput r x) (hlen : x.length = r.args.inLen.toNat) {e : F64} (he : entropyOf x = e) :
    exec .entropy s = .next { s with
      int := { s.int with lat := s.int.lat.mapCells (fun a v => v ^^^ injection e (csum a)), ent := e.encode }
      cur := none, done := true, err := .ok, fresh := s.fresh + x.length } := by
  have hcount : inputCount .entropy r.args = x.length := hlen.symm
  have hexec : exec .entropy s = s.command .entropy fun r =>
    s.completeReading (inputCount .entropy r.args) (entropyEffect (s.input r (inputCount .entropy r.args)) s.int) := rfl
  have hlat : s.int.lat.mapCells (fun a v => v ^^^ (injections (entropyOf x)).getD (csum a) 0) =
      s.int.lat.mapCells fun a v => v ^^^ injection e (csum a) := by simp only [injections_getD_csum, he]
  rw [hexec, State.command_running hrun hop, hcount, State.input_of_stable hstable,
    entropyEffect_ok_eq x s.int hlat (congrArg F64.encode he)]
  rfl

/-- Settles O37: the sums given are the partial sums of `entropyOf`, and the digit sum of an index is its `csum`. -/
theorem entropyCompletes : Obligations.EntropyCompletes := by
  intro s r x S hrun hop hstable hlen hzero hsucc e digitSum
  have he : entropyOf x = e := by rw [entropyOf_eq, ← entropySum_eq hzero hsucc le_rfl]
  refine ⟨_, fun a => ?_, exec_entropy_stable hrun hop hstable hlen he⟩
  rw [Memory.read_mapCells, csum_eq_sum]
  rfl

/-! Diffusion. -/

theorem diffuseMap_eq_ofNat (v : Byte) : diffuseMap v = .ofNat 8 (v.toNat * 8 + 17) := by
  apply BitVec.eq_of_toNat_eq
  simp [diffuseMap]

theorem exec_diffuse_running {s : State} {r : Running} (hrun : s.cur = some r) (hop : r.op = .diffuse) :
    exec .diffuse s = .next { s with
      int := { s.int with lat := s.int.lat.mapCells fun _ v => diffuseMap v }
      cur := none, done := true, err := .ok } := by
  have hexec : exec .diffuse s = s.command .diffuse fun _ => s.completeWith (diffuseEffect s.int) := rfl
  rw [hexec, State.command_running hrun hop, diffuseEffect_eq s.int rfl]
  rfl

/-- Settles O38: the effect maps every cell on its own. -/
theorem diffuseCompletes : Obligations.DiffuseCompletes := by
  intro s r hrun hop
  refine ⟨_, fun x => ?_, exec_diffuse_running hrun hop⟩
  rw [Memory.read_mapCells, funext diffuseMap_eq_ofNat]

/-! Walk. -/

theorem walkIterations_eq : walkIterations = 512 := by unfold walkIterations; rfl

theorem walk_succ (n : Nat) (w : Memory × Generator) : walk (n + 1) w = walkStep (walk n w) := by
  induction n generalizing w with
  | zero => rfl
  | succ n ih => rw [walk, ih, ← walk]

@[simp] theorem Generator.draws_length (n count : Nat) (g : Generator) : (Generator.draws n count g).1.length = count := by
  induction count generalizing g with
  | zero => rfl
  | succ count ih => rw [Generator.draws, List.length_cons, ih]

/-- The flat index of eight coordinates, term by term (R230). -/
theorem flat_eq_sum {l : List Nat} (hl : l.length = 8) :
    flat l = ((List.range 8).map fun d => l.getD d 0 * 8 ^ (7 - d)).sum := by
  have hofFn : l = List.ofFn fun d : Fin 8 => l.getD d 0 :=
    List.ext_getElem (by simp [hl]) fun d hd _ => by rw [List.getElem_ofFn, List.getD_eq_getElem _ _ hd]
  calc flat l = ∑ d : Fin 8, l.getD d 0 * 8 ^ (7 - d.val) := by rw [← flat_ofFn, ← hofFn]
    _ = _ := (Finset.sum_range fun d => l.getD d 0 * 8 ^ (7 - d)).symm

/-- The byte that an iteration of the walk draws, and the generator after it (R263). -/
def walkByte (g : Generator) : Nat × Generator := (Generator.draws 8 8 g).2.draw 256

/-- The cell that an iteration of the walk draws (R263). -/
def walkCell (g : Generator) : Nat := flat (Generator.draws 8 8 g).1

theorem walkStep_eq (w : Memory × Generator) :
    walkStep w = (xorCell w.1 (walkCell w.2) (.ofNat 8 (walkByte w.2).1), (walkByte w.2).2) := rfl

theorem walk_generator (n : Nat) (w : Memory × Generator) : (walk n w).2 = (fun g => (walkByte g).2)^[n] w.2 := by
  induction n with
  | zero => rfl
  | succ n ih => rw [walk_succ, walkStep_eq, ih, Function.iterate_succ_apply']

/-- A cell after `n` iterations: the bytes of those that drew it, exclusive-ored in order (R263). -/
theorem read_walk (n : Nat) (lat : Memory) (g : Generator) (a : Nat) :
    let after := fun k => (fun g => (walkByte g).2)^[k] g
    (walk n (lat, g)).1.read a = (lat.read a).map fun v =>
      ((List.range n).filter fun k => walkCell (after k) == a).foldl
        (fun acc k => acc ^^^ .ofNat 8 (walkByte (after k)).1) v := by
  intro after
  induction n with
  | zero => exact Option.map_id'.symm
  | succ n ih =>
    rw [walk_succ, walkStep_eq, read_xorCell, ih, walk_generator, List.range_succ, List.filter_append]
    by_cases hcell : walkCell (after n) = a
    · rw [if_pos hcell.symm, List.filter_cons_of_pos (by simpa using hcell), List.filter_nil, Option.map_map]
      simp only [List.foldl_append]
      rfl
    · rw [if_neg (Ne.symm hcell), List.filter_cons_of_neg (by simpa using hcell), List.filter_nil, List.append_nil]

theorem exec_walk_running {s : State} {r : Running} (hrun : s.cur = some r) (hop : r.op = .walk) :
    exec .walk s = .next { s with
      int := { s.int with
        lat := (walk walkIterations (s.int.lat, s.int.mt)).1
        mt := (fun g => (walkByte g).2)^[walkIterations] s.int.mt }
      cur := none, done := true, err := .ok } := by
  have hexec : exec .walk s = s.command .walk fun _ => s.completeWith (walkEffect s.int) := rfl
  rw [hexec, State.command_running hrun hop, walkEffect_eq s.int rfl (walk_generator _ _)]
  rfl

/-- Settles O39: the cells are those of `read_walk`, and a cell's index is the flat index of its coordinates. The draws
are compared by name (`hvalue`), never by evaluation. -/
theorem walkCompletes : Obligations.WalkCompletes := by
  intro s r hrun hop coords value after cell hits
  have hvalue : ∀ g, value g = walkByte g := fun _ => rfl
  have hafter : ∀ n, after n = (fun g => (walkByte g).2)^[n] s.int.mt := fun n => by simp only [after, hvalue]
  have hcell : ∀ n, cell n = walkCell (after n) := fun n => (flat_eq_sum (Generator.draws_length 8 8 _)).symm
  have hhits : ∀ a, hits a = (List.range 512).filter fun n => walkCell (after n) == a := fun a => by
    simp only [hits, hcell]
  refine ⟨(walk walkIterations (s.int.lat, s.int.mt)).1, fun a => ?_, ?_⟩
  · rw [read_walk, walkIterations_eq, hhits]
    simp only [hafter, hvalue]
  · rw [exec_walk_running hrun hop, walkIterations_eq, hafter]

end Sys2Proof.Machine
end

section
/-! SUPPORT and O60. The sine of every byte value (R250). The complex number e^i is a Gaussian rational z up to a small
error (its exponential series to degree 11), both lie in the unit disc, so e^(in) is z^n up to n times that error; the
imaginary part of z^n is computed with integers. -/

namespace Sys2Proof.Machine

open Complex

/-- In the unit disc the n-th power moves by at most n times the distance. -/
theorem norm_pow_sub_pow_le {z w : ℂ} (hz : ‖z‖ ≤ 1) (hw : ‖w‖ ≤ 1) (n : ℕ) : ‖z ^ n - w ^ n‖ ≤ n * ‖z - w‖ := by
  induction n with
  | zero => simp
  | succ n ih =>
    have hsplit : z ^ (n + 1) - w ^ (n + 1) = z ^ n * (z - w) + (z ^ n - w ^ n) * w := by ring
    have hpow : ‖z ^ n‖ ≤ 1 := by rw [norm_pow]; exact pow_le_one₀ (norm_nonneg _) hz
    calc ‖z ^ (n + 1) - w ^ (n + 1)‖ ≤ ‖z ^ n‖ * ‖z - w‖ + ‖z ^ n - w ^ n‖ * ‖w‖ := by
          rw [hsplit, ← norm_mul, ← norm_mul]; exact norm_add_le _ _
      _ ≤ 1 * ‖z - w‖ + n * ‖z - w‖ * 1 := by gcongr
      _ = (n + 1 : ℕ) * ‖z - w‖ := by push_cast; ring

/-- The exponential series at i up to degree 11, times 11! (`nearExpI_eq_series`). -/
def seriesAtI : GaussianInt := ⟨21567139, 33588829⟩

/-- The Gaussian rational close to e^i. -/
noncomputable def nearExpI : ℂ := (seriesAtI : ℂ) / (Nat.factorial 11 : ℕ)

theorem nearExpI_eq_series : nearExpI = ∑ m ∈ Finset.range 12, I ^ m / m.factorial := by
  simp only [Finset.sum_range_succ, Finset.sum_range_zero, nearExpI, seriesAtI, GaussianInt.toComplex_def', Nat.factorial]
  rw [Complex.ext_iff]
  constructor <;> norm_num [pow_succ]

/-- One part in 256 million: the rest of the series. -/
theorem norm_exp_I_sub_le : ‖exp I - nearExpI‖ ≤ 1 / (256 * 10 ^ 6) := by
  have hbound := exp_bound (x := I) norm_I.le (n := 12) (by norm_num)
  rw [← nearExpI_eq_series, norm_I] at hbound
  refine hbound.trans ?_
  norm_num [Nat.factorial]

theorem norm_nearExpI_le : ‖nearExpI‖ ≤ 1 := by
  rw [← sq_le_one_iff₀ (norm_nonneg _), ← normSq_eq_norm_sq]
  norm_num [nearExpI, seriesAtI, GaussianInt.toComplex_def', normSq_apply, Nat.factorial]

theorem norm_exp_I : ‖exp I‖ = 1 := by simpa using norm_exp_ofReal_mul_I 1

theorem sin_eq_im_exp_pow (n : ℕ) : Real.sin n = (exp I ^ n).im := by
  rw [← exp_nat_mul, ← ofReal_natCast, exp_ofReal_mul_I_im]

/-- 256 times the imaginary part of the n-th power, a numerator over `sineDen n`. -/
def sineNum (n : ℕ) : ℤ := 256 * (seriesAtI ^ n).im

def sineDen (n : ℕ) : ℤ := Nat.factorial 11 ^ n

theorem sineDen_pos (n : ℕ) : 0 < sineDen n := pow_pos (by norm_num [Nat.factorial]) n

theorem sineNum_div_sineDen (n : ℕ) : (sineNum n : ℝ) / sineDen n = 256 * (nearExpI ^ n).im := by
  rw [nearExpI, div_pow, ← map_pow, ← Nat.cast_pow, div_natCast_im, ← GaussianInt.intCast_im, sineNum, sineDen]
  push_cast
  ring

/-- The computed quotient is 256 times the sine of n up to n parts in a million. -/
theorem sine_near (n : ℕ) : |Real.sin n * 256 - (sineNum n : ℝ) / sineDen n| ≤ n / 1000000 := by
  have hpow := norm_pow_sub_pow_le norm_exp_I.le norm_nearExpI_le n
  have him : |Real.sin n - (nearExpI ^ n).im| ≤ n * (1 / (256 * 10 ^ 6)) := by
    rw [sin_eq_im_exp_pow, ← sub_im]
    calc |(exp I ^ n - nearExpI ^ n).im| ≤ ‖exp I ^ n - nearExpI ^ n‖ := abs_im_le_norm _
      _ ≤ n * ‖exp I - nearExpI‖ := hpow
      _ ≤ n * (1 / (256 * 10 ^ 6)) := by gcongr; exact norm_exp_I_sub_le
  calc |Real.sin n * 256 - (sineNum n : ℝ) / sineDen n| = |Real.sin n - (nearExpI ^ n).im| * 256 := by
        rw [sineNum_div_sineDen, mul_comm 256, ← sub_mul, abs_mul, abs_of_pos (by norm_num : (0 : ℝ) < 256)]
    _ ≤ n * (1 / (256 * 10 ^ 6)) * 256 := by gcongr
    _ = n / 1000000 := by ring

/-- A real near a quotient has that quotient's floor, if the remainder is clear of 0 and of the denominator by more than
the distance. -/
theorem floor_eq_ediv_of_near {x : ℝ} {a d n c : ℤ} (hd : 0 < d) (hc : 0 < c) (hnear : |x - (a : ℝ) / d| ≤ n / c)
    (hlo : n * d ≤ c * (a % d)) (hhi : c * (a % d) + n * d < c * d) : ⌊x⌋ = a / d := by
  have hd' : (0 : ℝ) < d := by exact_mod_cast hd
  have hc' : (0 : ℝ) < c := by exact_mod_cast hc
  have hquot : (a : ℝ) / d = (a / d : ℤ) + (a % d : ℤ) / (d : ℝ) := by
    rw [div_eq_iff hd'.ne', add_mul, div_mul_cancel₀ _ hd'.ne']
    exact_mod_cast (Int.ediv_mul_add_emod a d).symm
  have hlo' : (n : ℝ) / c ≤ (a % d : ℤ) / (d : ℝ) := by
    rw [div_le_div_iff₀ hc' hd', mul_comm _ (c : ℝ)]; exact_mod_cast hlo
  have hhi' : ((a % d : ℤ) : ℝ) / d + n / c < 1 := by
    rw [div_add_div _ _ hd'.ne' hc'.ne', div_lt_one (mul_pos hd' hc')]
    exact_mod_cast (by linarith : a % d * c + d * n < d * c)
  obtain ⟨hle, hge⟩ := abs_le.mp hnear
  rw [Int.floor_eq_iff]
  constructor <;> linarith

/-- For every byte value the remainder is clear, and the chaos table holds the quotient. -/
theorem chaosTable_eq_sine_quotient : ∀ n < 256,
    n * sineDen n ≤ 10 ^ 6 * (sineNum n % sineDen n) ∧
    10 ^ 6 * (sineNum n % sineDen n) + n * sineDen n < 10 ^ 6 * sineDen n ∧
    ((chaosTable.getD n 0).toNat : ℤ) = sineNum n / sineDen n % 256 := by
  decide +kernel

/-- Settles O60: the table holds the quotients of `sineNum` by `sineDen`, which have the floor of 256 times the sine. -/
theorem chaosTableIsTheSine : Obligations.ChaosTableIsTheSine := by
  intro v
  obtain ⟨hlo, hhi, htable⟩ := chaosTable_eq_sine_quotient v.toNat v.isLt
  have hnear : |Real.sin v.toNat * 256 - (sineNum v.toNat : ℝ) / sineDen v.toNat| ≤
      ((v.toNat : ℤ) : ℝ) / ((10 ^ 6 : ℤ) : ℝ) := by simpa using sine_near v.toNat
  rw [chaosMap, htable, floor_eq_ediv_of_near (sineDen_pos _) (by norm_num) hnear hlo hhi]

end Sys2Proof.Machine
end

section
/-! SUPPORT and O59. The base-2 logarithm. Squaring doubles it, so the digits of `logDigits` are those of its floor (R255);
the bits of a power give the same floor. Two reals between the same neighbouring multiples of 2^-128 round alike, unless
they are tiny: a boundary between two roundings is such a multiple. -/

namespace Sys2Proof.Machine

/-! Digits by squaring. -/

/-- Bounds of a real in units of 2^-k. -/
structure ScaledBounds (k lo hi : ℕ) (x : ℝ) : Prop where
  lower : (lo : ℝ) ≤ x * 2 ^ k
  upper : x * 2 ^ k ≤ hi

namespace ScaledBounds

variable {k lo hi : ℕ} {x : ℝ}

/-- The bounds of a square: the lower one rounded down, the upper one up. -/
theorem sq (h : ScaledBounds k lo hi x) :
    ScaledBounds k (lo * lo / 2 ^ k) ((hi * hi + 2 ^ k - 1) / 2 ^ k) (x ^ 2) where
  lower := by
    calc ((lo * lo / 2 ^ k : ℕ) : ℝ) ≤ (lo * lo : ℕ) / (2 ^ k : ℕ) := Nat.cast_div_le
      _ ≤ (x * 2 ^ k) * (x * 2 ^ k) / 2 ^ k := by
        rw [Nat.cast_mul, Nat.cast_pow, Nat.cast_ofNat]
        exact div_le_div_of_nonneg_right (mul_self_le_mul_self (Nat.cast_nonneg lo) h.lower) (by positivity)
      _ = x ^ 2 * 2 ^ k := by field_simp
  upper := by
    have hx : 0 ≤ x * 2 ^ k := (Nat.cast_nonneg lo).trans h.lower
    have hceil : hi * hi ≤ 2 ^ k * ((hi * hi + 2 ^ k - 1) / 2 ^ k) := by
      rw [← Nat.ceilDiv_eq_add_pred_div]
      exact le_smul_ceilDiv (Nat.two_pow_pos k)
    have hceil' : (hi : ℝ) * hi ≤ 2 ^ k * ((hi * hi + 2 ^ k - 1) / 2 ^ k : ℕ) := by exact_mod_cast hceil
    calc x ^ 2 * 2 ^ k = (x * 2 ^ k) * (x * 2 ^ k) / 2 ^ k := by field_simp
      _ ≤ hi * hi / 2 ^ k := div_le_div_of_nonneg_right (mul_self_le_mul_self hx h.upper) (by positivity)
      _ ≤ ((hi * hi + 2 ^ k - 1) / 2 ^ k : ℕ) := by rwa [div_le_iff₀' (by positivity)]

/-- The bounds of a half. -/
theorem half (h : ScaledBounds k lo hi x) : ScaledBounds k (lo / 2) ((hi + 1) / 2) (x / 2) where
  lower := by
    have hdiv : ((lo / 2 : ℕ) : ℝ) ≤ (lo : ℝ) / (2 : ℕ) := Nat.cast_div_le
    push_cast at hdiv
    linarith [h.lower]
  upper := by
    have hdiv : (hi : ℝ) ≤ 2 * ((hi + 1) / 2 : ℕ) := by exact_mod_cast (by omega : hi ≤ 2 * ((hi + 1) / 2))
    linarith [h.upper]

theorem two_le (h : ScaledBounds k lo hi x) (hlo : 2 ^ (k + 1) ≤ lo) : 2 ≤ x := by
  have hle : (2 : ℝ) * 2 ^ k ≤ lo := by rw [← pow_succ']; exact_mod_cast hlo
  exact le_of_mul_le_mul_right (hle.trans h.lower) (by positivity)

theorem lt_two (h : ScaledBounds k lo hi x) (hhi : hi < 2 ^ (k + 1)) : x < 2 := by
  have hlt : (hi : ℝ) < 2 * 2 ^ k := by rw [← pow_succ']; exact_mod_cast hhi
  exact lt_of_mul_lt_mul_right (h.upper.trans_lt hlt) (by positivity)

end ScaledBounds

theorem logb_two_sq (x : ℝ) : Real.logb 2 (x ^ 2) = 2 * Real.logb 2 x := by
  exact_mod_cast Real.logb_pow 2 x 2

theorem logb_two_half {x : ℝ} (hx : x ≠ 0) : Real.logb 2 (x / 2) = Real.logb 2 x - 1 := by
  rw [Real.logb_div hx two_ne_zero, Real.logb_self_eq_one one_lt_two]

/-- A real in [1, 2) has a logarithm in [0, 1). -/
theorem floor_logb_two_eq_zero {x : ℝ} (h1 : 1 ≤ x) (h2 : x < 2) : ⌊Real.logb 2 x⌋ = 0 := by
  rw [Int.floor_eq_zero_iff]
  refine ⟨Real.logb_nonneg one_lt_two h1, ?_⟩
  rwa [Real.logb_lt_iff_lt_rpow one_lt_two (by linarith), Real.rpow_one]

/-- Digits found by squaring are those of the floor of the logarithm, after the digits found before. -/
theorem logDigits_eq_floor {n lo hi acc d : ℕ} {x : ℝ} (hb : ScaledBounds logBits lo hi x) (h1 : 1 ≤ x) (h2 : x < 2)
    (h : logDigits n lo hi acc = some d) : (d : ℤ) = acc * 2 ^ n + ⌊2 ^ n * Real.logb 2 x⌋ := by
  induction n generalizing lo hi acc x with
  | zero =>
    obtain rfl : acc = d := by simpa [logDigits] using h
    simp [floor_logb_two_eq_zero h1 h2]
  | succ n ih =>
    have hdouble : (2 : ℝ) ^ (n + 1) * Real.logb 2 x = 2 ^ n * Real.logb 2 (x ^ 2) := by rw [logb_two_sq]; ring
    have hge1 : 1 ≤ x ^ 2 := one_le_pow₀ h1
    have hlt4 : x ^ 2 < 4 := by nlinarith
    rw [logDigits] at h
    split_ifs at h with hone hzero
    · have hge : 2 ≤ x ^ 2 := hb.sq.two_le hone
      have hcarry : (2 : ℝ) ^ n * Real.logb 2 (x ^ 2 / 2) = 2 ^ n * Real.logb 2 (x ^ 2) - (2 ^ n : ℕ) := by
        rw [logb_two_half (by positivity)]; push_cast; ring
      rw [ih hb.sq.half (by linarith only [hge]) (by linarith only [hlt4]) h, hdouble, hcarry, Int.floor_sub_natCast]
      push_cast
      ring
    · have hlt : x ^ 2 < 2 := hb.sq.lt_two hzero
      rw [ih hb.sq hge1 hlt h, hdouble]
      push_cast
      ring

/-- The digits of a working mantissa are exact. -/
theorem logDigits_exact {n m d : ℕ} (hlo : 2 ^ logBits ≤ m) (hhi : m < 2 ^ (logBits + 1))
    (h : logDigits n m m 0 = some d) : (d : ℤ) = ⌊(2 : ℝ) ^ n * Real.logb 2 ((m : ℝ) / 2 ^ logBits)⌋ := by
  have hunit : (0 : ℝ) < 2 ^ logBits := by positivity
  have hscaled : (m : ℝ) / 2 ^ logBits * 2 ^ logBits = m := div_mul_cancel₀ _ hunit.ne'
  have hlo' : (2 : ℝ) ^ logBits ≤ m := by exact_mod_cast hlo
  have hfloor := logDigits_eq_floor ⟨hscaled.ge, hscaled.le⟩ ((one_le_div hunit).mpr hlo')
    (ScaledBounds.lt_two ⟨hscaled.ge, hscaled.le⟩ hhi) h
  rwa [Nat.cast_zero, zero_mul, zero_add] at hfloor

/-! The floor of every mantissa. -/

/-- The bits of a power give the floor of the logarithm. -/
theorem floor_mul_logb_two {m n k : ℕ} (hm : 2 ^ k ≤ m) :
    ((Nat.log2 (m ^ n) - k * n : ℕ) : ℤ) = ⌊(n : ℝ) * Real.logb 2 ((m : ℝ) / 2 ^ k)⌋ := by
  have hpos : 0 < m := (Nat.two_pow_pos k).trans_le hm
  have hle : k * n ≤ Nat.log 2 (m ^ n) := by
    rw [Nat.le_log_iff_pow_le one_lt_two (pow_pos hpos n).ne', pow_mul]
    exact Nat.pow_le_pow_left hm n
  have hlog : (n : ℝ) * Real.logb 2 ((m : ℝ) / 2 ^ k) = Real.logb (2 : ℕ) ((m ^ n : ℕ) : ℝ) - (k * n : ℕ) := by
    rw [Real.logb_div (by positivity) (by positivity), Real.logb_pow, Real.logb_self_eq_one one_lt_two]
    push_cast
    rw [Real.logb_pow]
    ring
  rw [hlog, Int.floor_sub_natCast, Real.floor_logb_natCast (Nat.cast_nonneg _), Int.log_natCast, Nat.log2_eq_log_two,
    Nat.cast_sub hle]

/-- The power stands under a name, so that nothing evaluates it. -/
theorem logFloorByPower_eq {m n : ℕ} (hn : 2 ^ 128 = n) : logFloorByPower m = Nat.log2 (m ^ n) - 52 * n := by
  subst hn
  unfold logFloorByPower
  rfl

/-- `logFloor` is exact, whether the working precision settles the digits or not. -/
theorem logFloor_exact {m : ℕ} (hlo : 2 ^ 52 ≤ m) (hhi : m < 2 ^ 53) :
    (logFloor m : ℤ) = ⌊(2 : ℝ) ^ 128 * Real.logb 2 ((m : ℝ) / 2 ^ 52)⌋ := by
  obtain ⟨k, hk⟩ : ∃ k, logBits = 52 + k := ⟨460, rfl⟩
  have hsub : logBits - 52 = k := by omega
  cases h : logDigits 128 (m * 2 ^ (logBits - 52)) (m * 2 ^ (logBits - 52)) 0 with
  | some d =>
    have hscale : ((m * 2 ^ k : ℕ) : ℝ) / 2 ^ logBits = (m : ℝ) / 2 ^ 52 := by
      rw [hk, pow_add, Nat.cast_mul, Nat.cast_pow, Nat.cast_ofNat, mul_div_mul_right _ _ (by positivity)]
    rw [logFloor_settled h, ← hscale]
    rw [hsub] at h
    refine logDigits_exact ?_ ?_ h
    · rw [hk, pow_add]
      exact Nat.mul_le_mul_right _ hlo
    · rw [hk, Nat.add_right_comm, pow_add]
      exact (Nat.mul_lt_mul_right (Nat.two_pow_pos k)).mpr hhi
  | none =>
    have hcast : ((2 ^ 128 : ℕ) : ℝ) = 2 ^ 128 := by norm_num
    rw [logFloor_unsettled h, logFloorByPower_eq rfl, floor_mul_logb_two hlo, hcast]

/-- The logarithm of a mantissa that is no power of two is irrational: no multiple of it is a whole number. -/
theorem mul_logb_two_ne_natCast {m n k j : ℕ} (hn : n ≠ 0) (hlo : 2 ^ k < m) (hhi : m < 2 ^ (k + 1)) :
    (n : ℝ) * Real.logb 2 ((m : ℝ) / 2 ^ k) ≠ j := by
  intro heq
  have hpos : 0 < m := (Nat.two_pow_pos k).trans hlo
  have hlog : Real.logb 2 ((m : ℝ) ^ n) = Real.logb 2 (2 ^ (j + k * n)) := by
    rw [Real.logb_div (by positivity) (by positivity)] at heq
    rw [Real.logb_pow, Real.logb_pow, Real.logb_self_eq_one one_lt_two]
    rw [Real.logb_pow, Real.logb_self_eq_one one_lt_two] at heq
    push_cast
    linarith
  have hpow : m ^ n = 2 ^ (j + k * n) := by
    exact_mod_cast Real.logb_injOn_pos one_lt_two (Set.mem_Ioi.mpr (by positivity)) (Set.mem_Ioi.mpr (by positivity)) hlog
  obtain ⟨l, -, rfl⟩ := (Nat.dvd_prime_pow Nat.prime_two).mp (hpow ▸ dvd_pow_self m hn)
  have hkl : k < l := (Nat.pow_lt_pow_iff_right one_lt_two).mp hlo
  have hlk : l < k + 1 := (Nat.pow_lt_pow_iff_right one_lt_two).mp hhi
  omega

/-! Rounding from an exact floor. -/

/-- A real strictly between two neighbouring multiples of 2^-128. -/
structure InUnit (a : ℤ) (x : ℝ) : Prop where
  lower : (a : ℝ) < 2 ^ 128 * x
  upper : 2 ^ 128 * x < a + 1

theorem InUnit.neg {a : ℤ} {x : ℝ} (h : InUnit a x) : InUnit (-a - 1) (-x) where
  lower := by push_cast; linarith [h.upper]
  upper := by push_cast; linarith [h.lower]

/-- Which of two multiples of 2^-127 is nearer: the sign of the distance from the midpoint, in units. -/
theorem dist_lt_dist_iff (i j : ℤ) (x : ℝ) :
    |x - i * 2 ^ (-127 : ℤ)| < |x - j * 2 ^ (-127 : ℤ)| ↔ 0 < ((j : ℝ) - i) * (i + j - 2 ^ 128 * x) := by
  have hfactor : (x - j * 2 ^ (-127 : ℤ)) ^ 2 - (x - i * 2 ^ (-127 : ℤ)) ^ 2 =
      ((2 : ℝ) ^ (-127 : ℤ)) ^ 2 * (((j : ℝ) - i) * (i + j - 2 ^ 128 * x)) := by norm_num; ring
  rw [← sq_lt_sq, ← sub_pos, hfactor]
  exact mul_pos_iff_of_pos_left (by positivity)

/-- Of two different multiples of 2^-127, all reals in one unit are nearer to the same one: the midpoint is a bound of
units. -/
theorem InUnit.dist_lt {a i j : ℤ} {x y : ℝ} (hx : InUnit a x) (hy : InUnit a y) (hij : i ≠ j)
    (h : |y - i * 2 ^ (-127 : ℤ)| ≤ |y - j * 2 ^ (-127 : ℤ)|) : |x - i * 2 ^ (-127 : ℤ)| < |x - j * 2 ^ (-127 : ℤ)| := by
  rw [← not_lt, dist_lt_dist_iff] at h
  rw [dist_lt_dist_iff]
  rcases lt_or_gt_of_ne hij with hlt | hgt
  · have hlt' : (i : ℝ) < j := by exact_mod_cast hlt
    have hy' : 2 ^ 128 * y ≤ j + i :=
      not_lt.mp fun hmid => h (mul_pos_of_neg_of_neg (sub_neg.mpr hlt') (sub_neg.mpr hmid))
    have hmid : a + 1 ≤ j + i := by exact_mod_cast hy.lower.trans_le hy'
    have hmid' : (a : ℝ) + 1 ≤ j + i := by exact_mod_cast hmid
    exact mul_pos (sub_pos.mpr hlt') (by linarith [hx.upper])
  · have hgt' : (j : ℝ) < i := by exact_mod_cast hgt
    have hy' : (j : ℝ) + i ≤ 2 ^ 128 * y := not_lt.mp fun hmid => h (mul_pos (sub_pos.mpr hgt') (sub_pos.mpr hmid))
    have hmid : j + i < a + 1 := by exact_mod_cast hy'.trans_lt hy.upper
    have hmid' : (j : ℝ) + i ≤ a := by exact_mod_cast Int.lt_add_one_iff.mp hmid
    exact mul_pos_of_neg_of_neg (sub_neg.mpr hgt') (by linarith [hx.lower])

/-- A value of the format is a multiple of 2^-127 or below 2^-75. -/
theorem value_on_grid_or_lt {m e : ℤ} (hm : |m| < 2 ^ 53) :
    (∃ j : ℤ, (m : ℝ) * 2 ^ e = j * 2 ^ (-127 : ℤ)) ∨ (m : ℝ) * 2 ^ e < (2 ^ 52 : ℤ) * 2 ^ (-127 : ℤ) := by
  rcases le_or_gt (-127) e with he | he
  · exact .inl ⟨_, (man_shift_mul_zpow m he).symm⟩
  · exact .inr (by exact_mod_cast mul_zpow_lt_of_lt he hm)

/-- A real above 2^-75 rounds as any other in its unit: every other value of the format is farther away. -/
theorem F64.Rounds.dist_lt {v : F64} {a : ℤ} {x y : ℝ} (h : v.Rounds y) (hx : InUnit a x) (hy : InUnit a y)
    (ha : 2 ^ 53 ≤ a) {m e : ℤ} (hm : |m| < 2 ^ 53) (he : -1074 ≤ e) (hne : (m : ℝ) * 2 ^ e ≠ v.man * 2 ^ v.exp) :
    |x - v.man * 2 ^ v.exp| < |x - m * 2 ^ e| := by
  have hbound : ∀ {z : ℝ}, InUnit a z → ((2 ^ 52 : ℤ) : ℝ) * 2 ^ (-127 : ℤ) < z := fun hz => by
    have ha' : (2 ^ 53 : ℝ) ≤ a := by exact_mod_cast ha
    have hlower := hz.lower
    norm_num at ha' hlower ⊢
    linarith
  have hgrid : ((2 ^ 52 : ℤ) : ℝ) * 2 ^ (-127 : ℤ) = (1 : ℤ) * 2 ^ (-75 : ℤ) := by norm_num
  obtain ⟨i, hi⟩ : ∃ i : ℤ, (v.man : ℝ) * 2 ^ v.exp = i * 2 ^ (-127 : ℤ) := by
    refine (value_on_grid_or_lt h.mantissa.1).resolve_right fun hlt => ?_
    have hnear := h.nearest 1 (-75) (by norm_num) (by norm_num)
    have hy75 := hbound hy
    rw [← hgrid, abs_of_pos (by linarith), abs_of_pos (by linarith)] at hnear
    linarith
  have hother : ∀ {m' e' j : ℤ}, |m'| < 2 ^ 53 → -1074 ≤ e' → (m' : ℝ) * 2 ^ e' = j * 2 ^ (-127 : ℤ) → i ≠ j →
      |x - i * 2 ^ (-127 : ℤ)| < |x - j * 2 ^ (-127 : ℤ)| := by
    intro m' e' j hm' he' hj hij
    exact hx.dist_lt hy hij (by rw [← hi, ← hj]; exact h.nearest m' e' hm' he')
  rw [hi] at hne ⊢
  rcases value_on_grid_or_lt (e := e) hm with ⟨j, hj⟩ | hlt
  · rw [hj]
    exact hother hm he hj fun hij => hne (by rw [hj, hij])
  · have hx75 := hbound hx
    have hedge : |x - i * 2 ^ (-127 : ℤ)| ≤ |x - (2 ^ 52 : ℤ) * 2 ^ (-127 : ℤ)| := by
      by_cases hi52 : i = 2 ^ 52
      · rw [hi52]
      · exact (hother (m' := 1) (e' := -75) (by norm_num) (by norm_num) hgrid.symm hi52).le
    refine hedge.trans_lt ?_
    rw [abs_of_pos (by linarith), abs_of_pos (by linarith)]
    linarith

/-- Two reals of one unit above 2^-75 round alike. -/
theorem F64.Rounds.of_inUnit {v : F64} {a : ℤ} {x y : ℝ} (h : v.Rounds y) (hx : InUnit a x) (hy : InUnit a y)
    (ha : 2 ^ 53 ≤ a) : v.Rounds x where
  exponent := h.exponent
  mantissa := h.mantissa
  nearest m e hm he := by
    by_cases hv : (m : ℝ) * 2 ^ e = v.man * 2 ^ v.exp
    · rw [hv]
    · exact (h.dist_lt hx hy ha hm he hv).le
  even m e hm he htie hv := absurd htie (h.dist_lt hx hy ha hm he hv).ne

/-- Two reals of one unit round alike where it is not near zero, on either side. -/
theorem F64.Rounds.of_inUnit_abs {v : F64} {a : ℤ} {x y : ℝ} (h : v.Rounds y) (hx : InUnit a x) (hy : InUnit a y)
    (ha : 2 ^ 53 ≤ a ∨ a < -2 ^ 53) : v.Rounds x := by
  rcases ha with ha | ha
  · exact h.of_inUnit hx hy ha
  · have hneg := (h.neg.of_inUnit hx.neg hy.neg (by omega)).neg
    simpa only [neg_neg] using hneg

/-! The rounded logarithm. -/

/-- Away from 1 the logarithm is away from 0. -/
theorem one_sub_inv_le_logb_two {x : ℝ} (hx : 1 ≤ x) : 1 - x⁻¹ ≤ Real.logb 2 x := by
  have hlog := Real.one_sub_inv_le_log_of_pos (by linarith : 0 < x)
  have hlog2 : Real.log 2 ≤ 1 := Real.log_two_lt_d9.le.trans (by norm_num)
  exact hlog.trans (le_div_self (Real.log_nonneg hx) (Real.log_pos one_lt_two) hlog2)

theorem logb_two_le_sub_one {x : ℝ} (hpos : 0 < x) (hx : x ≤ 1) : Real.logb 2 x ≤ x - 1 := by
  have hlog := Real.log_le_sub_one_of_pos hpos
  have hlog2 : Real.log 2 ≤ 1 := Real.log_two_lt_d9.le.trans (by norm_num)
  refine le_trans ?_ hlog
  rw [Real.logb, div_le_iff₀ (Real.log_pos one_lt_two)]
  nlinarith [Real.log_nonpos hpos.le hx]

/-- No 53-bit mantissa but a power of two comes so near to 1 that its logarithm is below 2^-53. -/
theorem logb_two_away {m : ℕ} (hlo : 2 ^ 52 < m) (hhi : m < 2 ^ 53) (e : ℤ) :
    (2 : ℝ) ^ (-53 : ℤ) ≤ Real.logb 2 (m * 2 ^ e) ∨ Real.logb 2 (m * 2 ^ e) ≤ -2 ^ (-53 : ℤ) := by
  have hlo' : (2 ^ 52 + 1 : ℝ) ≤ m := by exact_mod_cast hlo
  have hhi' : (m : ℝ) + 1 ≤ 2 ^ 53 := by exact_mod_cast hhi
  rcases le_or_gt (-52) e with he | he
  · left
    have hpow : (2 : ℝ) ^ (-52 : ℤ) ≤ 2 ^ e := zpow_le_zpow_right₀ one_le_two he
    have hx : (1 + 2 ^ (-52 : ℤ) : ℝ) ≤ m * 2 ^ e := by
      calc (1 + 2 ^ (-52 : ℤ) : ℝ) = (2 ^ 52 + 1) * 2 ^ (-52 : ℤ) := by norm_num
        _ ≤ m * 2 ^ e := by gcongr
    have hinv : ((m : ℝ) * 2 ^ e)⁻¹ ≤ (1 + 2 ^ (-52 : ℤ) : ℝ)⁻¹ := inv_anti₀ (by positivity) hx
    have hstep : (2 : ℝ) ^ (-53 : ℤ) ≤ 1 - (1 + 2 ^ (-52 : ℤ) : ℝ)⁻¹ := by norm_num
    have hone : (1 : ℝ) ≤ m * 2 ^ e := le_trans (by norm_num) hx
    exact hstep.trans ((sub_le_sub_left hinv 1).trans (one_sub_inv_le_logb_two hone))
  · right
    have hpow : (2 : ℝ) ^ e ≤ 2 ^ (-53 : ℤ) := zpow_le_zpow_right₀ one_le_two (by omega)
    have hx : (m : ℝ) * 2 ^ e ≤ 1 - 2 ^ (-53 : ℤ) := by
      calc (m : ℝ) * 2 ^ e ≤ (2 ^ 53 - 1) * 2 ^ (-53 : ℤ) := by gcongr; linarith
        _ = 1 - 2 ^ (-53 : ℤ) := by norm_num
    have hpos : (0 : ℝ) < m * 2 ^ e := mul_pos (by linarith) (zpow_pos two_pos e)
    have hone : (m : ℝ) * 2 ^ e ≤ 1 := hx.trans (by norm_num)
    linarith [logb_two_le_sub_one hpos hone]

theorem logb_two_mantissa {m : ℕ} (hm : 0 < m) (e : ℤ) :
    Real.logb 2 ((m : ℝ) * 2 ^ e) = (e + 52 : ℤ) + Real.logb 2 ((m : ℝ) / 2 ^ 52) := by
  rw [Real.logb_mul (by positivity) (by positivity), Real.logb_div (by positivity) (by positivity),
    ← Real.rpow_intCast, Real.logb_rpow two_pos one_lt_two.ne', Real.logb_pow, Real.logb_self_eq_one one_lt_two]
  push_cast
  ring

/-- The exact floor gives the unit of the logarithm. -/
theorem inUnit_logb_two {m : ℕ} (hlo : 2 ^ 52 < m) (hhi : m < 2 ^ 53) (e : ℤ) :
    InUnit ((e + 52) * 2 ^ 128 + logFloor m) (Real.logb 2 (m * 2 ^ e)) := by
  have hfloor := logFloor_exact hlo.le hhi
  have hcast : ((2 ^ 128 : ℕ) : ℝ) = 2 ^ 128 := by norm_num
  have hirrational : (logFloor m : ℝ) ≠ 2 ^ 128 * Real.logb 2 ((m : ℝ) / 2 ^ 52) := by
    rw [← hcast]
    exact (mul_logb_two_ne_natCast (by positivity) hlo hhi).symm
  obtain ⟨hle, hlt⟩ := Int.floor_eq_iff.mp hfloor.symm
  have hscaled : 2 ^ 128 * Real.logb 2 ((m : ℝ) * 2 ^ e) =
      (e + 52 : ℤ) * 2 ^ 128 + 2 ^ 128 * Real.logb 2 ((m : ℝ) / 2 ^ 52) := by
    rw [logb_two_mantissa (Nat.zero_lt_of_lt hlo)]; ring
  rw [Int.cast_natCast] at hle hlt
  constructor <;> rw [hscaled] <;> push_cast
  · linarith [lt_of_le_of_ne hle hirrational]
  · linarith

theorem inUnit_middle (a : ℤ) : InUnit a ((2 * a + 1 : ℤ) * 2 ^ (-129 : ℤ)) where
  lower := by norm_num; linarith
  upper := by norm_num; linarith

/-- A real away from 0 lies in a unit away from 0. -/
theorem InUnit.index_away {a : ℤ} {x : ℝ} (h : InUnit a x) (hx : (2 : ℝ) ^ (-53 : ℤ) ≤ x ∨ x ≤ -2 ^ (-53 : ℤ)) :
    2 ^ 53 ≤ a ∨ a < -2 ^ 53 := by
  have hlower := h.lower
  have hupper := h.upper
  refine hx.imp (fun hx => ?_) fun hx => ?_
  · have hlarge : (2 ^ 53 : ℝ) < a + 1 := by norm_num at hx hupper ⊢; linarith
    exact Int.lt_add_one_iff.mp (by exact_mod_cast hlarge)
  · have hsmall : (a : ℝ) < -2 ^ 53 := by norm_num at hx hlower ⊢; linarith
    exact_mod_cast hsmall

/-- Of a power of two the logarithm is an integer. -/
theorem log2c_twoPow_rounds (e : ℤ) : (F64.log2c ⟨2 ^ 52, e⟩).Rounds (Real.logb 2 (2 ^ 52 * 2 ^ e)) := by
  have hlog : Real.logb 2 ((2 : ℝ) ^ 52 * 2 ^ e) = (e + 52 : ℤ) * 2 ^ (0 : ℤ) := by
    have hmantissa := logb_two_mantissa (Nat.two_pow_pos 52) e
    rw [Nat.cast_pow, Nat.cast_ofNat, div_self (by positivity), Real.logb_one, add_zero] at hmantissa
    rw [hmantissa, zpow_zero, mul_one]
  rw [F64.log2c_twoPow, hlog]
  exact roundDyadic_rounds _ _

theorem log2c_eq {m : ℕ} (hm : m ≠ 2 ^ 52) (e : ℤ) :
    F64.log2c ⟨m, e⟩ = roundDyadic (2 * ((e + 52) * 2 ^ 128 + logFloor m) + 1) (-129) := by
  simp only [F64.log2c, Int.toNat_natCast, if_neg hm]

/-- `log2c` is the correctly rounded logarithm: half a unit above the exact floor rounds as the logarithm itself. -/
theorem log2c_rounds {m : ℕ} (hlo : 2 ^ 52 ≤ m) (hhi : m < 2 ^ 53) (e : ℤ) :
    (F64.log2c ⟨m, e⟩).Rounds (Real.logb 2 ((m : ℝ) * 2 ^ e)) := by
  rcases hlo.eq_or_lt with rfl | hlt
  · exact_mod_cast log2c_twoPow_rounds e
  · have hunit := inUnit_logb_two hlt hhi e
    rw [log2c_eq hlt.ne']
    exact (roundDyadic_rounds _ _).of_inUnit_abs hunit (inUnit_middle _) (hunit.index_away (logb_two_away hlt hhi e))

/-- Settles O59: squaring finds the digits of the floor, and nothing between the floor and the logarithm is a boundary of
rounding. -/
theorem logarithmDigitsAreExact : Obligations.LogarithmDigitsAreExact := by
  refine ⟨fun m d => ?_, fun m hlo hhi => ⟨logFloor_exact hlo hhi, fun e => log2c_rounds hlo hhi e⟩⟩
  have hexact := logDigits_exact (n := 128) (m := m) (d := d)
  rwa [show logBits + 1 = 513 from rfl, show logBits = 512 from rfl] at hexact

end Sys2Proof.Machine
end

section
/-! SUPPORT and O40, O41. The flattened lattice as the cells in order (R280), the round digests as the recurrence of R281,
the hex string character by character (R285), and the completions of `FOLD` and `HEX` (R283, R285). -/

namespace Sys2Proof.Machine

/-! The flattened lattice (R280). -/

/-- A listed memory whose least address is defined begins with that cell. -/
theorem Memory.head_of_defined {m : Memory} {i : Nat} (hwf : m.wf = true) (hlow : ∀ c ∈ m, i ≤ c.1)
    (hdefined : m.read i ≠ none) : ∃ (b : Byte) (rest : Memory), m = (i, b) :: rest := by
  cases m with
  | nil => exact absurd rfl hdefined
  | cons c rest =>
    obtain ⟨b, hread⟩ := Option.ne_none_iff_exists'.mp hdefined
    rcases List.mem_cons.mp (Memory.mem_of_read hread) with rfl | hmem
    · exact ⟨b, rest, rfl⟩
    · have hhead := hlow c (by simp)
      have htail := Memory.lt_of_mem_tail hwf hmem
      omega

/-- The bytes of `n` defined cells are what reading each of them in ascending order gives. -/
theorem flatBytes_eq_map_read {n i : Nat} {m : Memory} (hwf : m.wf = true) (hlow : ∀ c ∈ m, i ≤ c.1)
    (hdefined : ∀ x, i ≤ x → x < i + n → m.read x ≠ none) :
    flatBytes n i m = (List.range' i n).map fun x => (m.read x).getD 0 := by
  induction n generalizing i m with
  | zero => rfl
  | succ n ih =>
    obtain ⟨b, rest, rfl⟩ := Memory.head_of_defined hwf hlow (hdefined i le_rfl (by omega))
    have hrest : ∀ x, i + 1 ≤ x → Memory.read ((i, b) :: rest) x = Memory.read rest x := fun x hx => by
      rw [Memory.read_cons, if_neg (by simp; omega)]
    have htail := ih (i := i + 1) (Memory.wf_tail hwf) (fun c hc => Memory.lt_of_mem_tail hwf hc)
      fun x hx hlt => hrest x hx ▸ hdefined x (by omega) (by omega)
    rw [flatBytes, if_pos rfl, htail, List.range'_succ, List.map_cons, Memory.read_cons, if_pos rfl, Option.getD_some]
    congr 1
    refine List.map_congr_left fun x hx => ?_
    rw [hrest x (List.mem_range'_1.mp hx).1]

/-- A lattice without an undefined cell, flattened (R40, R280). -/
theorem flatLattice_of_latV {w : Internal} (h : w.Inv) (hlat : w.latV = true) :
    flatLattice w.lat = (List.range (2 ^ 24)).map fun x => (w.lat.read x).getD 0 := by
  rw [← latSize_eq, List.range_eq_range']
  exact flatBytes_eq_map_read h.latForm (fun _ _ => Nat.zero_le _) fun x _ hx => h.latDefined hlat x (by omega)

/-! The round digests (R281). -/

/-- Digests that follow the recurrence of R281 are the round digests, whatever round they are taken from. -/
theorem roundDigests_eq_map {spMode : Bool} {flatLat : List Byte} {d : Nat → List Byte} (n i : Nat)
    (hnext : ∀ k, i ≤ k → k < i + n → d (k + 1) =
      if spMode then sha512 (d k) else sha512 (flatLat ++ ((List.range (k + 1)).map d).flatten)) :
    roundDigests spMode n (flatLat ++ ((List.range i).map d).flatten) (d i) = (List.range' (i + 1) n).map d := by
  induction n generalizing i with
  | zero => rfl
  | succ n ih =>
    have habsorbed : flatLat ++ ((List.range i).map d).flatten ++ d i =
        flatLat ++ ((List.range (i + 1)).map d).flatten := by
      simp [List.range_succ]
    have htail := ih (i + 1) fun k hk hlt => hnext k (by omega) (by omega)
    rw [roundDigests, habsorbed, ← hnext i le_rfl (by omega), List.range'_succ, List.map_cons]
    exact congrArg (d (i + 1) :: ·) htail

theorem spongeDigests_eq {spMode : Bool} {flatLat : List Byte} {d : Nat → List Byte} (hfirst : d 0 = sha512 flatLat)
    (hnext : ∀ k < 6, d (k + 1) =
      if spMode then sha512 (d k) else sha512 (flatLat ++ ((List.range (k + 1)).map d).flatten)) :
    spongeDigests spMode flatLat = [d 1, d 2, d 3, d 4, d 5, d 6] := by
  have h := roundDigests_eq_map 6 0 fun k _ hk => hnext k (by omega)
  rwa [List.range_zero, List.map_nil, List.flatten_nil, List.append_nil, hfirst] at h

/-! The digest buffer (R282). -/

/-- A string that fits a buffer stands at its start, and zeros fill the rest. -/
theorem padTo_of_le {n : Nat} {b : List Byte} (h : b.length ≤ n) : padTo n b = b ++ List.replicate (n - b.length) 0 := by
  rw [padTo, List.take_append, List.take_of_length_le h, List.take_replicate, Nat.min_eq_left (Nat.sub_le _ _)]

theorem digestBuffer_trunc64 {ds : List (List Byte)} (h : (ds.getD 5 []).length = 64) :
    digestBuffer true ds = ds.getD 5 [] ++ List.replicate 320 0 := by
  rw [digestBuffer, if_pos rfl, padTo_of_le (by omega), h]

theorem digestBuffer_cat384 {ds : List (List Byte)} (h : ds.flatten.length = 384) :
    digestBuffer false ds = ds.flatten := by
  rw [digestBuffer, if_neg (by simp), padTo_of_le h.le, h, Nat.sub_self, List.replicate_zero, List.append_nil]

/-- The buffer of six digests of 64 bytes: the last and zeros, or all of them in order. -/
theorem digestBuffer_six {outLen : Bool} {d : Nat → List Byte} (hlen : ∀ k < 6, (d (k + 1)).length = 64) :
    digestBuffer outLen [d 1, d 2, d 3, d 4, d 5, d 6] =
      if outLen then d 6 ++ List.replicate 320 0 else d 1 ++ d 2 ++ d 3 ++ d 4 ++ d 5 ++ d 6 := by
  cases outLen with
  | true => exact digestBuffer_trunc64 (hlen 5 (by omega))
  | false =>
    rw [digestBuffer_cat384]
    · simp
    · simp [hlen 0, hlen 1, hlen 2, hlen 3, hlen 4, hlen 5]

/-! The completion of `FOLD`. -/

theorem exec_fold_running {s : State} {r : Running} (hrun : s.cur = some r) (hop : r.op = .fold) {dig : List Byte}
    (hdig : digestBuffer r.args.outLen (spongeDigests r.args.spMode (flatLattice s.int.lat)) = dig) :
    exec .fold s = .next { s with
      int := { s.int with dig := dig, digLen := digestLength r.args.outLen, digV := true, hexV := false }
      cur := none, done := true, err := .ok } := by
  have hexec : exec .fold s = s.command .fold fun r =>
    s.completeWith (foldEffect r.args.spMode r.args.outLen s.int) := rfl
  rw [hexec, State.command_running hrun hop, foldEffect_eq _ _ s.int hdig rfl]
  rfl

/-- Settles O40: the flattened lattice is `flatLattice`, and digests with the recurrence of R281 are the sponge's. -/
theorem foldCompletes : Obligations.FoldCompletes := by
  intro s r d hinv hlat hrun hop flatLat hfirst hnext
  have hflat : flatLattice s.int.lat = flatLat := flatLattice_of_latV hinv.int hlat
  have hlen : ∀ k < 6, (d (k + 1)).length = 64 := fun k hk => by
    rw [hnext k hk]
    split <;> exact sha512_length _
  refine exec_fold_running hrun hop ?_
  rw [hflat, spongeDigests_eq hfirst hnext, digestBuffer_six hlen]

/-! The hex string (R285). -/

/-- The characters of the first `n` digest bytes. -/
def hexString (dig : List Byte) (n : Nat) : List Byte := (List.range n).flatMap fun j => hexPair (dig.getD j 0)

theorem hexString_succ (dig : List Byte) (n : Nat) :
    hexString dig (n + 1) = hexString dig n ++ hexPair (dig.getD n 0) := by
  simp [hexString, List.range_succ]

@[simp] theorem hexString_length (dig : List Byte) (n : Nat) : (hexString dig n).length = 2 * n := by
  induction n with
  | zero => rfl
  | succ n ih => rw [hexString_succ, List.length_append, ih]; rfl

/-- Characters 2j and 2j+1 are the two of byte j. -/
theorem hexString_getElem? (dig : List Byte) {n j i : Nat} (hj : j < n) (hi : i < 2) :
    (hexString dig n)[2 * j + i]? = (hexPair (dig.getD j 0))[i]? := by
  induction n with
  | zero => omega
  | succ n ih =>
    rw [hexString_succ]
    by_cases hlast : j = n
    · subst hlast
      rw [List.getElem?_append_right (by simp), hexString_length, Nat.add_sub_cancel_left]
    · rw [List.getElem?_append_left (by rw [hexString_length]; omega), ih (by omega)]

/-- The buffer of a digest that fits is its hex string and zeros. -/
theorem hexBuffer_eq (dig : List Byte) {n : Nat} (hn : n ≤ 384) :
    hexBuffer dig n = hexString dig n ++ List.replicate (768 - 2 * n) 0 := by
  have hlen : (hexString dig n).length ≤ 768 := by rw [hexString_length]; omega
  calc hexBuffer dig n = padTo 768 (hexString dig n) := rfl
    _ = _ := by rw [padTo_of_le hlen, hexString_length]

theorem hexBuffer_getElem?_char (dig : List Byte) {n j i : Nat} (hn : n ≤ 384) (hj : j < n) (hi : i < 2) :
    (hexBuffer dig n)[2 * j + i]? = (hexPair (dig.getD j 0))[i]? := by
  rw [hexBuffer_eq dig hn, List.getElem?_append_left (by rw [hexString_length]; omega), hexString_getElem? dig hj hi]

theorem hexBuffer_getElem?_tail (dig : List Byte) {n j : Nat} (hn : n ≤ 384) (hj : 2 * n ≤ j) (hlt : j < 768) :
    (hexBuffer dig n)[j]? = some 0 := by
  rw [hexBuffer_eq dig hn, List.getElem?_append_right (by rwa [hexString_length]), hexString_length,
    List.getElem?_replicate_of_lt (by omega)]

theorem hexChar_eq (n : Nat) : hexChar n = .ofNat 8 (if n < 10 then 0x30 + n else 0x61 + (n - 10)) := by
  rw [hexChar, apply_ite (BitVec.ofNat 8)]

theorem Internal.Inv.digLen_le {w : Internal} (h : w.Inv) : w.digLen.toNat ≤ 384 := by
  rcases h.digLength with hl | hl | hl <;> rw [hl] <;> decide

/-! The completion of `HEX`. -/

theorem exec_hex_running {s : State} {r : Running} (hrun : s.cur = some r) (hop : r.op = .hex) :
    exec .hex s = .next { s with
      int := { s.int with hexb := hexBuffer s.int.dig s.int.digLen.toNat, hexV := true }
      cur := none, done := true, err := .ok } := by
  have hexec : exec .hex s = s.command .hex fun _ => s.completeWith (hexEffect s.int) := rfl
  rw [hexec, State.command_running hrun hop, hexEffect_eq s.int rfl]
  rfl

/-- Settles O41: the buffer is the hex string of the digest's bytes and zeros. -/
theorem hexCompletes : Obligations.HexCompletes := by
  intro s r hinv hrun hop hexch
  have hn := hinv.int.digLen_le
  refine ⟨hexBuffer s.int.dig s.int.digLen.toNat, hexBuffer_length _ _, fun j hj => ?_,
    fun j => hexBuffer_getElem?_tail _ hn, exec_hex_running hrun hop⟩
  have hdig : j < s.int.dig.length := by rw [hinv.int.digSize]; omega
  refine ⟨s.int.dig[j], List.getElem?_eq_getElem hdig, ?_, ?_⟩
  · have h := hexBuffer_getElem?_char s.int.dig hn hj (i := 0) (by omega)
    rwa [List.getD_eq_getElem _ _ hdig, hexPair, List.getElem?_cons_zero, hexChar_eq] at h
  · have h := hexBuffer_getElem?_char s.int.dig hn hj (i := 1) (by omega)
    rwa [List.getD_eq_getElem _ _ hdig, hexPair, List.getElem?_cons_succ, List.getElem?_cons_zero, hexChar_eq] at h

end Sys2Proof.Machine
end

section
/-! SUPPORT and O31. Runs step by step, and the life of a `NOP` from its issue to its completion (R287, R301, R303). -/

namespace Sys2Proof.Machine

/-! Runs. -/

theorem core_run_succ {M : Host.Core} {s t : M.State} (h : M.step s = .next t) (n : Nat) :
    M.run (n + 1) s = M.run n t := by
  simp only [Host.Core.run, h]

/-- A run of one step more. -/
theorem run_of_step {s t u : State} {n : Nat} (hstep : step s = .next t)
    (hrun : Host.Core.run Sys2Proof.core n t = .next u) : Host.Core.run Sys2Proof.core (n + 1) s = .next u :=
  (core_run_succ (M := Sys2Proof.core) hstep n).trans hrun

/-- With no event pending it is the engine's turn (R300; assumption log entry 19). -/
theorem step_no_event {s : State} {r : Running} (hreset : s.inReset = false) (hinputs : s.inputs = [])
    (hrun : s.cur = some r) : step s = exec r.op.instr s := by
  refine step_of_run ?_
  rw [State.turn_nil hinputs, hreset, State.engineTurn_running hrun]
  rfl

/-- The engine's pending turn outside reset runs the command on the state without it (R300). -/
theorem step_engine {s : State} {r : Running} {rest : List Event} (hinputs : s.inputs = .engine :: rest)
    (hreset : s.inReset = false) (hrun : s.cur = some r) :
    step s = exec r.op.instr { s with inputs := rest } := by
  refine step_of_run ?_
  rw [State.turn_cons hinputs, State.eventTurn]
  exact (if_neg (by simp [hreset])).trans (State.engineTurn_running (s := { s with inputs := rest }) hrun)

/-! `NOP` (R287). -/

theorem exec_nop_running {s : State} {r : Running} (hrun : s.cur = some r) (hop : r.op = .nop) :
    exec .nop s = .next { s with cur := none, done := true, err := .ok } :=
  State.command_running hrun hop

/-- The engine's pending turn completes a running `NOP`. -/
theorem step_engine_nop {s : State} {r : Running} {rest : List Event} (hinputs : s.inputs = .engine :: rest)
    (hreset : s.inReset = false) (hrun : s.cur = some r) (hop : r.op = .nop) :
    step s = .next { s with cur := none, inputs := rest, done := true, err := .ok } := by
  rw [step_engine hinputs hreset hrun, hop]
  exact exec_nop_running (s := { s with inputs := rest }) hrun hop

/-- A `NOP` passes both checks of the issue, so that an idle engine accepts it (R301, R342, R343). -/
theorem issue_nop_idle {s : State} (hidle : s.cur = none) : s.issue .nop = (s.accept .nop s.sample).ack := by
  have hbusy := s.busy_eq_false_iff.mpr hidle
  simp [State.issue, hbusy, flagsHold, rangeFails]

/-- The host's write of `NOP` to `CMD` on an idle engine starts it. -/
theorem step_issue_nop {s : State} {rest : List Event} (hinputs : s.inputs = .host 0x500C 0 :: rest)
    (hreset : s.inReset = false) (hidle : s.cur = none) :
    step s = .next (({ s with inputs := rest } : State).accept .nop s.sample).ack := by
  rw [step_host hinputs hreset]
  exact congrArg Host.Outcome.next (issue_nop_idle (s := { s with inputs := rest }) hidle)

/-- Settles O31: the access starts the `NOP` and the engine's turn completes it. -/
theorem nopLifecycle : Obligations.NopLifecycle := by
  refine ⟨fun s r => exec_nop_running, fun s hidle hreset hinputs => ?_⟩
  have hissue (rest : List Event) :
      step { s with inputs := .host 0x500C 0 :: rest } =
        .next (({ s with inputs := rest } : State).accept .nop s.sample).ack :=
    step_issue_nop (s := { s with inputs := .host 0x500C 0 :: rest }) rfl hreset hidle
  have hturn : step (({ s with inputs := [.engine] } : State).accept .nop s.sample).ack =
      .next { s with cur := none, inputs := [], done := true, err := .ok, resp := .ack } :=
    step_engine_nop rfl hreset rfl rfl
  have hlast : ({ s with cur := none, inputs := [], done := true, err := .ok, resp := .ack } : State) =
      { s with done := true, err := .ok, resp := .ack } := by rw [← hidle, ← hinputs]
  refine ⟨_, _, hissue [], rfl, rfl,
    run_of_step (hissue [.engine]) (run_of_step hturn (congrArg Host.Outcome.next hlast)), rfl, ?_, ?_⟩
  · exact Bool.and_true s.ie
  · rintro rfl
    rfl

end Sys2Proof.Machine
end

section
/-! SUPPORT, O43, O45 and O47. The stages of a `DIGEST`, each as the command of that name run alone, and the ten of them
in order as one function of the input, the modes and the internal state, which forgets that state (R288, R289). -/

namespace Sys2Proof.Machine

/-! The turns of a `DIGEST` (R288). -/

/-- The sub-commands of a `DIGEST` in order. -/
def digestOrder : List Op := [.chain, .rngseed, .gen, .load, .chaos, .entropy, .diffuse, .walk, .fold, .hex]

theorem nextSub_digestOrder {n : Nat} {sub : Op} (h : digestOrder[n]? = some sub) :
    nextSub sub = digestOrder[n + 1]? := by
  have hn : n < 10 := (List.getElem?_eq_some_iff.mp h).1
  interval_cases n <;> cases h <;> rfl

/-- The command of a stage running alone: with the operands of the `DIGEST` and the seed that its stages made. -/
def Running.alone (r : Running) (sub : Op) (seed : BitVec 256) : Running :=
  { op := sub, args := { r.args with seed := seed }, stage := none, touched := r.touched }

/-- The state in which it runs: on the stages' internal state. -/
def State.alone (s : State) (r : Running) (sub : Op) (w : Internal) : State :=
  { s with int := w, cur := some (r.alone sub w.seed) }

/-- A command alone has the effect of its stage. -/
theorem exec_alone (s : State) (r : Running) {sub : Op} (hsub : sub ≠ .digest) (w : Internal) :
    exec sub.instr (s.alone r sub w) = .next (((s.alone r sub w).complete (s.subEffect r sub w).1
      (s.subEffect r sub w).2).tick (inputCount sub r.args)) := by
  have hop : (r.alone sub w.seed).op ≠ .digest := hsub
  rw [exec_instr, State.command_running (op := sub) (r := r.alone sub w.seed) rfl rfl, State.commandTurn, if_neg hop]
  cases sub <;> rfl

theorem exec_digest_running {s : State} {r : Running} (hrun : s.cur = some r) (hop : r.op = .digest) :
    exec .digest s = .next (s.digestTurn r) :=
  State.command_running hrun hop

theorem step_digest {s : State} {r : Running} (hreset : s.inReset = false) (hinputs : s.inputs = [])
    (hrun : s.cur = some r) (hop : r.op = .digest) : step s = .next (s.digestTurn r) := by
  rw [step_no_event hreset hinputs hrun, hop]
  exact exec_digest_running hrun hop

/-- A stage that ends with `OK` hands its state to the next one. -/
theorem State.digestTurn_next {s : State} {r : Running} {sub next : Op} {w : Internal} (hstage : r.stage = some ⟨sub, w⟩)
    (hok : (s.subEffect r sub w).2 = .ok) (hnext : nextSub sub = some next) :
    s.digestTurn r = (s.tick (inputCount sub r.args)).setStage r ⟨next, (s.subEffect r sub w).1⟩ := by
  simp [State.digestTurn, hstage, hok, hnext]

/-- The last stage, or one that ends with an error, completes the `DIGEST`. -/
theorem State.digestTurn_end {s : State} {r : Running} {sub : Op} {w : Internal} (hstage : r.stage = some ⟨sub, w⟩)
    (hend : (s.subEffect r sub w).2 ≠ .ok ∨ nextSub sub = none) :
    s.digestTurn r = (s.tick (inputCount sub r.args)).complete (s.subEffect r sub w).1 (s.subEffect r sub w).2 := by
  rcases s.digestTurn_cases r with ⟨hnone, -⟩ | ⟨st, next, hst, hok, hnext, -⟩ | ⟨st, hst, -, hturn⟩
  · simp [hstage] at hnone
  · obtain rfl := Option.some.inj (hstage.symm.trans hst)
    rcases hend with herr | hlast
    · exact absurd hok herr
    · simp [hlast] at hnext
  · obtain rfl := Option.some.inj (hstage.symm.trans hst)
    exact hturn

/-- Settles O43: the turn of a stage and the command alone have the same effect, and `nextSub` walks the list. -/
theorem digestTurns : Obligations.DigestTurns := by
  intro s r hrun hop order
  refine ⟨fun hstage => ?_, fun n sub w hsub hstage => ?_⟩
  · rw [exec_digest_running hrun hop, State.digestTurn, hstage]
    rfl
  · have hnext : nextSub sub = order[n + 1]? := nextSub_digestOrder hsub
    have hne : sub ≠ .digest := by
      rintro rfl
      exact absurd (List.mem_of_getElem? hsub) (by simp [order])
    refine ⟨_, exec_alone s r hne w, fun sub' hok hsub' => ?_, fun hend => ?_⟩
    · rw [exec_digest_running hrun hop, State.digestTurn_next hstage hok (hnext.trans hsub')]
      rfl
    · have hlast : n = 9 → nextSub sub = none := by
        rintro rfl
        exact hnext
      rw [exec_digest_running hrun hop, State.digestTurn_end hstage (hend.imp_right hlast)]
      rfl

/-! The pipeline (R288). -/

/-- What a sub-command of a `DIGEST` of the input `x` makes of the internal state. -/
def stageEffect (x : List Byte) (spMode outLen : Bool) (w : Internal) (sub : Op) : Internal :=
  match sub with
  | .chain => (chainEffect (some x) w).1
  | .rngseed => (rngseedEffect w.seed w).1
  | .gen => (genEffect w).1
  | .load => (loadEffect (min x.length latSize) (some (x.take latSize)) w).1
  | .chaos => (chaosEffect w).1
  | .entropy => (entropyEffect (some x) w).1
  | .diffuse => (diffuseEffect w).1
  | .walk => (walkEffect w).1
  | .fold => (foldEffect spMode outLen w).1
  | .hex => (hexEffect w).1
  | .latzero => (latzeroEffect w).1
  | .nop | .digest => w

/-- On a stable input every sub-command has its effect and ends with `OK`. -/
theorem State.subEffect_stable {s : State} {r : Running} {x : List Byte} (hstable : s.stableInput r x)
    (hlen : x.length = r.args.inLen.toNat) (sub : Op) (w : Internal) :
    s.subEffect r sub w = (stageEffect x r.args.spMode r.args.outLen w sub, .ok) := by
  have hinput : s.input r r.args.inLen.toNat = some x := hlen ▸ State.input_of_stable hstable
  have hload : s.input r (min x.length latSize) = some (x.take latSize) := by
    have h := State.input_of_stable (State.stableInput_take hstable latSize)
    rwa [List.length_take, Nat.min_comm] at h
  cases sub
  case load =>
    have hcount : inputCount .load r.args = min x.length latSize := hlen ▸ rfl
    simp only [State.subEffect, stageEffect, hcount, hload]
    exact Prod.ext rfl (by simp)
  case chain | entropy => simp only [State.subEffect, stageEffect, inputCount, hinput]; rfl
  all_goals rfl

/-- Outside reset and with no event pending, `r` is a `DIGEST` of the readable input `x`. -/
structure State.Digesting (s : State) (r : Running) (x : List Byte) : Prop where
  noReset : s.inReset = false
  noEvent : s.inputs = []
  op : r.op = .digest
  stable : s.stableInput r x
  length : x.length = r.args.inLen.toNat

/-- A `DIGEST` in the stage `sub`. -/
def Running.atStage (r : Running) (sub : Op) (w : Internal) : Running := { r with stage := some ⟨sub, w⟩ }

/-- The state of a `DIGEST` in the stage `sub`. -/
def State.atStage (s : State) (r : Running) (sub : Op) (w : Internal) (fresh : Nat) : State :=
  { s with cur := some (r.atStage sub w), fresh := fresh }

section
variable {s : State} {r : Running} {x : List Byte}

/-- The first step of a `DIGEST` starts its `CHAIN`. -/
theorem State.Digesting.step_start (h : s.Digesting r x) (hrun : s.cur = some r) (hstage : r.stage = none) :
    step s = .next (s.atStage r .chain s.int s.fresh) := by
  rw [step_digest h.noReset h.noEvent hrun h.op, State.digestTurn, hstage]
  rfl

theorem State.Digesting.subEffect_atStage (h : s.Digesting r x) (sub : Op) (w : Internal) (n : Nat) :
    (s.atStage r sub w n).subEffect (r.atStage sub w) sub w =
      (stageEffect x r.args.spMode r.args.outLen w sub, .ok) :=
  State.subEffect_stable (s := s.atStage r sub w n) (r := r.atStage sub w) h.stable h.length sub w

/-- A step in a stage that another one follows. -/
theorem State.Digesting.step_next (h : s.Digesting r x) {sub next : Op} (hnext : nextSub sub = some next) (w : Internal)
    (n : Nat) : step (s.atStage r sub w n) =
      .next (s.atStage r next (stageEffect x r.args.spMode r.args.outLen w sub) (n + inputCount sub r.args)) := by
  have heffect := h.subEffect_atStage sub w n
  have hturn := State.digestTurn_next (s := s.atStage r sub w n) (r := r.atStage sub w)
    rfl (congrArg Prod.snd heffect) hnext
  rw [heffect] at hturn
  exact (step_digest (s := s.atStage r sub w n) (r := r.atStage sub w) h.noReset h.noEvent rfl h.op).trans
    (congrArg Host.Outcome.next hturn)

/-- The step in the last stage. -/
theorem State.Digesting.step_last (h : s.Digesting r x) {sub : Op} (hlast : nextSub sub = none) (w : Internal)
    (n : Nat) : step (s.atStage r sub w n) = .next { s with
      int := stageEffect x r.args.spMode r.args.outLen w sub
      cur := none, done := true, err := .ok, fresh := n + inputCount sub r.args } := by
  have heffect := h.subEffect_atStage sub w n
  have hturn := State.digestTurn_end (s := s.atStage r sub w n) (r := r.atStage sub w)
    rfl (.inr hlast)
  rw [heffect] at hturn
  exact (step_digest (s := s.atStage r sub w n) (r := r.atStage sub w) h.noReset h.noEvent rfl h.op).trans
    (congrArg Host.Outcome.next hturn)

/-- The sub-commands that follow one another up to the last. -/
def followedBy : Op → List Op → Prop
  | sub, [] => nextSub sub = none
  | sub, next :: rest => nextSub sub = some next ∧ followedBy next rest

/-- The turns from a stage on: each takes the state that the one before left, and the reads add up. -/
theorem State.Digesting.run_stages (h : s.Digesting r x) {sub : Op} {rest : List Op} (hrest : followedBy sub rest)
    (w : Internal) (n : Nat) :
    Host.Core.run Sys2Proof.core (rest.length + 1) (s.atStage r sub w n) = .next { s with
      int := (sub :: rest).foldl (stageEffect x r.args.spMode r.args.outLen) w
      cur := none, done := true, err := .ok, fresh := n + ((sub :: rest).map (inputCount · r.args)).sum } := by
  induction rest generalizing sub w n with
  | nil => exact run_of_step (h.step_last hrest w n) rfl
  | cons next rest ih =>
    obtain ⟨hnext, hrest⟩ := hrest
    have hrun := ih hrest (stageEffect x r.args.spMode r.args.outLen w sub) (n + inputCount sub r.args)
    rw [Nat.add_assoc, ← List.sum_cons] at hrun
    exact run_of_step (h.step_next hnext w n) hrun

/-- The internal state that a `DIGEST` of the input `x` makes. -/
def digestResult (x : List Byte) (spMode outLen : Bool) (w : Internal) : Internal :=
  digestOrder.foldl (stageEffect x spMode outLen) w

/-- `CHAIN`, `LOAD` and `ENTROPY` read the input. -/
theorem digestOrder_reads {args : Operands} (hlen : x.length = args.inLen.toNat) :
    (digestOrder.map (inputCount · args)).sum = x.length + min x.length latSize + x.length := by
  simp [digestOrder, inputCount, hlen, Nat.add_assoc]

/-- The eleven turns of a `DIGEST` of readable input. -/
theorem State.Digesting.run_digest (h : s.Digesting r x) (hrun : s.cur = some r) (hstage : r.stage = none) :
    Host.Core.run Sys2Proof.core 11 s = .next { s with
      int := digestResult x r.args.spMode r.args.outLen s.int, cur := none, done := true, err := .ok
      fresh := s.fresh + (x.length + min x.length latSize + x.length) } := by
  have hstages := h.run_stages (sub := .chain) (rest := digestOrder.tail) (by simp [digestOrder, followedBy, nextSub])
    s.int s.fresh
  rw [← digestOrder_reads h.length]
  exact run_of_step (h.step_start hrun hstage) hstages

end

/-- Settles O45: the composition of the ten effects is `digestResult`. -/
theorem digestRunsThePipeline : Obligations.DigestRunsThePipeline := by
  intro s r x hreset hinputs hrun hop hstage hstable hlen w1 w2 w3 w4 w5 w6 w7 w8 w9
  exact State.Digesting.run_digest ⟨hreset, hinputs, hop, hstable, hlen⟩ hrun hstage

/-! The state before a `DIGEST` (R288, R289). Two internal states go through the ten stages side by side, and what they
differ in shrinks to nothing. The draws, the walk and the seeding stand under names, so that none is evaluated. -/

/-- `w` with the digest, its hex string and their flags from `v`. -/
def Internal.withDigest (w v : Internal) : Internal :=
  { w with dig := v.dig, digLen := v.digLen, hexb := v.hexb, digV := v.digV, hexV := v.hexV }

/-- `w` with the entropy, the digest, its hex string and their flags from `v`. -/
def Internal.withReport (w v : Internal) : Internal := { w.withDigest v with ent := v.ent }

@[simp] theorem Internal.withDigest_lat (w v : Internal) : (w.withDigest v).lat = w.lat := rfl
@[simp] theorem Internal.withDigest_mt (w v : Internal) : (w.withDigest v).mt = w.mt := rfl
@[simp] theorem Internal.withReport_mt (w v : Internal) : (w.withReport v).mt = w.mt := rfl

theorem genEffect_withReport (w v : Internal) : (genEffect (w.withReport v)).1 = (genEffect w).1.withReport v := by
  obtain ⟨lat, hlat⟩ : ∃ lat, (drawCells latSize 0 w.mt).1 = lat := ⟨_, rfl⟩
  obtain ⟨mt, hmt⟩ : ∃ mt, (drawCells latSize 0 w.mt).2 = mt := ⟨_, rfl⟩
  rw [genEffect_eq w hlat hmt, genEffect_eq (w.withReport v) (by rw [Internal.withReport_mt, hlat])
    (by rw [Internal.withReport_mt, hmt])]
  rfl

theorem walkEffect_withDigest (w v : Internal) : (walkEffect (w.withDigest v)).1 = (walkEffect w).1.withDigest v := by
  obtain ⟨lat, hlat⟩ : ∃ lat, (walk walkIterations (w.lat, w.mt)).1 = lat := ⟨_, rfl⟩
  obtain ⟨mt, hmt⟩ : ∃ mt, (walk walkIterations (w.lat, w.mt)).2 = mt := ⟨_, rfl⟩
  rw [walkEffect_eq w hlat hmt, walkEffect_eq (w.withDigest v)
    (by rw [Internal.withDigest_lat, Internal.withDigest_mt, hlat])
    (by rw [Internal.withDigest_lat, Internal.withDigest_mt, hmt])]
  rfl

section
variable (x : List Byte) (spMode outLen : Bool) (w v : Internal)

/-- `CHAIN` and `RNGSEED` leave nothing of the old seed, generator and lattice. -/
theorem stageEffect_chain_rngseed :
    stageEffect x spMode outLen (stageEffect x spMode outLen v .chain) .rngseed =
      (stageEffect x spMode outLen (stageEffect x spMode outLen w .chain) .rngseed).withReport v := by
  obtain ⟨seed, hseed⟩ : ∃ seed, chainSeed x = seed := ⟨_, rfl⟩
  obtain ⟨mt, hmt⟩ : ∃ mt, initByArray (keyOf seed) = mt := ⟨_, rfl⟩
  simp only [stageEffect, chainEffect_ok_eq x _ hseed, rngseedEffect_eq _ _ hmt]
  rfl

/-- `GEN`, `LOAD` and `CHAOS` neither read nor write the entropy and the digest. -/
theorem stageEffect_withReport {sub : Op} (hsub : sub ∈ [Op.gen, .load, .chaos]) :
    stageEffect x spMode outLen (w.withReport v) sub = (stageEffect x spMode outLen w sub).withReport v := by
  simp only [List.mem_cons, List.not_mem_nil, or_false] at hsub
  rcases hsub with rfl | rfl | rfl
  · exact genEffect_withReport w v
  · rfl
  · rfl

/-- `ENTROPY` overwrites the old entropy. -/
theorem stageEffect_entropy :
    stageEffect x spMode outLen (w.withReport v) .entropy = (stageEffect x spMode outLen w .entropy).withDigest v := rfl

/-- `DIFFUSE` and `WALK` neither read nor write the digest. -/
theorem stageEffect_withDigest {sub : Op} (hsub : sub ∈ [Op.diffuse, .walk]) :
    stageEffect x spMode outLen (w.withDigest v) sub = (stageEffect x spMode outLen w sub).withDigest v := by
  simp only [List.mem_cons, List.not_mem_nil, or_false] at hsub
  rcases hsub with rfl | rfl
  · rfl
  · exact walkEffect_withDigest w v

/-- `FOLD` and `HEX` leave nothing of the old digest. -/
theorem stageEffect_fold_hex :
    stageEffect x spMode outLen (stageEffect x spMode outLen (w.withDigest v) .fold) .hex =
      stageEffect x spMode outLen (stageEffect x spMode outLen w .fold) .hex := rfl

/-- What a `DIGEST` makes of the internal state does not depend on that state. -/
theorem digestResult_eq : digestResult x spMode outLen w = digestResult x spMode outLen v := by
  simp only [digestResult, digestOrder, List.foldl_cons, List.foldl_nil]
  rw [stageEffect_chain_rngseed x spMode outLen w v, stageEffect_withReport (sub := .gen) _ _ _ _ _ (by simp),
    stageEffect_withReport (sub := .load) _ _ _ _ _ (by simp),
    stageEffect_withReport (sub := .chaos) _ _ _ _ _ (by simp), stageEffect_entropy,
    stageEffect_withDigest (sub := .diffuse) _ _ _ _ _ (by simp),
    stageEffect_withDigest (sub := .walk) _ _ _ _ _ (by simp), stageEffect_fold_hex]

theorem digestResult_digLen : (digestResult x spMode outLen w).digLen = if outLen then 64 else 384 := by
  simp [digestResult, digestOrder, stageEffect, digestLength]

end

/-- Settles O47: both runs end with the `digestResult` of the input. -/
theorem digestIgnoresEarlierState : Obligations.DigestIgnoresEarlierState := by
  intro s s' r r' x hreset hinputs hrun hop hstage hstable hreset' hinputs' hrun' hop' hstage' hstable' hlen hlen'
    hspMode houtLen
  have hdigest := State.Digesting.run_digest ⟨hreset, hinputs, hop, hstable, hlen⟩ hrun hstage
  have hdigest' := State.Digesting.run_digest ⟨hreset', hinputs', hop', hstable', hlen'⟩ hrun' hstage'
  rw [← hspMode, ← houtLen] at hdigest'
  exact ⟨_, _, hdigest, hdigest', digestResult_eq _ _ _ _ _, digestResult_digLen _ _ _ _⟩

end Sys2Proof.Machine
end

section
/-! SUPPORT, O13 to O25, O27 and O28. The host accesses: the two descriptors of a register (R106), what a running
command makes of an access (R304, R305), the words that the registers read as, and one statement for each register
(R310 to R328). -/

namespace Sys2Proof.Machine

/-! Descriptors (R106). -/

/-- The descriptor of a 32-bit access as a number. -/
theorem descriptor_two (w : Bool) (off : BitVec 12) :
    descriptor 2 w off = .ofNat 15 (0x4000 + 0x1000 * w.toNat + off.toNat) := by
  have hw := w.toNat_lt
  have hoff := off.isLt
  have htwo : (2 : BitVec 2).toNat = 2 := rfl
  refine BitVec.eq_of_toNat_eq ?_
  rw [descriptor_toNat, htwo, BitVec.toNat_ofNat]
  omega

/-- The read and the write of the register at an offset. -/
theorem RegisterAt.accesses {off : BitVec 12} {read : Instr} {write : Word → Instr} (h : RegisterAt off read write)
    (d : Word) : decodeAccess (.ofNat 15 (0x4000 + off.toNat)) d = read ∧
      decodeAccess (.ofNat 15 (0x5000 + off.toNat)) d = write d := by
  have hread := h.decodeAccess_eq false d
  have hwrite := h.decodeAccess_eq true d
  rw [descriptor_two] at hread hwrite
  exact ⟨hread, hwrite⟩

/-- The read and the write of an aligned reserved offset (R323). -/
theorem decodeAccess_reserved {off : BitVec 12} (haligned : off.toNat % 4 = 0) (hreserved : reservedOffset off = true)
    (d : Word) : decodeAccess (.ofNat 15 (0x4000 + off.toNat)) d = .rsvd false off ∧
      decodeAccess (.ofNat 15 (0x5000 + off.toNat)) d = .rsvd true off := by
  have hwf (w : Bool) : (Instr.rsvd w off).wellFormed = true :=
    Bool.and_eq_true_iff.mpr ⟨(alignedOffset_iff off).mpr haligned, hreserved⟩
  have hread := decodeAccess_rsvd (hwf false) d
  have hwrite := decodeAccess_rsvd (hwf true) d
  rw [descriptor_two] at hread hwrite
  exact ⟨hread, hwrite⟩

/-! Answers (R304, R305). -/

section
variable {s : State}

/-- An answer with the same data. -/
theorem next_answer_congr {d d' : Word} (h : d = d') :
    (Host.Outcome.next (s.answer d) : Result) = .next { s with resp := .data d' } := by
  rw [h, State.answer]

theorem next_writeIdle_idle (hidle : s.cur = none) (effect : State → State) :
    (Host.Outcome.next (s.writeIdle effect) : Result) = .next (effect s).ack := by
  rw [s.writeIdle_idle effect (s.busy_eq_false_iff.mpr hidle)]

theorem next_writeIdle_busy (hbusy : s.cur ≠ none) (effect : State → State) :
    (Host.Outcome.next (s.writeIdle effect) : Result) = .next { s with ovr := true, resp := .ack } := by
  rw [s.writeIdle_busy effect (Option.isSome_iff_ne_none.mpr hbusy), State.overrun]

theorem next_readIdle_idle (hidle : s.cur = none) {d d' : Word} (h : d = d') :
    (Host.Outcome.next (s.readIdle d) : Result) = .next { s with resp := .data d' } := by
  rw [s.readIdle_idle d (s.busy_eq_false_iff.mpr hidle), next_answer_congr h]

theorem next_readIdle_busy (hbusy : s.cur ≠ none) (d : Word) :
    (Host.Outcome.next (s.readIdle d) : Result) = .next { s with resp := .data 0 } := by
  rw [s.readIdle_busy d (Option.isSome_iff_ne_none.mpr hbusy), State.answer]

end

/-! Fields of a word. -/

/-- A field that lies below the lowest bit of the rest is added to it. -/
theorem ofNat_or_ofNat {n low : Nat} (k high : Nat) (hlow : low < 2 ^ k) :
    BitVec.ofNat n (2 ^ k * high) ||| .ofNat n low = .ofNat n (2 ^ k * high + low) := by
  rw [Nat.two_pow_add_eq_or_of_lt hlow, BitVec.ofNat_or]

theorem ofNat_shiftLeft (n m k : Nat) : BitVec.ofNat n m <<< k = .ofNat n (2 ^ k * m) := by
  refine BitVec.eq_of_toNat_eq ?_
  rw [BitVec.toNat_shiftLeft, BitVec.toNat_ofNat, BitVec.toNat_ofNat, Nat.shiftLeft_eq, Nat.mul_comm,
    Nat.mul_mod_mod]

/-- A wider or narrower copy of a bit string is the string of its value. -/
theorem setWidth_eq_ofNat {m : Nat} (n : Nat) (x : BitVec m) : x.setWidth n = .ofNat n x.toNat := by
  rw [BitVec.ofNat_toNat]

theorem ofNat_mod_two_pow (n m : Nat) : BitVec.ofNat n (m % 2 ^ n) = .ofNat n m := by
  refine BitVec.eq_of_toNat_eq ?_
  rw [BitVec.toNat_ofNat, BitVec.toNat_ofNat, Nat.mod_mod]

theorem flagBit_eq_ofNat (b : Bool) (k : Nat) : flagBit b k = .ofNat 32 (2 ^ k * b.toNat) := by
  cases b
  · simp [flagBit]
  · simp [flagBit, BitVec.twoPow_eq, ofNat_shiftLeft]

/-- A flag below the lowest bit of the rest is added to it. -/
theorem ofNat_or_flagBit {m k : Nat} (hm : 2 ^ (k + 1) ∣ m) (b : Bool) :
    BitVec.ofNat 32 m ||| flagBit b k = .ofNat 32 (m + 2 ^ k * b.toNat) := by
  obtain ⟨high, rfl⟩ := hm
  have hlow : 2 ^ k * b.toNat < 2 ^ (k + 1) := by
    cases b <;> simp [Nat.pow_succ]
  rw [flagBit_eq_ofNat, ofNat_or_ofNat (k + 1) high hlow]

/-! `ID` and `CMD` (R310, R316). -/

/-- Settles O13: the answer to the read is a constant, and the write is taken. -/
theorem idAccess : Obligations.IdAccess := by
  intro s d
  obtain ⟨hread, hwrite⟩ := RegisterAt.id.accesses d
  exact ⟨hread, hwrite, rfl, rfl⟩

/-- Settles O16: the answer to the read is a constant. -/
theorem cmdRead : Obligations.CmdRead :=
  fun _ d => ⟨(RegisterAt.cmd.accesses d).1, rfl⟩

/-! `CTRL` and `STATUS` (R312, R314, R315). -/

theorem State.ctrlWord_eq_ofNat (s : State) :
    s.ctrlWord = .ofNat 32 (4 * s.outLen.toNat + 2 * s.spMode.toNat + s.ie.toNat) := by
  rw [State.ctrlWord, flagBit_eq_ofNat s.outLen]
  simp (disch := omega) only [ofNat_or_flagBit, Nat.reducePow, one_mul]

theorem ErrCode.code_shiftLeft (e : ErrCode) : e.code <<< 12 = .ofNat 32 (4096 * e.code.toNat) := by
  cases e <;> rfl

theorem State.statusWord_eq_ofNat (s : State) :
    s.statusWord = .ofNat 32 (4096 * s.err.code.toNat + 256 * s.int.hexV.toNat + 128 * s.int.digV.toNat +
      64 * s.int.latV.toNat + 32 * s.int.prngV.toNat + 16 * s.int.seedV.toNat + 4 * s.ovr.toNat + 2 * s.done.toNat +
      s.cur.isSome.toNat) := by
  rw [State.statusWord, ErrCode.code_shiftLeft]
  simp (disch := omega) only [ofNat_or_flagBit, Nat.reducePow, one_mul, State.busy]

/-- Settles O14: the word of the read is the sum of its fields, and the write is a protected one. -/
theorem ctrlAccess : Obligations.CtrlAccess := by
  intro s d
  obtain ⟨hread, hwrite⟩ := RegisterAt.ctrl.accesses d
  exact ⟨hread, hwrite, next_answer_congr s.ctrlWord_eq_ofNat, fun hidle => next_writeIdle_idle hidle _,
    fun hbusy => next_writeIdle_busy hbusy _⟩

/-- A report flag falls with its acknowledgement (R315). -/
theorem and_not_eq_ite (flag ackBit : Bool) : (flag && !ackBit) = if ackBit then false else flag := by
  cases ackBit <;> simp

/-- Settles O15: the word of the read is the sum of its fields, and the write is an acknowledgement in every state. -/
theorem statusAccess : Obligations.StatusAccess := by
  refine ⟨rfl, fun s d => ?_⟩
  obtain ⟨hread, hwrite⟩ := RegisterAt.status.accesses d
  refine ⟨hread, hwrite, next_answer_congr s.statusWord_eq_ofNat, ?_⟩
  rw [← and_not_eq_ite, ← and_not_eq_ite]
  rfl

/-! `IN_ADDR` and `IN_LEN` (R317, R318). -/

/-- The mask keeps the low bits (R317). -/
theorem and_lowmask_eq_ofNat (d : Word) (n : Nat) : d &&& lowmask n = .ofNat 32 (d.toNat % 2 ^ min n 32) := by
  have hpow : 2 ^ min n 32 ≤ 2 ^ 32 := Nat.pow_le_pow_right (by decide) (Nat.min_le_right n 32)
  have hmask : (lowmask n).toNat = 2 ^ min n 32 - 1 := by
    rw [lowmask, BitVec.toNat_ofNat, Nat.mod_eq_of_lt (by omega)]
  refine BitVec.eq_of_toNat_eq ?_
  rw [BitVec.toNat_and, hmask, Nat.and_two_pow_sub_one_eq_mod, BitVec.toNat_ofNat,
    Nat.mod_eq_of_lt ((Nat.mod_le _ _).trans_lt d.isLt)]

/-- Settles O17: the reads answer the registers, and the writes are protected ones of the masked data. -/
theorem inAddrAccess : Obligations.InAddrAccess := by
  intro s d
  obtain ⟨hreadLo, hwriteLo⟩ := RegisterAt.inAddrLo.accesses d
  obtain ⟨hreadHi, hwriteHi⟩ := RegisterAt.inAddrHi.accesses d
  refine ⟨hreadLo, hwriteLo, hreadHi, hwriteHi, rfl, rfl, fun hidle => ?_,
    fun hbusy => ⟨next_writeIdle_busy hbusy _, next_writeIdle_busy hbusy _⟩⟩
  rw [← and_lowmask_eq_ofNat, ← and_lowmask_eq_ofNat]
  exact ⟨next_writeIdle_idle hidle _, next_writeIdle_idle hidle _⟩

/-- Settles O18: the reads answer the registers, and the writes are protected ones. -/
theorem inLenAccess : Obligations.InLenAccess := by
  intro s d
  obtain ⟨hreadLo, hwriteLo⟩ := RegisterAt.inLenLo.accesses d
  obtain ⟨hreadHi, hwriteHi⟩ := RegisterAt.inLenHi.accesses d
  exact ⟨hreadLo, hwriteLo, hreadHi, hwriteHi, rfl, rfl,
    fun hidle => ⟨next_writeIdle_idle hidle _, next_writeIdle_idle hidle _⟩,
    fun hbusy => ⟨next_writeIdle_busy hbusy _, next_writeIdle_busy hbusy _⟩⟩

/-! `PROGRESS` (R319). -/

theorem Running.progressWord_eq_ofNat (r : Running) (count : BitVec 16) :
    r.progressWord count = .ofNat 32 (2 ^ 16 * count.toNat + 2 ^ 8 * r.subCode.toNat + r.op.code.toNat) := by
  have hsub := r.subCode.isLt
  rw [Running.progressWord, setWidth_eq_ofNat, setWidth_eq_ofNat, setWidth_eq_ofNat, ofNat_shiftLeft, ofNat_shiftLeft,
    ofNat_or_ofNat 16 _ (by omega),
    show 2 ^ 16 * count.toNat + 2 ^ 8 * r.subCode.toNat = 2 ^ 8 * (2 ^ 8 * count.toNat + r.subCode.toNat) by omega,
    ofNat_or_ofNat 8 _ r.op.code.isLt]

theorem execRdProgress_idle {s : State} (hidle : s.cur = none) : execRdProgress s = .next (s.answer 0) := by
  simp [execRdProgress, hidle]

theorem execRdProgress_running {s : State} {r : Running} (hrun : s.cur = some r) :
    execRdProgress s = .next ((s.answer (r.progressWord (Config.freeCount s.fresh))).tick 1) := by
  simp [execRdProgress, hrun]

/-- Settles O19: the count is the next free value, and `Running.subCode` is the opcode of the stage. -/
theorem progressAccess : Obligations.ProgressAccess := by
  intro s d
  obtain ⟨hread, hwrite⟩ := RegisterAt.progress.accesses d
  refine ⟨hread, hwrite, execRdProgress_idle, fun r hrun => ?_, rfl⟩
  refine ⟨(Config.freeCount s.fresh).toNat, (Config.freeCount s.fresh).isLt, (execRdProgress_running hrun).trans ?_⟩
  rw [Running.progressWord_eq_ofNat, Running.subCode]
  cases r.stage <;> rfl

/-! `LAT_IDX` and `LAT_DATA` (R320, R321). -/

/-- Settles O20: the index is copied to and from 24 bits, and the write is a protected one. -/
theorem latIdxAccess : Obligations.LatIdxAccess := by
  intro s d
  obtain ⟨hread, hwrite⟩ := RegisterAt.latIdx.accesses d
  refine ⟨hread, hwrite, next_answer_congr (setWidth_eq_ofNat 32 s.latIdx), fun hidle => ?_,
    fun hbusy => next_writeIdle_busy hbusy _⟩
  rw [ofNat_mod_two_pow, ← setWidth_eq_ofNat 24 d]
  exact next_writeIdle_idle hidle _

/-- The index after the last cell's is that of cell 0. -/
theorem latIdx_succ (x : BitVec 24) : x + 1 = .ofNat 24 ((x.toNat + 1) % 2 ^ 24) := by
  refine BitVec.eq_of_toNat_eq ?_
  rw [BitVec.toNat_add, BitVec.toNat_ofNat, Nat.mod_mod]
  rfl

theorem execRdLatData_idle {s : State} (hidle : s.cur = none) : execRdLatData s = .next s.readCell := by
  rw [execRdLatData, s.busy_eq_false_iff.mpr hidle]
  rfl

theorem execRdLatData_busy {s : State} (hbusy : s.cur ≠ none) : execRdLatData s = .next (s.answer 0) := by
  have h : s.busy = true := Option.isSome_iff_ne_none.mpr hbusy
  rw [execRdLatData, if_pos h]

/-- The read of a defined cell answers its byte. -/
theorem State.readCell_defined {s : State} {b : Byte} (hcell : s.int.lat.read s.latIdx.toNat = some b) :
    s.readCell = { s with latIdx := s.latIdx + 1, resp := .data (b.setWidth 32) } := by
  simp only [State.readCell, hcell]
  rfl

/-- The read of an undefined cell answers a free value. -/
theorem State.readCell_undefined {s : State} (hcell : s.int.lat.read s.latIdx.toNat = none) :
    s.readCell = { s with
      latIdx := s.latIdx + 1, resp := .data ((Config.freeByte s.fresh).setWidth 32), fresh := s.fresh + 1 } := by
  simp only [State.readCell, hcell]
  rfl

/-- Settles O21: a read of a defined cell, a read of an undefined one, and a write, each on an idle engine; and the two
accesses while a command runs. -/
theorem latDataAccess : Obligations.LatDataAccess := by
  intro s d
  obtain ⟨hread, hwrite⟩ := RegisterAt.latData.accesses d
  refine ⟨hread, hwrite, fun hbusy => ⟨execRdLatData_busy hbusy, next_writeIdle_busy hbusy _⟩, fun hidle => ?_⟩
  rw [← latIdx_succ]
  refine ⟨fun b hcell => ?_, fun hcell => ⟨Config.freeByte s.fresh, ?_⟩,
    s.int.lat.write s.latIdx.toNat (.ofNat 8 d.toNat), fun x => Memory.read_write _ _ _ _, ?_⟩
  · rw [← setWidth_eq_ofNat, ← State.readCell_defined hcell]
    exact execRdLatData_idle hidle
  · rw [← setWidth_eq_ofNat, ← State.readCell_undefined hcell]
    exact execRdLatData_idle hidle
  · rw [← setWidth_eq_ofNat]
    exact next_writeIdle_idle hidle _

/-! `DIGLEN` (R322). -/

/-- The three values of `DIGLEN` (R34). -/
theorem Internal.Inv.digLen_mem {w : Internal} (h : w.Inv) : w.digLen.toNat ∈ [0, 64, 384] := by
  rcases h.digLength with hlen | hlen | hlen <;> simp [hlen]

/-- Settles O22: the read answers the register, whose values the invariant gives, and the write is taken. -/
theorem diglenAccess : Obligations.DiglenAccess := by
  intro s d
  obtain ⟨hread, hwrite⟩ := RegisterAt.diglen.accesses d
  exact ⟨hread, hwrite, next_answer_congr (setWidth_eq_ofNat 32 s.int.digLen), fun hinv => hinv.int.digLen_mem, rfl⟩

/-! `SEEDk` and `ENTROPY` (R326, R327). -/

theorem extractLsb'_eq_ofNat {n : Nat} (x : BitVec n) (start len : Nat) :
    x.extractLsb' start len = .ofNat len (x.toNat / 2 ^ start) := by
  rw [BitVec.extractLsb', Nat.shiftRight_eq_div_pow]

/-- The bits of a word of the seed are replaced, and no others (R35, R326). -/
theorem setSeedWord_getLsbD (seed : BitVec 256) (k : BitVec 3) (d : Word) {j : Nat} (hj : j < 256) :
    (setSeedWord seed k d).getLsbD j =
      if 32 * k.toNat ≤ j ∧ j < 32 * k.toNat + 32 then d.getLsbD (j - 32 * k.toNat) else seed.getLsbD j := by
  simp only [setSeedWord, BitVec.shiftLeft_eq, BitVec.getLsbD_or, BitVec.getLsbD_and, BitVec.getLsbD_not,
    BitVec.getLsbD_shiftLeft, BitVec.getLsbD_setWidth, BitVec.getLsbD_allOnes]
  by_cases hlow : j < 32 * k.toNat
  · simp [hj, hlow, show ¬ (32 * k.toNat ≤ j ∧ j < 32 * k.toNat + 32) by omega]
  by_cases hhigh : j < 32 * k.toNat + 32
  · simp [hj, hlow, hhigh, show 32 * k.toNat ≤ j by omega, show j - 32 * k.toNat < 32 by omega,
      show j - 32 * k.toNat < 256 by omega]
  · simp [hj, hlow, hhigh, show ¬ j - 32 * k.toNat < 32 by omega,
      d.getLsbD_of_ge (j - 32 * k.toNat) (by omega)]

/-- Settles O23: the descriptors are those of the word's offset, and the seed written is `setSeedWord`. -/
theorem seedAccess : Obligations.SeedAccess := by
  intro s k d
  obtain ⟨hread, hwrite⟩ := (RegisterAt.seed k).accesses d
  rw [seedOffset_toNat, ← Nat.add_assoc] at hread hwrite
  refine ⟨hread, hwrite, fun hidle => ⟨next_readIdle_idle hidle (extractLsb'_eq_ofNat _ _ _), ?_⟩,
    fun hbusy => ⟨next_readIdle_busy hbusy _, next_writeIdle_busy hbusy _⟩⟩
  exact ⟨setSeedWord s.int.seed k d, fun j hj => setSeedWord_getLsbD _ _ _ hj, next_writeIdle_idle hidle _⟩

/-- The low half of `ENT` is its value below 2^32. -/
theorem extractLsb'_zero_eq_ofNat {n : Nat} (x : BitVec n) (len : Nat) :
    x.extractLsb' 0 len = .ofNat len (x.toNat % 2 ^ len) := by
  rw [extractLsb'_eq_ofNat, pow_zero, Nat.div_one, ofNat_mod_two_pow]

/-- Settles O24: the reads answer the halves of `ENT` on an idle engine, and the writes are taken. -/
theorem entropyAccess : Obligations.EntropyAccess := by
  intro s d
  obtain ⟨hreadLo, hwriteLo⟩ := RegisterAt.entropyLo.accesses d
  obtain ⟨hreadHi, hwriteHi⟩ := RegisterAt.entropyHi.accesses d
  exact ⟨hreadLo, hwriteLo, hreadHi, hwriteHi,
    fun hidle => ⟨next_readIdle_idle hidle (extractLsb'_zero_eq_ofNat _ _),
      next_readIdle_idle hidle (extractLsb'_eq_ofNat _ _ _)⟩,
    fun hbusy => ⟨next_readIdle_busy hbusy _, next_readIdle_busy hbusy _⟩, rfl, rfl⟩

/-! The DIG window (R328). -/

/-- Settles O25: the descriptors are those of the word's offset, and a read answers the word of the buffer, whose tail
the invariant clears. -/
theorem digWindowAccess : Obligations.DigWindowAccess := by
  intro s w d hw byte
  obtain ⟨hread, hwrite⟩ := (RegisterAt.dig w hw).accesses d
  rw [digOffset_toNat, ← Nat.add_assoc] at hread hwrite
  refine ⟨hread, hwrite, fun hidle => next_readIdle_idle hidle (windowWord_eq_ofNat _ _), fun hinv j hj => ?_,
    fun hbusy => next_readIdle_busy hbusy _, rfl⟩
  exact congrArg BitVec.toNat (hinv.int.digTail j hj)

/-! Reserved offsets and access errors (R323, R324). -/

/-- Settles O27: a reserved offset answers 0 and takes every write. -/
theorem reservedAccess : Obligations.ReservedAccess := by
  intro s off d haligned hreserved
  obtain ⟨hread, hwrite⟩ := decodeAccess_reserved haligned ((reservedOffset_iff off).mpr hreserved) d
  exact ⟨hread, hwrite, rfl, rfl⟩

/-- Settles O28: the size and the offset of the descriptor are its fields, and one of them makes it an access error. -/
theorem accessErrorAnswer : Obligations.AccessErrorAnswer := by
  intro s had d herror
  obtain ⟨sz, w, off, rfl⟩ := exists_descriptor had
  obtain ⟨hsz, -, hoff⟩ := descriptor_fields sz w off
  refine ⟨sz, w, off, ?_, rfl⟩
  rw [decodeAccess_descriptor, if_neg]
  rintro ⟨rfl, haligned⟩
  have htwo : (2 : BitVec 2).toNat = 2 := rfl
  omega

end Sys2Proof.Machine
end

section
/-! SUPPORT, O29 and O30. The issue of a command: the tables of its checks (R342, R343), what a write of `CMD` does with
a legal and with an illegal word (R301, R341), and that a command word stands for such a write. -/

namespace Sys2Proof.Machine

/-! The checks. -/

/-- The flag check fails on the flags that R342 lists. -/
theorem flagsHold_eq_false_iff (op : Op) (w : Internal) : flagsHold op w = false ↔ flagMissing op w := by
  cases op <;> simp [flagsHold, flagMissing]
  case walk => cases w.latV <;> simp

theorem flagsHold_eq_true_iff (op : Op) (w : Internal) : flagsHold op w = true ↔ ¬ flagMissing op w := by
  rw [← flagsHold_eq_false_iff, Bool.not_eq_false]

/-- The sampled address is the registers' value, which lies in the address space (R104). -/
theorem State.sample_inAddr_toNat (s : State) : s.sample.inAddr.toNat = s.addrValue := by
  have hspace : 2 ^ Config.addrW ≤ 2 ^ 64 := Nat.pow_le_pow_right (by decide) addrW_bounds.2
  have hlt : s.addrValue < 2 ^ Config.addrW := Nat.mod_lt _ (Nat.two_pow_pos _)
  exact (BitVec.toNat_ofNat _ _).trans (Nat.mod_eq_of_lt (hlt.trans_le hspace))

/-- The sampled length is the registers' value (R104). -/
theorem State.sample_inLen_toNat (s : State) : s.sample.inLen.toNat = s.lenValue := by
  have hhi := s.inLenHi.isLt
  have hlo := s.inLenLo.isLt
  have hlt : s.lenValue < 2 ^ 64 := by
    rw [State.lenValue]
    omega
  exact (BitVec.toNat_ofNat _ _).trans (Nat.mod_eq_of_lt hlt)

/-- The range check fails on the regions that R343 lists. -/
theorem rangeFails_eq_true_iff (s : State) (op : Op) :
    rangeFails op s.sample = true ↔ outOfRange op s.addrValue s.lenValue := by
  rw [← s.sample_inAddr_toNat, ← s.sample_inLen_toNat]
  cases op <;> simp [rangeFails, outOfRange, regionWraps, tooLong]

theorem rangeFails_eq_false_iff (s : State) (op : Op) :
    rangeFails op s.sample = false ↔ ¬ outOfRange op s.addrValue s.lenValue := by
  rw [← rangeFails_eq_true_iff, Bool.not_eq_true]

/-! Issue on an idle engine (R301). -/

section
variable {s : State} {op : Op}

theorem State.issue_seq (hidle : s.cur = none) (hflag : flagMissing op s.int) : s.issue op = (s.reject .seq).ack := by
  rw [State.issue, s.busy_eq_false_iff.mpr hidle, (flagsHold_eq_false_iff op s.int).mpr hflag]
  rfl

theorem State.issue_range (hidle : s.cur = none) (hflag : ¬ flagMissing op s.int)
    (hrange : outOfRange op s.addrValue s.lenValue) : s.issue op = (s.reject .range).ack := by
  rw [State.issue, s.busy_eq_false_iff.mpr hidle, (flagsHold_eq_true_iff op s.int).mpr hflag,
    (rangeFails_eq_true_iff s op).mpr hrange]
  rfl

theorem State.issue_accepted (hidle : s.cur = none) (hflag : ¬ flagMissing op s.int)
    (hrange : ¬ outOfRange op s.addrValue s.lenValue) : s.issue op = (s.accept op s.sample).ack := by
  rw [State.issue, s.busy_eq_false_iff.mpr hidle, (flagsHold_eq_true_iff op s.int).mpr hflag,
    (rangeFails_eq_false_iff s op).mpr hrange]
  rfl

theorem exec_illegalCmd_idle (hidle : s.cur = none) (rsvd : BitVec 24) (code : BitVec 8) :
    exec (.illegalCmd rsvd code) s = .next { s with done := true, err := .illegal, resp := .ack } :=
  next_writeIdle_idle hidle (·.reject .illegal)

end

/-! Issue while a command runs (R304). -/

section
variable {s : State}

theorem State.issue_busy (hbusy : s.cur ≠ none) (op : Op) : s.issue op = s.overrun := by
  have h : s.busy = true := Option.isSome_iff_ne_none.mpr hbusy
  rw [State.issue, if_pos h]

theorem State.issueIllegal_busy (hbusy : s.cur ≠ none) : s.issueIllegal = s.overrun := by
  have h : s.busy = true := Option.isSome_iff_ne_none.mpr hbusy
  rw [State.issueIllegal, if_pos h]

theorem State.issueWord_busy (hbusy : s.cur ≠ none) (w : Word) : s.issueWord w = s.overrun := by
  rcases s.issueWord_cases w with ⟨op, -, h⟩ | ⟨-, h⟩ <;> rw [h]
  · exact State.issue_busy hbusy op
  · exact State.issueIllegal_busy hbusy

/-- A command word that is not the running command's own is ignored with `OVR`. -/
theorem exec_decodeCommand_running {r : Running} (hrun : s.cur = some r) {w : Word}
    (hother : decodeCommand w ≠ r.op.instr) : exec (decodeCommand w) s = .next s.overrun := by
  rcases decodeCommand_cases w with ⟨op, rfl⟩ | ⟨hillegal, -⟩
  · rw [decodeCommand_code] at hother ⊢
    rw [exec_instr]
    exact State.command_other hrun fun hop => hother (by rw [hop])
  · rw [hillegal]
    exact congrArg Host.Outcome.next (State.issueIllegal_busy (by simp [hrun]))

end

/-! The statements. -/

/-- A word whose value is an opcode is that operation's command word (R101). -/
theorem decodeCommand_of_toNat {w : Word} {op : Op} (hw : w.toNat = op.code.toNat) : decodeCommand w = op.instr := by
  have heq : w = op.code.setWidth 32 := by rw [setWidth_eq_ofNat, ← hw, BitVec.ofNat_toNat, BitVec.setWidth_eq]
  rw [heq, decodeCommand_code]

/-- On an idle engine a write of `CMD` with a legal word issues its operation. -/
theorem exec_wrCmd_legal {s : State} (hidle : s.cur = none) {w : Word} {op : Op}
    (hdecode : decodeCommand w = op.instr) : exec (.wrCmd w) s = .next (s.issue op) := by
  rw [exec_wrCmd_idle hidle, hdecode, exec_instr, State.command_idle hidle]

/-- Settles O29: an illegal word is rejected, and a legal one goes through the checks in their order. -/
theorem commandIssue : Obligations.CommandIssue := by
  intro s w
  refine ⟨(RegisterAt.cmd.accesses w).2, fun hbusy => congrArg Host.Outcome.next (State.issueWord_busy hbusy w),
    fun hidle => ⟨fun hillegal => ?_, fun op hw => ?_⟩⟩
  · obtain ⟨rsvd, code, hdecode⟩ := (commandWordsHaveOneMeaning w).2.mpr hillegal
    rw [exec_wrCmd_idle hidle, hdecode, exec_illegalCmd_idle hidle]
  · have hdecode := decodeCommand_of_toNat hw
    rw [exec_wrCmd_legal hidle hdecode]
    exact ⟨hdecode, fun hflag => congrArg Host.Outcome.next (State.issue_seq hidle hflag),
      fun hflag hrange => congrArg Host.Outcome.next (State.issue_range hidle hflag hrange),
      fun hflag hrange => congrArg Host.Outcome.next (State.issue_accepted hidle hflag hrange)⟩

/-- Settles O30: while idle both are the issue of the word, and while another command runs both are ignored. -/
theorem commandWordsIssue : Obligations.CommandWordsIssue := by
  intro s w
  exact ⟨fun hidle => (exec_wrCmd_idle hidle w).symm, fun hidle rsvd op _ => exec_illegalCmd_idle hidle rsvd op,
    fun r hrun hother => exec_decodeCommand_running hrun hother⟩

end Sys2Proof.Machine
end

section
/-! SUPPORT, O7, O49 and O54. The engine's turns outside reset, the bound on the turns of a command (R300, R396), and
the changes of the interrupt output (R306, R350). -/

namespace Sys2Proof.Machine

/-! The engine's turn (R300). -/

/-- With no event pending an idle engine waits. -/
theorem step_no_event_idle {s : State} (hreset : s.inReset = false) (hinputs : s.inputs = []) (hidle : s.cur = none) :
    step s = .next s := by
  refine step_of_pass ?_
  rw [State.turn_nil hinputs, hreset, State.engineTurn_idle hidle]
  rfl

/-- A pending engine's turn on an idle engine changes nothing else. -/
theorem step_engine_idle {s : State} {rest : List Event} (hinputs : s.inputs = .engine :: rest)
    (hreset : s.inReset = false) (hidle : s.cur = none) : step s = .next { s with inputs := rest } := by
  refine step_of_pass ?_
  rw [State.turn_cons hinputs, State.eventTurn]
  exact (if_neg (by simp [hreset])).trans (State.engineTurn_idle (s := { s with inputs := rest }) hidle)

/-- Settles O7: the four cases of the engine's turn. -/
theorem engineTurnRunsCommand : Obligations.EngineTurnRunsCommand :=
  fun _ hreset =>
    ⟨fun hinputs => ⟨fun _ => step_no_event hreset hinputs, step_no_event_idle hreset hinputs⟩,
     fun _ hinputs => ⟨fun _ => step_engine hinputs hreset, step_engine_idle hinputs hreset⟩⟩

/-! Completion (R303, R345). -/

/-- A command has completed, with `OK` or `BUS`. -/
def State.ended (s : State) : Prop := s.cur = none ∧ s.done = true ∧ (s.err = .ok ∨ s.err = .bus)

/-- A command's effect ends with `OK`, or with `BUS` where a read of the input failed (R345). -/
theorem State.subEffect_outcome (s : State) (r : Running) (sub : Op) (w : Internal) :
    (s.subEffect r sub w).2 = .ok ∨ (s.subEffect r sub w).2 = .bus := by
  cases sub
  case chain | load | entropy =>
    simp only [State.subEffect]
    cases s.input r _ with
    | none => exact .inr rfl
    | some x => exact .inl (by simp)
  all_goals exact .inl (by simp [State.subEffect])

theorem State.commandEffect_outcome (s : State) (r : Running) :
    (s.commandEffect r).2 = .ok ∨ (s.commandEffect r).2 = .bus := by
  unfold State.commandEffect
  split
  · exact .inl (by simp)
  · exact s.subEffect_outcome r _ _

theorem step_commandTurn {s : State} {r : Running} (hreset : s.inReset = false) (hinputs : s.inputs = [])
    (hrun : s.cur = some r) : step s = .next (s.commandTurn r) := by
  rw [step_no_event hreset hinputs hrun, exec_instr, State.command_running hrun rfl]

/-- Any command but a `DIGEST` completes in one turn. -/
theorem State.commandTurn_ended (s : State) {r : Running} (hop : r.op ≠ .digest) : (s.commandTurn r).ended := by
  rw [State.commandTurn, if_neg hop]
  exact ⟨rfl, rfl, s.commandEffect_outcome r⟩

/-- The turn of a `DIGEST` in a stage completes it or goes on to the stage that follows (R288). -/
theorem State.digestTurn_stage (s : State) {r : Running} {sub : Op} {w : Internal} (hstage : r.stage = some ⟨sub, w⟩) :
    (s.digestTurn r).ended ∨
    ∃ next w' n, nextSub sub = some next ∧ s.digestTurn r = s.atStage r next w' n := by
  rcases s.digestTurn_cases r with ⟨hnone, -⟩ | ⟨st, next, hst, -, hnext, hturn⟩ | ⟨st, hst, -, hturn⟩
  · simp [hstage] at hnone
  · obtain rfl := Option.some.inj (hstage.symm.trans hst)
    exact .inr ⟨next, _, _, hnext, hturn⟩
  · rw [hturn]
    exact .inl ⟨rfl, rfl, s.subEffect_outcome r _ _⟩

/-- From a stage that `rest` follows, a `DIGEST` completes within one turn for each stage. -/
theorem run_stage_ended {s : State} {r : Running} {sub : Op} {w : Internal} {rest : List Op}
    (hrest : followedBy sub rest) (hreset : s.inReset = false) (hinputs : s.inputs = []) (hrun : s.cur = some r)
    (hop : r.op = .digest) (hstage : r.stage = some ⟨sub, w⟩) :
    ∃ k ≤ rest.length + 1, ∃ t, Host.Core.run Sys2Proof.core k s = .next t ∧ t.ended := by
  induction rest generalizing s r sub w with
  | nil =>
    have hstep := step_digest hreset hinputs hrun hop
    refine ⟨1, le_rfl, _, run_of_step hstep rfl, ?_⟩
    rcases s.digestTurn_stage hstage with hended | ⟨next, w', n, hnext, -⟩
    · exact hended
    · cases hrest.symm.trans hnext
  | cons follower rest ih =>
    have hstep := step_digest hreset hinputs hrun hop
    rcases s.digestTurn_stage hstage with hended | ⟨next, w', n, hnext, hturn⟩
    · exact ⟨1, by simp, _, run_of_step hstep rfl, hended⟩
    · obtain ⟨hfollower, hrest⟩ := hrest
      obtain rfl := Option.some.inj (hfollower.symm.trans hnext)
      rw [hturn] at hstep
      obtain ⟨k, hk, t, hrun', hended⟩ := ih (s := s.atStage r follower w' n) (r := r.atStage follower w')
        hrest hreset hinputs rfl hop rfl
      exact ⟨k + 1, Nat.succ_le_succ hk, t, run_of_step hstep hrun', hended⟩

/-- The stages that follow the `n`-th in the order of a `DIGEST` (R288). -/
theorem followedBy_drop {n : Nat} {sub : Op} (h : digestOrder[n]? = some sub) :
    followedBy sub (digestOrder.drop (n + 1)) := by
  have hn : n < 10 := (List.getElem?_eq_some_iff.mp h).1
  interval_cases n <;> cases h <;> simp [digestOrder, followedBy, nextSub]

/-- At most nine stages follow one; none follows an operation that is no sub-command of a `DIGEST`. -/
theorem exists_followedBy (sub : Op) : ∃ rest, followedBy sub rest ∧ rest.length ≤ 9 := by
  have horder : sub ∈ digestOrder ∨ nextSub sub = none := by cases sub <;> decide
  rcases horder with hmem | hlast
  · obtain ⟨n, hn⟩ := List.mem_iff_getElem?.mp hmem
    exact ⟨_, followedBy_drop hn, by simp [digestOrder]⟩
  · exact ⟨[], hlast, by decide⟩

/-- A `DIGEST` in a stage completes within ten turns. -/
theorem run_digest_stage_ended {s : State} {r : Running} (hreset : s.inReset = false) (hinputs : s.inputs = [])
    (hrun : s.cur = some r) (hop : r.op = .digest) {stage : Stage} (hstage : r.stage = some stage) :
    ∃ k ≤ 10, ∃ t, Host.Core.run Sys2Proof.core k s = .next t ∧ t.ended := by
  obtain ⟨rest, hrest, hlen⟩ := exists_followedBy stage.sub
  obtain ⟨k, hk, hended⟩ := run_stage_ended hrest hreset hinputs hrun hop hstage
  exact ⟨k, by omega, hended⟩

/-- A `DIGEST` completes within eleven turns, the first of which may start its `CHAIN`. -/
theorem run_digest_ended {s : State} {r : Running} (hreset : s.inReset = false) (hinputs : s.inputs = [])
    (hrun : s.cur = some r) (hop : r.op = .digest) :
    ∃ k ≤ 11, ∃ t, Host.Core.run Sys2Proof.core k s = .next t ∧ t.ended := by
  cases hstage : r.stage with
  | some stage =>
    obtain ⟨k, hk, hended⟩ := run_digest_stage_ended hreset hinputs hrun hop hstage
    exact ⟨k, by omega, hended⟩
  | none =>
    have hstep : step s = .next (s.atStage r .chain s.int s.fresh) := by
      rw [step_digest hreset hinputs hrun hop, State.digestTurn, hstage]
      rfl
    obtain ⟨k, hk, t, hrun', hended⟩ := run_digest_stage_ended (s := s.atStage r .chain s.int s.fresh)
      (r := r.atStage .chain s.int) hreset hinputs rfl hop rfl
    exact ⟨k + 1, by omega, t, run_of_step hstep hrun', hended⟩

/-- Settles O49: a `DIGEST` takes at most eleven turns, and every other command one. -/
theorem everyCommandCompletes : Obligations.EveryCommandCompletes := by
  intro s r hreset hinputs hrun
  by_cases hop : r.op = .digest
  · exact run_digest_ended hreset hinputs hrun hop
  · exact ⟨1, by decide, _, run_of_step (step_commandTurn hreset hinputs hrun) rfl, s.commandTurn_ended hop⟩

/-! The interrupt output (R306, R350). -/

theorem State.irq_eq_true_iff (s : State) : s.irq = true ↔ s.ie = true ∧ s.done = true := Bool.and_eq_true_iff

/-- A change of the interrupt output is one of `IE` or of `DONE`. -/
theorem State.irq_congr {s t : State} (hie : t.ie = s.ie) (hdone : t.done = s.done) : t.irq = s.irq := by
  rw [State.irq, State.irq, hie, hdone]

/-- Settles O54: the events that change `DONE` are the lifecycle's and its acknowledgement; only `CTRL` holds `IE`. -/
theorem interruptChanges : Obligations.InterruptChanges := by
  intro i s t hexec
  refine ⟨t.irq_eq_true_iff, fun hne => ?_⟩
  obtain ⟨-, -, -, hctrl, -, -, -, -, -, -, -, hdone, -⟩ := registerWriters i s t hexec
  by_cases hie : t.ie = s.ie
  · rcases hdone fun heq => hne (State.irq_congr hie heq) with h | h | h | ⟨d, hi, hbit, hcleared⟩
    · exact .inl h
    · exact .inr (.inl h)
    · exact .inr (.inr (.inl h))
    · have hwas : s.done = true := by
        by_contra hunset
        exact hne (State.irq_congr hie (hcleared.trans (Bool.eq_false_of_not_eq_true hunset).symm))
      exact .inr (.inr (.inr (.inl ⟨d, hi, hbit, hwas, hcleared⟩)))
  · obtain ⟨d, hi⟩ := hctrl (.inl hie)
    exact .inr (.inr (.inr (.inr ⟨d, hi, hie⟩)))

end Sys2Proof.Machine
end

section
/-! SUPPORT and O44. A bus error among the reads of the input (R73): what it makes of the sub-command that reads, and the
completion of that command alone or as the last stage of its `DIGEST` (R344, R288). -/

namespace Sys2Proof.Machine

/-! The reads (R73). -/

/-- One unreadable byte, which no agent changed since acceptance, makes the input unreadable. -/
theorem State.input_eq_none {s : State} {r : Running} {n i : Nat} (htouched : r.touched = []) (hi : i < n)
    (hread : s.mem.read (r.args.inAddr.toNat + i) = none) : s.input r n = none := by
  rw [State.input, htouched]
  exact readInput_eq_none.mpr ⟨i, hi, hread⟩

/-! The effects (R344). -/

/-- The internal state that `LOAD` leaves at a bus error among the reads of `n` input bytes (R235). -/
def Internal.unload (w : Internal) (n : Nat) : Internal := { w with lat := unloadCells n 0 w.lat, latV := false }

theorem loadEffect_bus (n : Nat) (w : Internal) : loadEffect n none w = (w.unload n, .bus) := loadEffect_bus_eq n w rfl

theorem Internal.read_unload_at (w : Internal) {n k : Nat} (hk : k < n) : (w.unload n).lat.read (ldidx k) = none :=
  (read_unloadCells n 0 w.lat _).1 ⟨k, hk, by rw [Nat.zero_add]⟩

theorem Internal.read_unload_other (w : Internal) {n a : Nat} (ha : ∀ k < n, ldidx k ≠ a) :
    (w.unload n).lat.read a = w.lat.read a :=
  (read_unloadCells n 0 w.lat a).2 fun k hk => by rw [Nat.zero_add]; exact ha k hk

section
variable {s : State} {r : Running}

theorem State.subEffect_chain_bus (hinput : s.input r r.args.inLen.toNat = none) (w : Internal) :
    s.subEffect r .chain w = (w, .bus) :=
  (congrArg (chainEffect · w) hinput).trans (chainEffect_bus w)

theorem State.subEffect_entropy_bus (hinput : s.input r r.args.inLen.toNat = none) (w : Internal) :
    s.subEffect r .entropy w = (w, .bus) :=
  (congrArg (entropyEffect · w) hinput).trans (entropyEffect_bus w)

theorem State.subEffect_load_bus {n : Nat} (hcount : inputCount .load r.args = n) (hinput : s.input r n = none)
    (w : Internal) : s.subEffect r .load w = (w.unload n, .bus) := by
  simp only [State.subEffect, hcount, hinput, loadEffect_bus]

/-! The completions (R303, R345). -/

/-- Completion with `BUS` after `n` reads. -/
def State.busCompletion (s : State) (n : Nat) (w : Internal) : State :=
  { s with int := w, cur := none, done := true, err := .bus, fresh := s.fresh + n }

theorem State.completeReading_bus (s : State) (n : Nat) (w : Internal) :
    s.completeReading n (w, .bus) = s.busCompletion n w := rfl

/-- A command whose effect is a bus error completes with it; `RNGSEED` reads no input. -/
theorem exec_bus {op : Op} {w : Internal} {n : Nat} (hrun : s.cur = some r) (hop : r.op = op)
    (hdigest : op ≠ .digest) (hrngseed : op ≠ .rngseed) (hcount : inputCount op r.args = n)
    (heffect : s.subEffect r op s.int = (w, .bus)) : exec op.instr s = .next (s.busCompletion n w) := by
  subst hop
  rw [exec_instr, State.command_running hrun rfl, State.commandTurn, if_neg hdigest, State.commandEffect,
    if_neg hrngseed, hcount, heffect, State.completeReading_bus]

/-- A `DIGEST` completes with the bus error of its stage (R288). -/
theorem exec_digest_bus {sub : Op} {w w' : Internal} {n : Nat} (hrun : s.cur = some r) (hop : r.op = .digest)
    (hstage : r.stage = some ⟨sub, w⟩) (hcount : inputCount sub r.args = n)
    (heffect : s.subEffect r sub w = (w', .bus)) : exec .digest s = .next (s.busCompletion n w') := by
  rw [exec_digest_running hrun hop, State.digestTurn_end hstage (.inl (by simp [heffect])), heffect, hcount]
  rfl

end

/-- Settles O44: the unreadable byte makes the input of the command or stage unreadable, and each of the three effects
has its case for that. -/
theorem busErrorEffects : Obligations.BusErrorEffects := by
  intro s r n i hrun htouched hi hread ends cell unloaded
  have hinput : s.input r n = none := State.input_eq_none htouched hi hread
  refine ⟨?wholeInput, ?loadedInput⟩
  case wholeInput =>
    rintro rfl
    have hchain := State.subEffect_chain_bus hinput
    have hentropy := State.subEffect_entropy_bus hinput
    refine ⟨fun hop => exec_bus hrun hop (by decide) (by decide) rfl (hchain s.int),
      fun hop => exec_bus hrun hop (by decide) (by decide) rfl (hentropy s.int), fun sub w hsub hop hstage => ?_⟩
    rcases List.mem_pair.mp hsub with rfl | rfl
    · exact exec_digest_bus hrun hop hstage rfl (hchain w)
    · exact exec_digest_bus hrun hop hstage rfl (hentropy w)
  case loadedInput =>
    intro hn
    have hcount : inputCount .load r.args = n := by rw [hn, ← latSize_eq]; rfl
    have hload := State.subEffect_load_bus hcount hinput
    have hcell : ∀ k, cell k = ldidx k := fun k => (ldidx_eq_sum k).symm
    have hunload : ∀ w : Internal, unloaded w (w.unload n) := by
      refine fun w => ⟨rfl, fun k hk => ?_, fun a ha => w.read_unload_other fun k hk => ?_⟩
      · rw [hcell]
        exact w.read_unload_at hk
      · rw [← hcell]
        exact ha k hk
    exact ⟨fun hop => ⟨_, hunload s.int, exec_bus hrun hop (by decide) (by decide) hcount (hload s.int)⟩,
      fun w hop hstage => ⟨_, hunload w, exec_digest_bus hrun hop hstage hcount (hload w)⟩⟩

end Sys2Proof.Machine
end

section
/-! SUPPORT, O8 to O11. The values after reset (R380), the two edges of the reset input (R381, R382), and the one stop of
the machine. -/

namespace Sys2Proof.Machine

/-! The stop (R382). -/

theorem State.engineTurn_ne_stop (s : State) (f : Fault) : s.engineTurn ≠ .stop f := by
  cases hcur : s.cur with
  | none => rw [State.engineTurn_idle hcur]; nofun
  | some r => rw [State.engineTurn_running hcur]; nofun

/-- Only a host access while the reset input is asserted stops the machine. -/
theorem State.turn_eq_stop {s : State} {f : Fault} (hturn : s.turn = .stop f) :
    s.inReset = true ∧ ∃ had d rest, s.inputs = .host had d :: rest := by
  cases hinputs : s.inputs with
  | nil =>
    rw [State.turn_nil hinputs] at hturn
    split at hturn
    · cases hturn
    · exact absurd hturn (s.engineTurn_ne_stop f)
  | cons e rest =>
    rw [State.turn_cons hinputs] at hturn
    cases e with
    | host had d =>
      cases hreset : s.inReset with
      | true => exact ⟨rfl, had, d, rest, rfl⟩
      | false =>
        rw [State.eventTurn_host (s := { s with inputs := rest }) hreset] at hturn
        cases hturn
    | engine =>
      rw [State.eventTurn] at hturn
      split at hturn
      · cases hturn
      · exact absurd hturn (State.engineTurn_ne_stop _ f)
    | resetOn | resetOff | memory => cases hturn

/-- Settles O8: every instruction makes one of the changes, and of the three kinds of turn only the stop faults. -/
theorem stopsOnlyDuringReset : Obligations.StopsOnlyDuringReset := by
  have hexec (i : Instr) (s : State) : ∃ t, exec i s = .next t := by
    obtain ⟨t, hnext, -⟩ := exec_change i s
    exact ⟨t, hnext⟩
  refine ⟨hexec, fun s => ?_⟩
  cases hturn : s.turn with
  | run i u =>
    obtain ⟨t, hnext⟩ := hexec i u
    exact .inl ⟨t, (step_of_run hturn).trans hnext⟩
  | pass u => exact .inl ⟨u, step_of_pass hturn⟩
  | stop f =>
    cases f
    exact .inr ⟨step_of_stop hturn, State.turn_eq_stop hturn⟩

/-! The state after reset (R380). -/

@[simp] theorem State.reset_busy : State.reset.busy = false := rfl

theorem State.reset_ctrlWord : State.reset.ctrlWord = 0 := by
  simp [State.ctrlWord, flagBit]

theorem State.reset_statusWord : State.reset.statusWord = 0 := by
  simp [State.statusWord, flagBit, ErrCode.code]

theorem State.reset_irq : State.reset.irq = false := by simp [State.irq]

/-- Settles O9: field by field, as the laws of the reset state say. -/
theorem resetValues : Obligations.ResetValues :=
  ⟨State.reset_cur, State.reset_ctrlWord, State.reset_statusWord, State.reset_inAddrLo, State.reset_inAddrHi,
    State.reset_inLenLo, State.reset_inLenHi, State.reset_latIdx, fun _ => rfl, Internal.reset_seed, Internal.reset_ent,
    rfl, Internal.reset_digLen, rfl, State.reset_irq, rfl⟩

/-- Settles O10: both edges of the reset input are events that run no instruction. -/
theorem resetAbandonsCommand : Obligations.ResetAbandonsCommand := by
  intro s rest hinputs
  refine ⟨?asserted, fun t rest' hinputs' => ?released⟩
  case asserted =>
    have hturn : s.turn = .pass ({ s with inputs := rest } : State).assertReset := State.turn_cons hinputs
    exact step_of_pass hturn
  case released =>
    have hturn : t.turn = .pass ({ t with inputs := rest' } : State).releaseReset := State.turn_cons hinputs'
    exact step_of_pass hturn

/-- Settles O11: the state after reset is idle, and its internal state meets the invariant. -/
theorem resetStateMeetsInvariant : Obligations.ResetStateMeetsInvariant :=
  .of_idle Internal.reset_inv rfl (Nat.two_pow_pos _) (Nat.two_pow_pos _) State.reset_cur State.reset_inReset

end Sys2Proof.Machine
end

section
/-! SUPPORT and O46. The ten stage commands issued one by one, each followed by the engine's turn, beside one `DIGEST`
with the same registers (R386): what a command needs from the state before it and leaves for the next one. -/

namespace Sys2Proof.Machine

/-- Outside reset the engine is idle, and its registers name the readable input `x`, which passes the range check of
`DIGEST` (R343). -/
structure State.ReadyToDigest (s : State) (x : List Byte) : Prop where
  noReset : s.inReset = false
  idle : s.cur = none
  inRange : ¬ outOfRange .digest s.addrValue s.lenValue
  length : x.length = s.lenValue
  readable : ∀ i < x.length, s.mem.read (s.addrValue + i) = x[i]?

/-- An input region that `DIGEST` takes is in range for every command (R343). -/
theorem not_outOfRange_of_digest {a n : Nat} (h : ¬ outOfRange .digest a n) (op : Op) : ¬ outOfRange op a n := by
  rintro (⟨-, hregion⟩ | ⟨-, hlong⟩)
  · exact h (.inl ⟨by simp, hregion⟩)
  · exact h (.inr ⟨by simp, hlong⟩)

/-- A sub-command that is ready passes the flag check of its command (R342). -/
theorem not_flagMissing_of_stageReady {sub : Op} {w : Internal} (hready : stageReady sub w = true) :
    ¬ flagMissing sub w := by
  rw [← flagsHold_eq_true_iff]
  cases sub
  case chain | nop | latzero | digest => rfl
  case rngseed | gen | walk | fold | hex => exact hready
  case load | chaos | entropy | diffuse => exact (Bool.and_eq_true_iff.mp hready).1

/-- The command `op` as the idle engine accepts it. -/
def State.sampled (s : State) (op : Op) : Running := ⟨op, s.sample, none, []⟩

/-- The state at its acceptance by a write of `CMD`, with the events `rest` to come. -/
def State.accepted (s : State) (op : Op) (rest : List Event) : State :=
  (({ s with inputs := rest } : State).accept op s.sample).ack

/-- An accepted command is the stage of the accepted `DIGEST` running alone. -/
theorem State.accepted_eq_alone (s : State) (op : Op) (rest : List Event) :
    s.accepted op rest = (s.accepted .digest rest).alone (s.sampled .digest) op s.int := rfl

/-- The writes of `CMD` with the command words of `ops`, each followed by the engine's turn. -/
def commandEvents (ops : List Op) : List Event :=
  ops.flatMap fun op => [.host 0x500C (op.code.setWidth 32), .engine]

/-- What the command `sub` leaves on the input `x`: the effect of its stage on the internal state, and `OK`. -/
def State.afterCommand (s : State) (x : List Byte) (sub : Op) (rest : List Event) : State :=
  { s with
    int := stageEffect x s.spMode s.outLen s.int sub
    cur := none, done := true, err := .ok, resp := .ack
    fresh := s.fresh + inputCount sub s.sample, inputs := rest }

namespace State.ReadyToDigest
variable {s : State} {x : List Byte} (h : s.ReadyToDigest x)
include h

/-- A completed command leaves the registers and the input as they were. -/
theorem afterCommand (sub : Op) (rest : List Event) : (s.afterCommand x sub rest).ReadyToDigest x :=
  ⟨h.noReset, rfl, h.inRange, h.length, h.readable⟩

theorem length_sample : x.length = s.sample.inLen.toNat := h.length.trans s.sample_inLen_toNat.symm

/-- The accepted `DIGEST` has the input `x`, which no agent has changed yet. -/
theorem stableInput : s.stableInput (s.sampled .digest) x := by
  have haddr : (s.sampled .digest).args.inAddr.toNat = s.addrValue := s.sample_inAddr_toNat
  refine ⟨rfl, ?_⟩
  rw [haddr]
  exact h.readable

theorem subEffect (sub : Op) :
    s.subEffect (s.sampled .digest) sub s.int = (stageEffect x s.spMode s.outLen s.int sub, .ok) :=
  State.subEffect_stable h.stableInput h.length_sample sub s.int

/-- A command word written to `CMD` is accepted when its flag check passes (R301). -/
theorem step_accept {op : Op} (hflag : ¬ flagMissing op s.int) {rest : List Event}
    (hinputs : s.inputs = .host 0x500C (op.code.setWidth 32) :: rest) : step s = .next (s.accepted op rest) := by
  have hissue := State.issue_accepted (s := { s with inputs := rest }) h.idle hflag
    (not_outOfRange_of_digest h.inRange op)
  calc step s
    _ = exec (.wrCmd (op.code.setWidth 32)) { s with inputs := rest } := step_host hinputs h.noReset
    _ = .next (({ s with inputs := rest } : State).issue op) :=
      exec_wrCmd_legal (s := { s with inputs := rest }) h.idle (decodeCommand_code op)
    _ = .next (s.accepted op rest) := congrArg Host.Outcome.next hissue

/-- The engine's turn completes the accepted command with the effect of its stage (R303, R386). -/
theorem step_turn {sub : Op} (hsub : sub ≠ .digest) (rest : List Event) :
    step (s.accepted sub (.engine :: rest)) = .next (s.afterCommand x sub rest) := by
  have halone := exec_alone (s.accepted .digest rest) (s.sampled .digest) hsub s.int
  have heffect : (s.accepted .digest rest).subEffect (s.sampled .digest) sub s.int = _ := h.subEffect sub
  rw [← s.accepted_eq_alone, heffect] at halone
  exact (step_engine (s := s.accepted sub (.engine :: rest)) (r := s.sampled sub) rfl h.noReset rfl).trans halone

/-- A ready sub-command that is issued alone makes the next one ready (R288). -/
theorem stageReady_afterCommand {sub next : Op} (hready : stageReady sub s.int = true)
    (hnext : nextSub sub = some next) (rest : List Event) :
    stageReady next (s.afterCommand x sub rest).int = true := by
  have hstage := stageReady_next s (s.sampled .digest) hready (congrArg Prod.snd (h.subEffect sub)) hnext
  rwa [h.subEffect sub] at hstage

/-- The two steps of a ready sub-command that is issued alone. -/
theorem run_command {sub : Op} (hready : stageReady sub s.int = true) {ops : List Op}
    (hinputs : s.inputs = commandEvents (sub :: ops)) {n : Nat} {u : State}
    (hrun : Host.Core.run Sys2Proof.core n (s.afterCommand x sub (commandEvents ops)) = .next u) :
    Host.Core.run Sys2Proof.core (n + 2) s = .next u := by
  have hsub : sub ≠ .digest := by
    rintro rfl
    cases hready
  exact run_of_step (h.step_accept (not_flagMissing_of_stageReady hready) hinputs)
    (run_of_step (h.step_turn hsub _) hrun)

/-- The stages from a ready one on, issued one by one, have the effects of the stages of a `DIGEST` in that order. -/
theorem run_commands {sub : Op} {rest : List Op} (hrest : followedBy sub rest)
    (hready : stageReady sub s.int = true) (hinputs : s.inputs = commandEvents (sub :: rest)) :
    ∃ u, Host.Core.run Sys2Proof.core (2 * (rest.length + 1)) s = .next u ∧
      u.int = (sub :: rest).foldl (stageEffect x s.spMode s.outLen) s.int ∧ u.cur = none ∧ u.err = .ok := by
  induction rest generalizing s sub with
  | nil => exact ⟨_, h.run_command hready hinputs rfl, rfl, rfl, rfl⟩
  | cons next rest ih =>
    obtain ⟨hnext, hrest⟩ := hrest
    obtain ⟨u, hrun, hu⟩ := ih (h.afterCommand sub (commandEvents (next :: rest))) hrest
      (h.stageReady_afterCommand hready hnext _) rfl
    exact ⟨u, h.run_command hready hinputs hrun, hu⟩

/-- A `DIGEST` written to `CMD` is accepted and runs its stages. -/
theorem run_digest (hinputs : s.inputs = [.host 0x500C 0x0000000F]) :
    ∃ t, Host.Core.run Sys2Proof.core 12 s = .next t ∧
      t.int = digestResult x s.spMode s.outLen s.int ∧ t.cur = none ∧ t.err = .ok := by
  have haccept : step s = .next (s.accepted .digest []) :=
    h.step_accept (op := .digest) (by simp [flagMissing]) hinputs
  have hdigesting : (s.accepted .digest []).Digesting (s.sampled .digest) x :=
    ⟨h.noReset, rfl, rfl, h.stableInput, h.length_sample⟩
  exact ⟨_, run_of_step haccept (hdigesting.run_digest rfl rfl), rfl, rfl, rfl⟩

end State.ReadyToDigest

/-- Settles O46: both runs end with the `digestResult` of the input. -/
theorem stagesMatchDigest : Obligations.StagesMatchDigest := by
  intro s x hreset hidle hrange hlen hread
  have hready (events : List Event) : ({ s with inputs := events } : State).ReadyToDigest x :=
    ⟨hreset, hidle, hrange, hlen, hread⟩
  obtain ⟨t, hrun, hint, hcur, herr⟩ := (hready [.host 0x500C 0x0000000F]).run_digest rfl
  obtain ⟨u, hrun', hint', hcur', herr'⟩ := (hready (commandEvents digestOrder)).run_commands
    (followedBy_drop (n := 0) rfl) rfl rfl
  exact ⟨t, u, hrun, hrun', hint.trans hint'.symm, hcur, hcur', herr, herr'⟩

end Sys2Proof.Machine
end
